-- ==== Sys2Proof/Word.lean ====
section
/-! DEFINITION. The two widths of the block: a byte and a 16-bit address (spec/00_scope.md R6, R8). -/

namespace Sys2Proof

/-- Data is 8 bits wide (R6). -/
abbrev Byte := BitVec 8

/-- CPU addresses, `PC` and the VRAM address registers are 16 bits wide (R6). -/
abbrev Word := BitVec 16

end Sys2Proof
end

