-- ==== Sys2Proof/Machine/Bits.lean ====
section
/-! DEFINITION. Bit fields, extension and byte order (spec/00_scope.md R8, R9, spec/20_memory.md R60). -/

namespace Sys2Proof.Machine

/-- The 16-bit value `{hi, lo}` (R8, R60). -/
def join (hi lo : Byte) : Word := hi ++ lo

/-- `v[15:8]`. -/
def hiByte (v : Word) : Byte := v.extractLsb' 8 8

/-- `v[7:0]`. -/
def loByte (v : Word) : Byte := v.setWidth 8

/-- `zext_16(v)` (R9). -/
def zext (v : Byte) : Word := v.setWidth 16

/-- `sext_8(v)` as a 16-bit value, for sums modulo 65536 (R9). -/
def sext (v : Byte) : Word := v.signExtend 16

/-- `v` with bit `i` replaced by `b`. -/
def putBit (v : Byte) (i : Nat) (b : Bool) : Byte :=
  (v &&& ~~~(BitVec.ofNat 8 (2 ^ i))) ||| (if b then BitVec.ofNat 8 (2 ^ i) else 0)

end Sys2Proof.Machine
end

