-- ==== Sys2Proof/Config.lean ====
section
/-! DEFINITION. The named parameters the spec leaves open (spec/00_scope.md R7, spec/92_eei_decisions.md), and the one free value. -/

namespace Sys2Proof

/-- What the host does after an `UnimplementedOpcode` report (spec/60_exceptions.md R302, decision D14). -/
inductive IllegalPolicy where
  | halt
  | skip
  | nop
deriving DecidableEq, Repr

/-- Which nametable windows each mirroring mode aliases (spec/22_ppu_interface.md R133, decision D31). -/
inductive MirrorConvention where
  | document
  | nesHardware
deriving DecidableEq, Repr

/-- Where bits 7 to 5 of a status read come from (spec/22_ppu_interface.md R117, decision D27). -/
inductive StatusSource where
  /-- A constant: the value `ppustatus` holds, which nothing in the block writes (power-on 0). -/
  | held
  /-- A free value drawn at each read. -/
  | perRead
deriving DecidableEq, Repr

/-- The parameters of R7. They are arguments of the model: State carries them, no step changes them,
and the defaults of R7 stand in State.reset (log entry 2). -/
structure Params where
  /-- `JMP_INDIRECT_PAGE_WRAP` (D7). -/
  jmpIndirectPageWrap : Bool
  /-- `ILLEGAL_OPCODE_POLICY` (D14). -/
  illegalOpcodePolicy : IllegalPolicy
  /-- `HW_INTERRUPT_INPUTS`: true is `present` (D11). -/
  hwInterruptInputs : Bool
  /-- `CYC`, listed by opcode byte (D10, log entry 14). -/
  cyc : List Nat
  /-- `CYCLE_PENALTIES`: true is `on` (D10). -/
  cyclePenalties : Bool
  /-- `NT_MIRROR_CONVENTION` (D31). -/
  ntMirrorConvention : MirrorConvention
  /-- `PPUSTATUS_SOURCE` (D27). -/
  ppuStatusSource : StatusSource
deriving DecidableEq, Repr

/-- FREE VALUE (R117, `PPUSTATUS_SOURCE` as a per-read draw; log entry 9): `ppustatus[7:5]` as the n-th draw
sees it. Nothing constrains it. -/
opaque Config.freeStatus : Nat → BitVec 3

end Sys2Proof
end

