-- ==== Sys2Proof/Machine/Defaults.lean ====
section
/-! DEFINITION. The defaults of the named parameters (spec/00_scope.md R7), the base cycle table of spec/70_reset_and_hazards.md R346 among them. -/

namespace Sys2Proof.Machine

/-! The table of R346, one definition a row of it; 0 stands for its `-` (illegal, never used). -/

/-- Opcodes 0x00 to 0x0F. -/
def cycleRow0 : List Nat := [7, 6, 0, 0, 0, 3, 5, 0, 3, 2, 2, 0, 0, 4, 6, 0]

/-- Opcodes 0x10 to 0x1F. -/
def cycleRow1 : List Nat := [2, 5, 0, 0, 0, 4, 6, 0, 2, 4, 0, 0, 0, 4, 7, 0]

/-- Opcodes 0x20 to 0x2F. -/
def cycleRow2 : List Nat := [6, 6, 0, 0, 3, 3, 5, 0, 4, 2, 2, 0, 4, 4, 6, 0]

/-- Opcodes 0x30 to 0x3F. -/
def cycleRow3 : List Nat := [2, 5, 0, 0, 0, 4, 6, 0, 2, 4, 0, 0, 0, 4, 7, 0]

/-- Opcodes 0x40 to 0x4F. -/
def cycleRow4 : List Nat := [6, 6, 0, 0, 0, 3, 5, 0, 3, 2, 2, 0, 3, 4, 6, 0]

/-- Opcodes 0x50 to 0x5F. -/
def cycleRow5 : List Nat := [2, 5, 0, 0, 0, 4, 6, 0, 2, 4, 0, 0, 0, 4, 7, 0]

/-- Opcodes 0x60 to 0x6F. -/
def cycleRow6 : List Nat := [6, 6, 0, 0, 0, 3, 5, 0, 4, 2, 2, 0, 5, 4, 6, 0]

/-- Opcodes 0x70 to 0x7F. -/
def cycleRow7 : List Nat := [2, 5, 0, 0, 0, 4, 6, 0, 2, 4, 0, 0, 0, 4, 7, 0]

/-- Opcodes 0x80 to 0x8F. -/
def cycleRow8 : List Nat := [0, 6, 0, 0, 3, 3, 3, 0, 2, 0, 2, 0, 4, 4, 4, 0]

/-- Opcodes 0x90 to 0x9F. -/
def cycleRow9 : List Nat := [2, 6, 0, 0, 4, 4, 4, 0, 2, 5, 2, 0, 0, 5, 0, 0]

/-- Opcodes 0xA0 to 0xAF. -/
def cycleRowA : List Nat := [2, 6, 2, 0, 3, 3, 3, 0, 2, 2, 2, 0, 4, 4, 4, 0]

/-- Opcodes 0xB0 to 0xBF. -/
def cycleRowB : List Nat := [2, 5, 0, 0, 4, 4, 4, 0, 2, 4, 2, 0, 4, 4, 4, 0]

/-- Opcodes 0xC0 to 0xCF. -/
def cycleRowC : List Nat := [2, 6, 0, 0, 3, 3, 5, 0, 2, 2, 2, 0, 4, 4, 6, 0]

/-- Opcodes 0xD0 to 0xDF. -/
def cycleRowD : List Nat := [2, 5, 0, 0, 0, 4, 6, 0, 2, 4, 0, 0, 0, 4, 7, 0]

/-- Opcodes 0xE0 to 0xEF. -/
def cycleRowE : List Nat := [2, 6, 0, 0, 3, 3, 5, 0, 2, 2, 2, 0, 4, 4, 6, 0]

/-- Opcodes 0xF0 to 0xFF. -/
def cycleRowF : List Nat := [2, 5, 0, 0, 0, 4, 6, 0, 2, 4, 0, 0, 0, 4, 7, 0]

/-- `CYC`'s default: the table of R346, row after row. -/
def baseCycles : List Nat :=
  cycleRow0 ++ cycleRow1 ++ cycleRow2 ++ cycleRow3 ++ cycleRow4 ++ cycleRow5 ++ cycleRow6 ++ cycleRow7 ++
  cycleRow8 ++ cycleRow9 ++ cycleRowA ++ cycleRowB ++ cycleRowC ++ cycleRowD ++ cycleRowE ++ cycleRowF

/-- The default column of R7. -/
def defaultParams : Params where
  jmpIndirectPageWrap := true
  illegalOpcodePolicy := .halt
  hwInterruptInputs := false
  cyc := baseCycles
  cyclePenalties := false
  ntMirrorConvention := .document
  ppuStatusSource := .held

end Sys2Proof.Machine
end

