-- ==== Sys2Proof/Machine/State.lean ====
section
/-! DEFINITION. The machine's state, its faults and the state right after reset (spec/10_state.md, spec/70_reset_and_hazards.md). -/

namespace Sys2Proof.Machine

/-- A byte memory: (index, byte) pairs, indexes strictly rising, no pair holding what an unlisted index reads as
(Machine/Memory.lean). -/
abbrev Memory := List Host.Cell

/-- The cartridge's nametable arrangement (spec/21_cartridge_mapper.md R87). -/
inductive Mirroring where
  | horizontal
  | vertical
deriving DecidableEq, Repr

/-- A cartridge as `attach` builds it (spec/10_state.md R38). -/
structure Cart where
  prgBanks : Byte
  chrBanks : Byte
  mapperId : Byte
  mirroring : Mirroring
  trainerPresent : Bool
  /-- Parsed, without effect (R81). -/
  battery : Bool
  prg : Memory
  chr : Memory
deriving DecidableEq, Repr

/-- The PPU's registers and memories (spec/10_state.md R36, R37). -/
structure Ppu where
  ctrl : Byte
  mask : Byte
  status : Byte
  oamAddr : Byte
  /-- The live VRAM address. -/
  v : Word
  /-- The temporary address. -/
  t : Word
  /-- The two-write latch: false is "first write pending". -/
  w : Bool
  ioLatch : Byte
  /-- `nt[i][j]` at index `i * 1024 + j` (log entry 13). -/
  nt : Memory
  /-- `pt[i][j]` at index `i * 4096 + j` (log entry 13). -/
  pt : Memory
  pal : Memory
  oam : Memory
deriving DecidableEq, Repr

/-- The two faults of a tick (spec/60_exceptions.md R300). -/
inductive Fault where
  /-- Raised by `illegal` under the `halt` policy: the opcode byte and the address it was fetched from (R301).
  Safe: the hardware stops at that address too, and the machine is stopped until a reset (R302). -/
  | unimplementedOpcode (opcode : Byte) (pc : Word)
  /-- Raised by any bus access that needs a cartridge while none is attached: the CPU address accessed (R303).
  Safe: the hardware's tick aborts, and the machine is stopped until `attach` then `reset`. -/
  | busContractViolation (addr : Word)
deriving DecidableEq, Repr

/-- Why an instruction has no meaning. -/
inductive Refusal where
  /-- Raised by no arm of exec any more: every instruction has its meaning. Safe. -/
  | notModelled (mnemonic : String)
deriving DecidableEq, Repr

/-- Everything the spec gives the machine; INVENTORY.md names the rule of each field. -/
structure State where
  pc : Word
  sp : Byte
  a : Byte
  x : Byte
  y : Byte
  /-- The status byte `{N, V, 1, 0, D, I, Z, C}` (R24, R25). -/
  p : Byte
  cyc : Nat
  op : Byte
  prevPC : Word
  ram : Memory
  ppu : Ppu
  /-- `bus.cart` and `ppu.cart`, which are always the same (log entry 10). -/
  cart : Option Cart
  /-- The recorded fault (R330, R331; log entry 4), which may stop the machine (R302, R303; Machine/Stopped.lean). -/
  report : Option Fault
  /-- The named parameters of R7; no step changes them (log entry 2). -/
  params : Params
  /-- The model's own: how many per-read status draws were made (log entry 9). -/
  draws : Nat
deriving DecidableEq, Repr

/-- The PPU at power-on (R36, R330); its memories list nothing (log entry 7). -/
def Ppu.powerOn : Ppu where
  ctrl := 0
  mask := 0
  status := 0
  oamAddr := 0
  v := 0
  t := 0
  w := false
  ioLatch := 0
  nt := []
  pt := []
  pal := []
  oam := []

/-- Right after power-on and reset: `sp`, `p` and `cyc` as R331 sets them, everything else at its launch value
(R330), no cartridge attached. Log entries 5, 6, 7 name the values the spec leaves open. -/
def State.reset : State where
  pc := 0
  sp := 0xFD
  a := 0
  x := 0
  y := 0
  p := 0x24
  cyc := 0
  op := 0
  prevPC := 0
  ram := []
  ppu := Ppu.powerOn
  cart := none
  report := none
  params := defaultParams
  draws := 0

end Sys2Proof.Machine
end

