-- ==== Sys2Proof/Machine/Registers.lean ====
section
/-! DEFINITION. One update per field of State: every write of a register or a memory goes through these. -/

namespace Sys2Proof.Machine

/-- `pc <- v`. -/
def State.setPc (s : State) (v : Word) : State := { s with pc := v }

/-- `sp <- v`. -/
def State.setSp (s : State) (v : Byte) : State := { s with sp := v }

/-- `a <- v`. -/
def State.setA (s : State) (v : Byte) : State := { s with a := v }

/-- `x <- v`. -/
def State.setX (s : State) (v : Byte) : State := { s with x := v }

/-- `y <- v`. -/
def State.setY (s : State) (v : Byte) : State := { s with y := v }

/-- `p <- v`. -/
def State.setP (s : State) (v : Byte) : State := { s with p := v }

/-- `cyc <- v`. -/
def State.setCyc (s : State) (v : Nat) : State := { s with cyc := v }

/-- `op <- v`. -/
def State.setOp (s : State) (v : Byte) : State := { s with op := v }

/-- `prevPC <- v`. -/
def State.setPrevPC (s : State) (v : Word) : State := { s with prevPC := v }

/-- `ram <- v`. -/
def State.setRam (s : State) (v : Memory) : State := { s with ram := v }

/-- `ppu <- v`. -/
def State.setPpu (s : State) (v : Ppu) : State := { s with ppu := v }

/-- `cart <- v`. -/
def State.setCart (s : State) (v : Option Cart) : State := { s with cart := v }

/-- `report <- v`. -/
def State.setReport (s : State) (v : Option Fault) : State := { s with report := v }

/-- `draws <- v`. -/
def State.setDraws (s : State) (v : Nat) : State := { s with draws := v }

end Sys2Proof.Machine
end

