-- ==== Sys2Proof/Machine/Exec.lean ====
section
/-! DEFINITION. A meaning as a computation over State that may raise a fault, and the outcome of running one. -/

namespace Sys2Proof.Machine

/-- A computation of a tick: it answers a value and the state so far, or a fault and the state the accesses before
it left (spec/60_exceptions.md R303). -/
abbrev Exec (α : Type) := EStateM Fault State α

/-- `raise BusContractViolation(addr)` (spec/00_scope.md R10). -/
def contractViolation {α : Type} (addr : Word) : Exec α :=
  fun s => .error (.busContractViolation addr) s

/-- The outcome of a computation: a fault ends the tick, and the run with it. -/
def outcome (x : Exec Unit) (s : State) : Host.Outcome State Fault Refusal :=
  match x s with
  | .ok _ t => .next t
  | .error f _ => .fault f

end Sys2Proof.Machine
end

