-- ==== Sys2Proof/Machine/Memory.lean ====
section
/-! DEFINITION. Byte memories as sorted lists of the bytes that differ from what an unlisted index reads as. -/

namespace Sys2Proof.Machine

/-- What an index no pair lists reads as (DESIGN CHOICE, log entry 7). -/
def Memory.unlisted : Byte := 0

/-- The byte at an index. -/
def Memory.read : Memory → Nat → Byte
  | [], _ => Memory.unlisted
  | c :: rest, i => if c.1 = i then c.2 else Memory.read rest i

/-- The memory with one byte replaced, in canonical form. -/
def Memory.write : Memory → Nat → Byte → Memory
  | [], i, v => if v = Memory.unlisted then [] else [(i, v)]
  | c :: rest, i, v =>
    if i < c.1 then
      if v = Memory.unlisted then c :: rest else (i, v) :: c :: rest
    else if i = c.1 then
      if v = Memory.unlisted then rest else (i, v) :: rest
    else c :: Memory.write rest i v

/-- The memory that holds a byte string from an index on. -/
def Memory.ofBytes : Nat → List Byte → Memory
  | _, [] => []
  | i, v :: rest =>
    if v = Memory.unlisted then Memory.ofBytes (i + 1) rest else (i, v) :: Memory.ofBytes (i + 1) rest

/-- The first `n` bytes of a memory. -/
def Memory.below (n : Nat) (m : Memory) : Memory := m.filter fun c => c.1 < n

/-- The canonical form: indexes strictly rise and no pair holds the unlisted byte. -/
abbrev Memory.wf (m : Memory) : Prop :=
  m.Pairwise (fun c d => c.1 < d.1) ∧ ∀ c ∈ m, c.2 ≠ Memory.unlisted

/-- Every listed index is one of the `n` bytes the memory has. -/
abbrev Memory.within (n : Nat) (m : Memory) : Prop := ∀ c ∈ m, c.1 < n

end Sys2Proof.Machine
end

