-- ==== Sys2Proof/Machine/Cartridge.lean ====
section
/-! DEFINITION. The cartridge: its address translation, its image format and `attach` (spec/21_cartridge_mapper.md). -/

namespace Sys2Proof.Machine

/-- Bytes in a PRG bank (spec/00_scope.md R6). -/
def prgBankSize : Nat := 16384

/-- Bytes in a CHR bank (spec/00_scope.md R6). -/
def chrBankSize : Nat := 8192

/-! Mapper 0 (R92, R94) and the accesses that go through it. -/

/-- `Mapper0Prg(a)` (R92; log entry 17 for a bank count no `attach` accepts). -/
def mapper0Prg (prgBanks : Byte) (addr : Word) : Word :=
  if prgBanks = 1 then addr &&& 0x3FFF else addr &&& 0x7FFF

/-- `Mapper0Chr(p)` (R94). -/
def mapper0Chr (addr : Word) : Word := addr &&& 0x1FFF

/-- `CartRead(a)` of an attached cartridge (R93). -/
def Cart.read (c : Cart) (addr : Word) : Byte := c.prg.read (mapper0Prg c.prgBanks addr).toNat

/-- `CartRead(a)` on the bus: a contract violation with no cartridge (spec/20_memory.md R51). -/
def cartRead (addr : Word) : Exec Byte := fun s =>
  match s.cart with
  | none => .error (.busContractViolation addr) s
  | some c => .ok (c.read addr) s

/-- `CartWrite(a, v)`: mapper 0 discards it (R95); a contract violation with no cartridge. -/
def cartWrite (addr : Word) (_v : Byte) : Exec Unit := fun s =>
  match s.cart with
  | none => .error (.busContractViolation addr) s
  | some _ => .ok () s

/-! The image format (R80 to R91). -/

/-- The load errors (spec/60_exceptions.md R304). -/
inductive LoadError where
  | invalidHeader
  | truncatedRom
  | unsupportedMapper (id : Byte)
deriving DecidableEq, Repr

/-- The closed variant set of R90. -/
inductive Mapper where
  | mapper0
deriving DecidableEq, Repr

/-- Mapper selection (R90). -/
def selectMapper (id : Byte) : Option Mapper := if id = 0 then some .mapper0 else none

/-- The magic bytes `N`, `E`, `S`, 0x1A (R81). -/
def magic : List Byte := [0x4E, 0x45, 0x53, 0x1A]

/-- Byte `i` of an image. -/
def imageByte (image : List Byte) (i : Nat) : Byte := image.getD i 0

/-- Bytes of header (R6). -/
def headerSize : Nat := 16

/-- `mapper_id` (R86). -/
def headerMapperId (image : List Byte) : Byte := (imageByte image 7 &&& 0xF0) ||| (imageByte image 6 >>> 4)

/-- `trainer_present` (R81). -/
def headerTrainer (image : List Byte) : Bool := (imageByte image 6).getLsbD 2

/-- `mirroring` (R87). -/
def headerMirroring (image : List Byte) : Mirroring :=
  if (imageByte image 6).getLsbD 0 then .vertical else .horizontal

/-- The length of the trainer (R80, R83). -/
def trainerSize (image : List Byte) : Nat := if headerTrainer image then 512 else 0

/-- Where PRG-ROM begins in the image (R80). -/
def prgStart (image : List Byte) : Nat := headerSize + trainerSize image

/-- Bytes of PRG-ROM the header declares. -/
def prgSize (image : List Byte) : Nat := (imageByte image 4).toNat * prgBankSize

/-- Bytes of CHR-ROM the header declares. -/
def chrSize (image : List Byte) : Nat := (imageByte image 5).toNat * chrBankSize

/-- The length the header declares for the image (R85). -/
def declaredSize (image : List Byte) : Nat := prgStart image + prgSize image + chrSize image

/-- The cartridge of an image that passed the checks (R81, R84). -/
def cartOf (image : List Byte) : Cart where
  prgBanks := imageByte image 4
  chrBanks := imageByte image 5
  mapperId := headerMapperId image
  mirroring := headerMirroring image
  trainerPresent := headerTrainer image
  battery := (imageByte image 6).getLsbD 1
  prg := Memory.ofBytes 0 ((image.drop (prgStart image)).take (prgSize image))
  chr := Memory.ofBytes 0 ((image.drop (prgStart image + prgSize image)).take (chrSize image))

/-- The checks of R88, in its order; the first that fails decides the error. -/
def parseImage (image : List Byte) : Except LoadError Cart :=
  if image.take 4 ≠ magic then .error .invalidHeader
  else if image.length < headerSize ∨ image.length < declaredSize image then .error .truncatedRom
  else
    match selectMapper (headerMapperId image) with
    | none => .error (.unsupportedMapper (headerMapperId image))
    | some .mapper0 =>
      if imageByte image 4 = 1 ∨ imageByte image 4 = 2 then .ok (cartOf image) else .error .invalidHeader

/-- The pattern tables `attach` loads: `pt[p >> 12][p & 0xFFF] <- chr[Mapper0Chr(p)]` for `p < 0x2000`, zeros with no
CHR bank (R96). -/
def patternTables (c : Cart) : Memory := if c.chrBanks = 0 then [] else c.chr.below chrBankSize

/-- The state with a cartridge attached: both references and the pattern tables, nothing else (R96). -/
def State.withCart (s : State) (c : Cart) : State :=
  (s.setCart (some c)).setPpu { s.ppu with pt := patternTables c }

/-- `attach(image)`, a host operation between two ticks (R96); a failed load changes nothing (R89).
A stopped machine stays stopped: only a reset that follows lets it go on (R302, R303). -/
def attach (image : List Byte) (s : State) : Except LoadError State :=
  match parseImage image with
  | .error e => .error e
  | .ok c => .ok (s.withCart c)

end Sys2Proof.Machine
end

