-- ==== Sys2Proof/Machine/Ppu.lean ====
section
/-! DEFINITION. The PPU's register window and the memories behind it (spec/22_ppu_interface.md). -/

namespace Sys2Proof.Machine

/-! VRAM address resolution (R130 to R137). -/

/-- A storage cell of the VRAM space. -/
inductive VramCell where
  /-- `pt`, by flat index. -/
  | pattern (i : Nat)
  /-- `nt`, by flat index. -/
  | nametable (i : Nat)
  /-- `pal`. -/
  | palette (i : Nat)
deriving DecidableEq, Repr

/-- `NtTable(a)` (R133): the physical table of the window `a` falls in. -/
def ntTable (convention : MirrorConvention) (m : Mirroring) (a : Word) : Nat :=
  match convention, m with
  | .document, .horizontal | .nesHardware, .vertical => ((a >>> 10) &&& 1).toNat
  | .document, .vertical | .nesHardware, .horizontal => ((a >>> 11) &&& 1).toNat

/-- `PalIndex(a)` (R134). -/
def palIndex (a : Word) : Nat :=
  let i := (a &&& 0x1F).toNat
  if i = 0x10 ∨ i = 0x14 ∨ i = 0x18 ∨ i = 0x1C then i - 0x10 else i

/-- The cell a VRAM address selects (R130); none for a nametable with no cartridge, whose mirroring decides (R137). -/
def vramCell (s : State) (addr : Word) : Option VramCell :=
  let a := addr &&& 0x3FFF
  if a < 0x2000 then some (.pattern a.toNat)
  else if a < 0x3F00 then
    match s.cart with
    | none => none
    | some c => some (.nametable (ntTable s.params.ntMirrorConvention c.mirroring a * 1024 + (a &&& 0x3FF).toNat))
  else some (.palette (palIndex a))

/-- The byte in a cell. -/
def Ppu.readCell (u : Ppu) : VramCell → Byte
  | .pattern i => u.pt.read i
  | .nametable i => u.nt.read i
  | .palette i => u.pal.read i

/-- The PPU with one cell replaced. -/
def Ppu.writeCell (u : Ppu) (c : VramCell) (v : Byte) : Ppu :=
  match c with
  | .pattern i => { u with pt := u.pt.write i v }
  | .nametable i => { u with nt := u.nt.write i v }
  | .palette i => { u with pal := u.pal.write i v }

/-- `ReadVRAM(addr)` (R135), on behalf of the CPU access at `cpu` (R303's payload). -/
def readVram (cpu addr : Word) : Exec Byte := fun s =>
  match vramCell s addr with
  | none => .error (.busContractViolation cpu) s
  | some c => .ok (s.ppu.readCell c) s

/-- `WriteVRAM(addr, val)` (R136). -/
def writeVram (cpu addr : Word) (v : Byte) : Exec Unit := fun s =>
  match vramCell s addr with
  | none => .error (.busContractViolation cpu) s
  | some c => .ok () (s.setPpu (s.ppu.writeCell c v))

/-! The eight register slots (R110 to R127). -/

/-- The slots of R110, in their order. -/
inductive Slot where
  | control | mask | status | oamAddress | oamData | scroll | vramAddress | vramData
deriving DecidableEq, Repr

/-- Slot `addr & 7` (spec/20_memory.md R55). -/
def slotOf (addr : Word) : Slot :=
  match (addr &&& 7).toNat with
  | 0 => .control
  | 1 => .mask
  | 2 => .status
  | 3 => .oamAddress
  | 4 => .oamData
  | 5 => .scroll
  | 6 => .vramAddress
  | _ => .vramData

/-- `Inc()`: bit 2 of `ppuctrl` selects the step (R115). -/
def Ppu.step (u : Ppu) : Word := if u.ctrl.getLsbD 2 then 32 else 1

/-- `v <- v +_16 Inc()` (R124, R125, R126). -/
def Ppu.advance (u : Ppu) : Ppu := { u with v := u.v + u.step }

/-- A write to slot 6 (R121, R122). -/
def Ppu.writeAddress (u : Ppu) (v : Byte) : Ppu :=
  if u.w then
    let t := (u.t &&& 0xFF00) ||| zext v
    { u with t := t, v := t, w := false }
  else { u with t := (zext (v &&& 0x3F) <<< 8) ||| (u.t &&& 0x00FF), w := true }

/-- `Status()` (R117): what `ppustatus` holds, bits 7 to 5 drawn afresh under the per-read source. -/
def statusByte : Exec Byte := fun s =>
  match s.params.ppuStatusSource with
  | .held => .ok s.ppu.status s
  | .perRead => .ok (Config.freeStatus s.draws ++ s.ppu.status.setWidth 5) (s.setDraws (s.draws + 1))

/-- `f` applied to the PPU's state. -/
def modifyPpu (f : Ppu → Ppu) : Exec Unit := modify fun s => s.setPpu (f s.ppu)

/-- `PpuReadRegister(i)` (R114), for the CPU address of the access. -/
def ppuReadRegister (addr : Word) : Exec Byte :=
  match slotOf addr with
  | .control | .mask | .oamAddress | .scroll | .vramAddress => do
    let s ← get
    pure s.ppu.ioLatch
  | .status => do
    let r ← statusByte
    modifyPpu fun u => { u with w := false, ioLatch := r }
    pure r
  | .oamData => do
    let s ← get
    let r := s.ppu.oam.read s.ppu.oamAddr.toNat
    modifyPpu fun u => { u with ioLatch := r }
    pure r
  | .vramData => do
    let s ← get
    let r ← readVram addr s.ppu.v
    modifyPpu fun u => { u.advance with ioLatch := r }
    pure r

/-- `PpuWriteRegister(i, val)` (R113), for the CPU address of the access. -/
def ppuWriteRegister (addr : Word) (v : Byte) : Exec Unit := do
  modifyPpu fun u => { u with ioLatch := v }
  match slotOf addr with
  | .control => modifyPpu fun u => { u with ctrl := v }
  | .mask => modifyPpu fun u => { u with mask := v }
  | .status => modifyPpu fun u => { u with w := false }
  | .oamAddress => modifyPpu fun u => { u with oamAddr := v }
  | .oamData => modifyPpu fun u => { u with oam := u.oam.write u.oamAddr.toNat v, oamAddr := u.oamAddr + 1 }
  | .scroll => pure ()
  | .vramAddress => modifyPpu fun u => u.writeAddress v
  | .vramData => do
    let s ← get
    writeVram addr s.ppu.v v
    modifyPpu Ppu.advance

end Sys2Proof.Machine
end

