-- ==== Sys2Proof/Machine/Bus.lean ====
section
/-! DEFINITION. The Memory Bus: which region a CPU address falls in, and one byte read or written there (spec/20_memory.md). -/

namespace Sys2Proof.Machine

/-- The regions of R50. -/
inductive Region where
  | ram
  | ppu
  | hole
  | cart
deriving DecidableEq, Repr

/-- The decode of R50: total, and on the address alone. -/
def region (addr : Word) : Region :=
  if addr < 0x2000 then .ram
  else if addr < 0x4000 then .ppu
  else if addr < 0x4020 then .hole
  else .cart

/-- The RAM index of an address (R53). -/
def ramIndex (addr : Word) : Nat := (addr &&& 0x07FF).toNat

/-- The RAM byte an address selects (R53). -/
def State.ramByte (s : State) (addr : Word) : Byte := s.ram.read (ramIndex addr)

/-- `MemRead(addr, 1)` (R51). -/
def memRead (addr : Word) : Exec Byte :=
  match region addr with
  | .ram => fun s => .ok (s.ramByte addr) s
  | .ppu => ppuReadRegister addr
  | .hole => pure 0
  | .cart => cartRead addr

/-- `MemWrite(addr, 1, v)` (R52). -/
def memWrite (addr : Word) (v : Byte) : Exec Unit :=
  match region addr with
  | .ram => fun s => .ok () (s.setRam (s.ram.write (ramIndex addr) v))
  | .ppu => ppuWriteRegister addr v
  | .hole => pure ()
  | .cart => cartWrite addr v

/-- `Read16(lo, hi)`: the byte at `lo` is read first (R60). -/
def read16 (lo hi : Word) : Exec Word := do
  let l ← memRead lo
  let h ← memRead hi
  pure (join h l)

end Sys2Proof.Machine
end

