-- ==== Sys2Proof/Machine/Load.lean ====
section
/-! DEFINITION. Placing an instruction where the next tick fetches it, as the host's load of a cartridge would (log entry 11). -/

namespace Sys2Proof.Machine

/-- Whether an instruction byte can be placed at an address: RAM and cartridge space hold bytes, the PPU window and the
APU/IO hole do not. -/
def holdsBytes (addr : Word) : Bool := region addr = .ram || region addr = .cart

/-- A one-bank cartridge of zeros but for its reset vector, 0x8000. -/
def blankCart : Cart where
  prgBanks := 1
  chrBanks := 0
  mapperId := 0
  mirroring := .horizontal
  trainerPresent := false
  battery := false
  prg := [(0x3FFD, 0x80)]
  chr := []

/-- Where the blank cartridge's program begins. -/
def programStart : Word := 0x8000

/-- A state whose next three bytes at `PC` can be placed: with no cartridge a blank one is attached and `PC` is at its
reset vector; a `PC` that reaches the PPU window or the hole moves to cartridge space. -/
def State.readyForProgram (s : State) : State :=
  match s.cart with
  | none => (s.setCart (some blankCart)).setPc programStart
  | some _ =>
    if holdsBytes s.pc && holdsBytes (s.pc + 1) && holdsBytes (s.pc + 2) then s else s.setPc programStart

/-- One byte placed at an address of RAM or of the attached cartridge's PRG-ROM. -/
def State.placeByte (s : State) (addr : Word) (v : Byte) : State :=
  match region addr, s.cart with
  | .ram, _ => s.setRam (s.ram.write (ramIndex addr) v)
  | .cart, some c => s.setCart (some { c with prg := c.prg.write (mapper0Prg c.prgBanks addr).toNat v })
  | .cart, none => s
  | .ppu, _ | .hole, _ => s

/-- Bytes placed from an address on. -/
def State.placeBytes (s : State) (addr : Word) : List Byte → State
  | [] => s
  | v :: rest => State.placeBytes (s.placeByte addr v) (addr + 1) rest

/-- The bytes of an instruction placed where the next tick fetches. -/
def State.placeInstruction (s : State) (bytes : List Byte) : State :=
  let t := s.readyForProgram
  t.placeBytes t.pc bytes

end Sys2Proof.Machine
end

