-- ==== Sys2Proof/Machine/Flags.lean ====
section
/-! DEFINITION. The status byte and every flag computation (spec/10_state.md R24 to R32, spec/42_arithmetic.md R200, R203, spec/43_shifts.md). -/

namespace Sys2Proof.Machine

/-! Bit positions of R24. -/

def bitC : Nat := 0
def bitZ : Nat := 1
def bitI : Nat := 2
def bitD : Nat := 3
def bitB : Nat := 4
def bitU : Nat := 5
def bitV : Nat := 6
def bitN : Nat := 7

/-- Bit `i` of the status byte. -/
def flag (p : Byte) (i : Nat) : Bool := p.getLsbD i

/-- `SetZN(v)` (R29). -/
def setZN (v p : Byte) : Byte := putBit (putBit p bitZ (v == 0)) bitN (v.getLsbD 7)

/-- `PackP(b)` (R30). -/
def packP (p : Byte) (b : Bool) : Byte := (p &&& 0xCF) ||| 0x20 ||| (if b then 0x10 else 0)

/-- `UnpackP(v)` (R31). -/
def unpackP (v : Byte) : Byte := (v &&& 0xCF) ||| 0x20

/-- The status byte of R25: bit 5 is 1, bit 4 is 0. -/
abbrev statusLegal (p : Byte) : Prop := flag p bitU = true ∧ flag p bitB = false

/-- The 9-bit sum of `AddCore` (R200). -/
def addSum (a m p : Byte) : Nat := a.toNat + m.toNat + (flag p bitC).toNat

/-- The result of `AddCore` (R200). -/
def addResult (a m p : Byte) : Byte := BitVec.ofNat 8 (addSum a m p)

/-- The sign test of `AddCore`: the inputs agree in bit 7 and the result does not (R200). -/
def addOverflow (a m r : Byte) : Bool := ((a ^^^ r) &&& (m ^^^ r) &&& 0x80) != 0

/-- The flags of `AddCore` (R200). -/
def addFlags (a m p : Byte) : Byte :=
  let r := addResult a m p
  setZN r (putBit (putBit p bitV (addOverflow a m r)) bitC (decide (255 < addSum a m p)))

/-- The flags of `CompareCore(r, m)` (R203). -/
def compareFlags (r m p : Byte) : Byte :=
  putBit (putBit (putBit p bitC (decide (m ≤ r))) bitZ (r == m)) bitN ((r - m).getLsbD 7)

/-- The flags of BIT (spec/41_logical.md R193). -/
def bitFlags (a m p : Byte) : Byte :=
  putBit (putBit (putBit p bitN (m.getLsbD 7)) bitV (m.getLsbD 6)) bitZ ((a &&& m) == 0)

/-! Shift results and the bit that leaves them (R210 to R213); `c` is the incoming carry. -/

def aslResult (m : Byte) : Byte := m <<< 1
def lsrResult (m : Byte) : Byte := m >>> 1
def rolResult (c : Bool) (m : Byte) : Byte := (m <<< 1) ||| (if c then 1 else 0)
def rorResult (c : Bool) (m : Byte) : Byte := (m >>> 1) ||| (if c then 0x80 else 0)

end Sys2Proof.Machine
end

