-- ==== Sys2Proof/Machine/Ops.lean ====
section
/-! DEFINITION. The shared operations over registers and the stack, trap entry and trap return (spec/46_stack_jumps_subroutines.md, spec/60_exceptions.md R307, R309, R310). -/

namespace Sys2Proof.Machine

/-- `PC <- PC +_16 n`. -/
def advance (n : Word) : Exec Unit := modify fun s => s.setPc (s.pc + n)

/-- `PC <- target`. -/
def jumpTo (target : Word) : Exec Unit := modify fun s => s.setPc target

/-- `SetZN(v)` on the status register (spec/10_state.md R29). -/
def State.putZN (s : State) (v : Byte) : State := s.setP (setZN v s.p)

/-- `A <- v`; `SetZN(v)`. -/
def State.loadA (s : State) (v : Byte) : State := (s.setA v).putZN v

/-- `X <- v`; `SetZN(v)`. -/
def State.loadX (s : State) (v : Byte) : State := (s.setX v).putZN v

/-- `Y <- v`; `SetZN(v)`. -/
def State.loadY (s : State) (v : Byte) : State := (s.setY v).putZN v

/-- One bit of the status register written, the others kept. -/
def State.putFlag (s : State) (i : Nat) (b : Bool) : State := s.setP (putBit s.p i b)

/-- The stack address of a stack pointer value: `0x0100 + SP` (spec/10_state.md R22). -/
def stackAddr (sp : Byte) : Word := 0x0100 + zext sp

/-- `Push(v)` (R280). -/
def push (v : Byte) : Exec Unit := do
  let s ← get
  memWrite (stackAddr s.sp) v
  modify fun s => s.setSp (s.sp - 1)

/-- `Pull()` (R281). -/
def pull : Exec Byte := do
  modify fun s => s.setSp (s.sp + 1)
  let s ← get
  memRead (stackAddr s.sp)

/-- A 16-bit value pushed high byte first (R288, R292). -/
def pushWord (v : Word) : Exec Unit := do
  push (hiByte v)
  push (loByte v)

/-- A 16-bit value pulled low byte first (R289, R290). -/
def pullWord : Exec Word := do
  let lo ← pull
  let hi ← pull
  pure (join hi lo)

/-- The BRK vector, which IRQ shares (R292, R307). -/
def brkVector : Word := 0xFFFE

/-- The NMI vector of the optional extension (R307). -/
def nmiVector : Word := 0xFFFA

/-- The reset vector (spec/70_reset_and_hazards.md R331). -/
def resetVector : Word := 0xFFFC

/-- TRAP ENTRY, for BRK (`b` true, R292) and for the interrupt entries of R307 (`b` false): push the return address and
`PackP(b)`, set `I`, go to the address stored at the vector. -/
def enterTrap (vector ret : Word) (b : Bool) : Exec Unit := do
  pushWord ret
  let s ← get
  push (packP s.p b)
  modify fun s => s.putFlag bitI true
  let target ← read16 vector (vector + 1)
  jumpTo target

/-- TRAP RETURN (RTI, R290, R310): pull the status byte, then the return address. -/
def returnFromTrap : Exec Unit := do
  let v ← pull
  modify fun s => s.setP (unpackP v)
  let target ← pullWord
  jumpTo target

end Sys2Proof.Machine
end

