-- ==== Sys2Proof/Syntax.lean ====
section
/-! DEFINITION. The instruction set as syntax: 56 instructions and the illegal opcode (spec/30_encoding.md R152, R154, R156). -/

namespace Sys2Proof

/-- The operand forms of R156 that name an operand byte, each with the operand value R155 assembles.
The implied form has no operand, `ind` and the jump use of `abs` are in `JumpTarget`, and `rel` is the
offset byte of a branch. -/
inductive Operand where
  | acc
  | imm (value : Byte)
  | zp (address : Byte)
  | zpx (address : Byte)
  | zpy (address : Byte)
  | abs (address : Word)
  | absx (address : Word)
  | absy (address : Word)
  | indx (pointer : Byte)
  | indy (pointer : Byte)
deriving DecidableEq, Repr

/-- The two forms of JMP (spec/46_stack_jumps_subroutines.md R286). -/
inductive JumpTarget where
  | abs (address : Word)
  | ind (pointer : Word)
deriving DecidableEq, Repr

/-- One constructor per mnemonic of spec/opcode_table.json; the rows of one mnemonic are its operand forms. -/
inductive Instr where
  | adc (m : Operand)
  | and (m : Operand)
  | asl (m : Operand)
  | bcc (offset : Byte)
  | bcs (offset : Byte)
  | beq (offset : Byte)
  | bit (m : Operand)
  | bmi (offset : Byte)
  | bne (offset : Byte)
  | bpl (offset : Byte)
  | brk
  | bvc (offset : Byte)
  | bvs (offset : Byte)
  | clc
  | cld
  | cli
  | clv
  | cmp (m : Operand)
  | cpx (m : Operand)
  | cpy (m : Operand)
  | dec (m : Operand)
  | dex
  | dey
  | eor (m : Operand)
  | inc (m : Operand)
  | inx
  | iny
  | jmp (target : JumpTarget)
  | jsr (target : Word)
  | lda (m : Operand)
  | ldx (m : Operand)
  | ldy (m : Operand)
  | lsr (m : Operand)
  | nop
  | ora (m : Operand)
  | pha
  | php
  | pla
  | plp
  | rol (m : Operand)
  | ror (m : Operand)
  | rti
  | rts
  | sbc (m : Operand)
  | sec
  | sed
  | sei
  | sta (m : Operand)
  | stx (m : Operand)
  | sty (m : Operand)
  | tax
  | tay
  | tsx
  | txa
  | txs
  | tya
  /-- One of the 105 opcode bytes with no handler (R154). Its length is undefined in the spec; the term holds the opcode byte
  alone (DESIGN CHOICE, log entry 19). -/
  | illegal (opcode : Byte)
deriving DecidableEq, Repr

end Sys2Proof
end

