-- ==== Sys2Proof/Machine/Operands.lean ====
section
/-! DEFINITION. The addressing-mode resolvers and operand access (spec/40_addressing_modes.md). -/

namespace Sys2Proof.Machine

/-- An effective address (spec/00_scope.md R11). `fetched` is the `Addr` of an immediate operand together with the byte
the fetch has already read there (log entry 1). -/
inductive Ea where
  | acc
  | addr (a : Word)
  | fetched (a : Word) (v : Byte)
deriving DecidableEq, Repr

/-- The two pointer bytes in page zero, low byte first, the high one from `(z + 1) mod 256` (R183, R184). -/
def zpPointer (z : Byte) : Exec Word := read16 (zext z) (zext (z + 1))

/-- The resolvers R174 to R184: the effective address, with `PC` advanced by the instruction's width. -/
def resolve : Operand → Exec Ea
  | .acc => do
    advance 1
    pure .acc
  | .imm v => do
    let s ← get
    advance 2
    pure (.fetched (s.pc + 1) v)
  | .zp b => do
    advance 2
    pure (.addr (zext b))
  | .zpx b => do
    let s ← get
    advance 2
    pure (.addr (zext (b + s.x)))
  | .zpy b => do
    let s ← get
    advance 2
    pure (.addr (zext (b + s.y)))
  | .abs a => do
    advance 3
    pure (.addr a)
  | .absx a => do
    let s ← get
    advance 3
    pure (.addr (a + zext s.x))
  | .absy a => do
    let s ← get
    advance 3
    pure (.addr (a + zext s.y))
  | .indx b => do
    let s ← get
    let target ← zpPointer (b + s.x)
    advance 2
    pure (.addr target)
  | .indy b => do
    let s ← get
    let base ← zpPointer b
    advance 2
    pure (.addr (base + zext s.y))

/-- `ReadOperand(ea)` (R171). -/
def readOperand : Ea → Exec Byte
  | .acc => do
    let s ← get
    pure s.a
  | .addr a => memRead a
  | .fetched _ v => pure v

/-- `WriteOperand(ea, v)` (R172). -/
def writeOperand (ea : Ea) (v : Byte) : Exec Unit :=
  match ea with
  | .acc => modify fun s => s.setA v
  | .addr a | .fetched a _ => memWrite a v

/-- The resolver and the operand read, as every instruction that only reads its operand makes them. -/
def operandByte (m : Operand) : Exec Byte := do
  let ea ← resolve m
  readOperand ea

/-- An instruction that reads its operand `M` and then changes registers by `f M`. -/
def withOperand (m : Operand) (f : Byte → State → State) : Exec Unit := do
  let v ← operandByte m
  modify (f v)

/-- The resolver and the operand write of a store of register `r`. -/
def storeOperand (m : Operand) (r : State → Byte) : Exec Unit := do
  let ea ← resolve m
  let s ← get
  writeOperand ea (r s)

/-- A read-modify-write (R214, R220): read `M`; write the flags `before M` names; write the result; `SetZN(result)`.
The result is computed from the flags as they stood before. -/
def readModifyWrite (m : Operand) (result : Byte → Byte → Byte) (before : Byte → State → State) : Exec Unit := do
  let ea ← resolve m
  let v ← readOperand ea
  let s ← get
  let r := result s.p v
  modify (before v)
  writeOperand ea r
  modify fun s => s.putZN r

/-- Where JMP indirect reads the pointer's high byte (R182). -/
def indirectHigh (pageWrap : Bool) (ptr : Word) : Word :=
  if pageWrap then join (hiByte ptr) (loByte ptr + 1) else ptr + 1

/-- The jump targets of JMP (R179, R182, R286), with `PC` advanced past the operand. -/
def resolveJump : JumpTarget → Exec Word
  | .abs a => do
    advance 3
    pure a
  | .ind ptr => do
    let s ← get
    let target ← read16 ptr (indirectHigh s.params.jmpIndirectPageWrap ptr)
    advance 3
    pure target

/-- The branch target `(p + 2 + sext_8(b1)) mod 65536` (R185). -/
def relTarget (p : Word) (offset : Byte) : Word := p + 2 + sext offset

/-- `Branch(cond, ea)` for the condition "bit `i` of `P` is `want`" (spec/45_branches_flags_nop.md R250). -/
def branch (i : Nat) (want : Bool) (offset : Byte) : Exec Unit := do
  let s ← get
  advance 2
  if flag s.p i = want then jumpTo (relTarget s.pc offset) else pure ()

/-- The implied resolver (R173), then a change of registers. -/
def implied (f : State → State) : Exec Unit := do
  advance 1
  modify f

end Sys2Proof.Machine
end

