-- ==== Sys2Proof/Machine/Cycles.lean ====
section
/-! DEFINITION. What a completed tick adds to the cycle counter (spec/70_reset_and_hazards.md R345 to R347). -/

namespace Sys2Proof.Machine

/-- The operand of an instruction that only reads it and may pay the page-crossing penalty (R347). -/
def pagePenaltyOperand : Instr → Option Operand
  | .ora m | .and m | .eor m | .adc m | .sbc m | .cmp m | .lda m | .ldx m | .ldy m => some m
  | .asl _ | .bit _ | .cpx _ | .cpy _ | .dec _ | .inc _ | .lsr _ | .rol _ | .ror _ | .sta _ | .stx _ | .sty _
  | .bcc _ | .bcs _ | .beq _ | .bmi _ | .bne _ | .bpl _ | .bvc _ | .bvs _
  | .brk | .clc | .cld | .cli | .clv | .dex | .dey | .inx | .iny | .jmp _ | .jsr _ | .nop
  | .pha | .php | .pla | .plp | .rti | .rts | .sec | .sed | .sei
  | .tax | .tay | .tsx | .txa | .txs | .tya | .illegal _ => none

/-- The flag a branch tests, the value that takes it, and its offset (spec/45_branches_flags_nop.md R251 to R258). -/
def branchTest : Instr → Option (Nat × Bool × Byte)
  | .bpl d => some (bitN, false, d)
  | .bmi d => some (bitN, true, d)
  | .bvc d => some (bitV, false, d)
  | .bvs d => some (bitV, true, d)
  | .bcc d => some (bitC, false, d)
  | .bcs d => some (bitC, true, d)
  | .bne d => some (bitZ, false, d)
  | .beq d => some (bitZ, true, d)
  | .adc _ | .and _ | .asl _ | .bit _ | .cmp _ | .cpx _ | .cpy _ | .dec _ | .eor _ | .inc _
  | .lda _ | .ldx _ | .ldy _ | .lsr _ | .ora _ | .rol _ | .ror _ | .sbc _ | .sta _ | .stx _ | .sty _
  | .brk | .clc | .cld | .cli | .clv | .dex | .dey | .inx | .iny | .jmp _ | .jsr _ | .nop
  | .pha | .php | .pla | .plp | .rti | .rts | .sec | .sed | .sei
  | .tax | .tay | .tsx | .txa | .txs | .tya | .illegal _ => none

/-- 1 if two addresses differ in bits 15:8, else 0. -/
def pageDiffers (a b : Word) : Nat := if hiByte a = hiByte b then 0 else 1

/-- The word the page-zero pointer `z` holds; page zero is RAM, so looking at it has no effect. -/
def State.zpWord (s : State) (z : Byte) : Word := join (s.ramByte (zext (z + 1))) (s.ramByte (zext z))

/-- The page-crossing penalty of an operand form (R347). -/
def pagePenalty (s : State) : Operand → Nat
  | .absx a => pageDiffers a (a + zext s.x)
  | .absy a => pageDiffers a (a + zext s.y)
  | .indy z => pageDiffers (s.zpWord z) (s.zpWord z + zext s.y)
  | .acc | .imm _ | .zp _ | .zpx _ | .zpy _ | .abs _ | .indx _ => 0

/-- The taken-branch penalty (R347). -/
def branchPenalty (s : State) : Nat × Bool × Byte → Nat
  | (i, want, offset) =>
    if flag s.p i = want then 1 + pageDiffers (relTarget s.pc offset) (s.pc + 2) else 0

/-- The penalties of an instruction about to execute in `s` (R347). -/
def penalties (i : Instr) (s : State) : Nat :=
  ((pagePenaltyOperand i).map (pagePenalty s)).getD 0 + ((branchTest i).map (branchPenalty s)).getD 0

/-- `CYC(OP)` for the latched opcode (R345). -/
def baseCost (s : State) : Nat := s.params.cyc.getD s.op.toNat 0

/-- What the tick of an instruction adds to `cyc` (R345), `s` being the state between fetch and execution. An illegal
opcode adds nothing here: its tick faults, and R302's `nop` policy adds its own 2. -/
def tickCost (i : Instr) (s : State) : Nat :=
  match i with
  | .illegal _ => 0
  | .adc _ | .and _ | .asl _ | .bit _ | .cmp _ | .cpx _ | .cpy _ | .dec _ | .eor _ | .inc _
  | .lda _ | .ldx _ | .ldy _ | .lsr _ | .ora _ | .rol _ | .ror _ | .sbc _ | .sta _ | .stx _ | .sty _
  | .bcc _ | .bcs _ | .beq _ | .bmi _ | .bne _ | .bpl _ | .bvc _ | .bvs _
  | .brk | .clc | .cld | .cli | .clv | .dex | .dey | .inx | .iny | .jmp _ | .jsr _ | .nop
  | .pha | .php | .pla | .plp | .rti | .rts | .sec | .sed | .sei
  | .tax | .tay | .tsx | .txa | .txs | .tya =>
    baseCost s + if s.params.cyclePenalties then penalties i s else 0

end Sys2Proof.Machine
end

