-- ==== Sys2Proof/Machine/Arithmetic.lean ====
section
/-! DEFINITION. Arithmetic and compare instructions ADC, SBC, CMP, CPX, CPY (spec/42_arithmetic.md). -/

namespace Sys2Proof.Machine

/-- `AddCore(m)` (R200): binary whatever `D` holds. -/
def State.addCore (s : State) (m : Byte) : State :=
  (s.setA (addResult s.a m s.p)).setP (addFlags s.a m s.p)

/-- ADC (R201). -/
def Sem.adc (m : Operand) : Exec Unit := withOperand m fun v s => s.addCore v

/-- The outcome of ADC. -/
def execAdc (m : Operand) (s : State) : Host.Outcome State Fault Refusal := outcome (Sem.adc m) s

/-- SBC (R202): addition of the one's complement. -/
def Sem.sbc (m : Operand) : Exec Unit := withOperand m fun v s => s.addCore (v ^^^ 0xFF)

/-- The outcome of SBC. -/
def execSbc (m : Operand) (s : State) : Host.Outcome State Fault Refusal := outcome (Sem.sbc m) s

/-- CMP (R204). -/
def Sem.cmp (m : Operand) : Exec Unit := withOperand m fun v s => s.setP (compareFlags s.a v s.p)

/-- The outcome of CMP. -/
def execCmp (m : Operand) (s : State) : Host.Outcome State Fault Refusal := outcome (Sem.cmp m) s

/-- CPX (R205). -/
def Sem.cpx (m : Operand) : Exec Unit := withOperand m fun v s => s.setP (compareFlags s.x v s.p)

/-- The outcome of CPX. -/
def execCpx (m : Operand) (s : State) : Host.Outcome State Fault Refusal := outcome (Sem.cpx m) s

/-- CPY (R206). -/
def Sem.cpy (m : Operand) : Exec Unit := withOperand m fun v s => s.setP (compareFlags s.y v s.p)

/-- The outcome of CPY. -/
def execCpy (m : Operand) (s : State) : Host.Outcome State Fault Refusal := outcome (Sem.cpy m) s

end Sys2Proof.Machine
end

