-- ==== Sys2Proof/Machine/Branches.lean ====
section
/-! DEFINITION. Conditional branches (spec/45_branches_flags_nop.md). -/

namespace Sys2Proof.Machine

/-- BPL (R251). -/
def Sem.bpl (offset : Byte) : Exec Unit := branch bitN false offset

/-- The outcome of BPL. -/
def execBpl (offset : Byte) (s : State) : Host.Outcome State Fault Refusal := outcome (Sem.bpl offset) s

/-- BMI (R252). -/
def Sem.bmi (offset : Byte) : Exec Unit := branch bitN true offset

/-- The outcome of BMI. -/
def execBmi (offset : Byte) (s : State) : Host.Outcome State Fault Refusal := outcome (Sem.bmi offset) s

/-- BVC (R253). -/
def Sem.bvc (offset : Byte) : Exec Unit := branch bitV false offset

/-- The outcome of BVC. -/
def execBvc (offset : Byte) (s : State) : Host.Outcome State Fault Refusal := outcome (Sem.bvc offset) s

/-- BVS (R254). -/
def Sem.bvs (offset : Byte) : Exec Unit := branch bitV true offset

/-- The outcome of BVS. -/
def execBvs (offset : Byte) (s : State) : Host.Outcome State Fault Refusal := outcome (Sem.bvs offset) s

/-- BCC (R255). -/
def Sem.bcc (offset : Byte) : Exec Unit := branch bitC false offset

/-- The outcome of BCC. -/
def execBcc (offset : Byte) (s : State) : Host.Outcome State Fault Refusal := outcome (Sem.bcc offset) s

/-- BCS (R256). -/
def Sem.bcs (offset : Byte) : Exec Unit := branch bitC true offset

/-- The outcome of BCS. -/
def execBcs (offset : Byte) (s : State) : Host.Outcome State Fault Refusal := outcome (Sem.bcs offset) s

/-- BNE (R257). -/
def Sem.bne (offset : Byte) : Exec Unit := branch bitZ false offset

/-- The outcome of BNE. -/
def execBne (offset : Byte) (s : State) : Host.Outcome State Fault Refusal := outcome (Sem.bne offset) s

/-- BEQ (R258). -/
def Sem.beq (offset : Byte) : Exec Unit := branch bitZ true offset

/-- The outcome of BEQ. -/
def execBeq (offset : Byte) (s : State) : Host.Outcome State Fault Refusal := outcome (Sem.beq offset) s

end Sys2Proof.Machine
end

