-- ==== Sys2Proof/Machine/FlagOps.lean ====
section
/-! DEFINITION. Flag set and clear, and NOP (spec/45_branches_flags_nop.md). -/

namespace Sys2Proof.Machine

/-- CLC (R260). -/
def Sem.clc : Exec Unit := implied fun s => s.putFlag bitC false

/-- The outcome of CLC. -/
def execClc (s : State) : Host.Outcome State Fault Refusal := outcome Sem.clc s

/-- SEC (R261). -/
def Sem.sec : Exec Unit := implied fun s => s.putFlag bitC true

/-- The outcome of SEC. -/
def execSec (s : State) : Host.Outcome State Fault Refusal := outcome Sem.sec s

/-- CLI (R262). -/
def Sem.cli : Exec Unit := implied fun s => s.putFlag bitI false

/-- The outcome of CLI. -/
def execCli (s : State) : Host.Outcome State Fault Refusal := outcome Sem.cli s

/-- SEI (R263). -/
def Sem.sei : Exec Unit := implied fun s => s.putFlag bitI true

/-- The outcome of SEI. -/
def execSei (s : State) : Host.Outcome State Fault Refusal := outcome Sem.sei s

/-- CLV (R264). -/
def Sem.clv : Exec Unit := implied fun s => s.putFlag bitV false

/-- The outcome of CLV. -/
def execClv (s : State) : Host.Outcome State Fault Refusal := outcome Sem.clv s

/-- CLD (R265). -/
def Sem.cld : Exec Unit := implied fun s => s.putFlag bitD false

/-- The outcome of CLD. -/
def execCld (s : State) : Host.Outcome State Fault Refusal := outcome Sem.cld s

/-- SED (R266). -/
def Sem.sed : Exec Unit := implied fun s => s.putFlag bitD true

/-- The outcome of SED. -/
def execSed (s : State) : Host.Outcome State Fault Refusal := outcome Sem.sed s

/-- NOP (R267): the implied resolver alone. -/
def Sem.nop : Exec Unit := advance 1

/-- The outcome of NOP. -/
def execNop (s : State) : Host.Outcome State Fault Refusal := outcome Sem.nop s

end Sys2Proof.Machine
end

