-- ==== Sys2Proof/Machine/IncDec.lean ====
section
/-! DEFINITION. Increment and decrement INC, DEC, INX, INY, DEX, DEY (spec/44_incdec_load_store_transfer.md). -/

namespace Sys2Proof.Machine

/-- INC (R220): no flag before the write. -/
def Sem.inc (m : Operand) : Exec Unit := readModifyWrite m (fun _ v => v + 1) fun _ s => s

/-- The outcome of INC. -/
def execInc (m : Operand) (s : State) : Host.Outcome State Fault Refusal := outcome (Sem.inc m) s

/-- DEC (R221): no flag before the write. -/
def Sem.dec (m : Operand) : Exec Unit := readModifyWrite m (fun _ v => v - 1) fun _ s => s

/-- The outcome of DEC. -/
def execDec (m : Operand) (s : State) : Host.Outcome State Fault Refusal := outcome (Sem.dec m) s

/-- INX (R222). -/
def Sem.inx : Exec Unit := implied fun s => s.loadX (s.x + 1)

/-- The outcome of INX. -/
def execInx (s : State) : Host.Outcome State Fault Refusal := outcome Sem.inx s

/-- INY (R223). -/
def Sem.iny : Exec Unit := implied fun s => s.loadY (s.y + 1)

/-- The outcome of INY. -/
def execIny (s : State) : Host.Outcome State Fault Refusal := outcome Sem.iny s

/-- DEX (R224). -/
def Sem.dex : Exec Unit := implied fun s => s.loadX (s.x - 1)

/-- The outcome of DEX. -/
def execDex (s : State) : Host.Outcome State Fault Refusal := outcome Sem.dex s

/-- DEY (R225). -/
def Sem.dey : Exec Unit := implied fun s => s.loadY (s.y - 1)

/-- The outcome of DEY. -/
def execDey (s : State) : Host.Outcome State Fault Refusal := outcome Sem.dey s

end Sys2Proof.Machine
end

