-- ==== Sys2Proof/Machine/Jumps.lean ====
section
/-! DEFINITION. Jumps and subroutines JMP, JSR, RTS (spec/46_stack_jumps_subroutines.md). -/

namespace Sys2Proof.Machine

/-- JMP (R286). -/
def Sem.jmp (target : JumpTarget) : Exec Unit := do
  let a ← resolveJump target
  jumpTo a

/-- The outcome of JMP. -/
def execJmp (target : JumpTarget) (s : State) : Host.Outcome State Fault Refusal := outcome (Sem.jmp target) s

/-- JSR (R288): pushes the address of its last byte. -/
def Sem.jsr (target : Word) : Exec Unit := do
  advance 3
  let s ← get
  pushWord (s.pc - 1)
  jumpTo target

/-- The outcome of JSR. -/
def execJsr (target : Word) (s : State) : Host.Outcome State Fault Refusal := outcome (Sem.jsr target) s

/-- RTS (R289). -/
def Sem.rts : Exec Unit := do
  advance 1
  let a ← pullWord
  jumpTo (a + 1)

/-- The outcome of RTS. -/
def execRts (s : State) : Host.Outcome State Fault Refusal := outcome Sem.rts s

end Sys2Proof.Machine
end

