-- ==== Sys2Proof/Machine/LoadStore.lean ====
section
/-! DEFINITION. Loads and stores LDA, LDX, LDY, STA, STX, STY (spec/44_incdec_load_store_transfer.md). -/

namespace Sys2Proof.Machine

/-- LDA (R226). -/
def Sem.lda (m : Operand) : Exec Unit := withOperand m fun v s => s.loadA v

/-- The outcome of LDA. -/
def execLda (m : Operand) (s : State) : Host.Outcome State Fault Refusal := outcome (Sem.lda m) s

/-- LDX (R227). -/
def Sem.ldx (m : Operand) : Exec Unit := withOperand m fun v s => s.loadX v

/-- The outcome of LDX. -/
def execLdx (m : Operand) (s : State) : Host.Outcome State Fault Refusal := outcome (Sem.ldx m) s

/-- LDY (R228). -/
def Sem.ldy (m : Operand) : Exec Unit := withOperand m fun v s => s.loadY v

/-- The outcome of LDY. -/
def execLdy (m : Operand) (s : State) : Host.Outcome State Fault Refusal := outcome (Sem.ldy m) s

/-- STA (R229). -/
def Sem.sta (m : Operand) : Exec Unit := storeOperand m fun s => s.a

/-- The outcome of STA. -/
def execSta (m : Operand) (s : State) : Host.Outcome State Fault Refusal := outcome (Sem.sta m) s

/-- STX (R230). -/
def Sem.stx (m : Operand) : Exec Unit := storeOperand m fun s => s.x

/-- The outcome of STX. -/
def execStx (m : Operand) (s : State) : Host.Outcome State Fault Refusal := outcome (Sem.stx m) s

/-- STY (R231). -/
def Sem.sty (m : Operand) : Exec Unit := storeOperand m fun s => s.y

/-- The outcome of STY. -/
def execSty (m : Operand) (s : State) : Host.Outcome State Fault Refusal := outcome (Sem.sty m) s

end Sys2Proof.Machine
end

