-- ==== Sys2Proof/Machine/Logical.lean ====
section
/-! DEFINITION. Logical instructions ORA, AND, EOR, BIT (spec/41_logical.md). -/

namespace Sys2Proof.Machine

/-- ORA (R190). -/
def Sem.ora (m : Operand) : Exec Unit := withOperand m fun v s => s.loadA (s.a ||| v)

/-- The outcome of ORA. -/
def execOra (m : Operand) (s : State) : Host.Outcome State Fault Refusal := outcome (Sem.ora m) s

/-- AND (R191). -/
def Sem.and (m : Operand) : Exec Unit := withOperand m fun v s => s.loadA (s.a &&& v)

/-- The outcome of AND. -/
def execAnd (m : Operand) (s : State) : Host.Outcome State Fault Refusal := outcome (Sem.and m) s

/-- EOR (R192). -/
def Sem.eor (m : Operand) : Exec Unit := withOperand m fun v s => s.loadA (s.a ^^^ v)

/-- The outcome of EOR. -/
def execEor (m : Operand) (s : State) : Host.Outcome State Fault Refusal := outcome (Sem.eor m) s

/-- BIT (R193). -/
def Sem.bit (m : Operand) : Exec Unit := withOperand m fun v s => s.setP (bitFlags s.a v s.p)

/-- The outcome of BIT. -/
def execBit (m : Operand) (s : State) : Host.Outcome State Fault Refusal := outcome (Sem.bit m) s

end Sys2Proof.Machine
end

