-- ==== Sys2Proof/Machine/Shifts.lean ====
section
/-! DEFINITION. Shift and rotate instructions ASL, LSR, ROL, ROR (spec/43_shifts.md). -/

namespace Sys2Proof.Machine

/-- ASL (R210). -/
def Sem.asl (m : Operand) : Exec Unit := readModifyWrite m (fun _ v => aslResult v) fun v s => s.putFlag bitC (v.getLsbD 7)

/-- The outcome of ASL. -/
def execAsl (m : Operand) (s : State) : Host.Outcome State Fault Refusal := outcome (Sem.asl m) s

/-- LSR (R211). -/
def Sem.lsr (m : Operand) : Exec Unit := readModifyWrite m (fun _ v => lsrResult v) fun v s => s.putFlag bitC (v.getLsbD 0)

/-- The outcome of LSR. -/
def execLsr (m : Operand) (s : State) : Host.Outcome State Fault Refusal := outcome (Sem.lsr m) s

/-- ROL (R212). -/
def Sem.rol (m : Operand) : Exec Unit := readModifyWrite m (fun p v => rolResult (flag p bitC) v) fun v s => s.putFlag bitC (v.getLsbD 7)

/-- The outcome of ROL. -/
def execRol (m : Operand) (s : State) : Host.Outcome State Fault Refusal := outcome (Sem.rol m) s

/-- ROR (R213). -/
def Sem.ror (m : Operand) : Exec Unit := readModifyWrite m (fun p v => rorResult (flag p bitC) v) fun v s => s.putFlag bitC (v.getLsbD 0)

/-- The outcome of ROR. -/
def execRor (m : Operand) (s : State) : Host.Outcome State Fault Refusal := outcome (Sem.ror m) s

end Sys2Proof.Machine
end

