-- ==== Sys2Proof/Machine/Stack.lean ====
section
/-! DEFINITION. Push and pull instructions PHA, PLA, PHP, PLP (spec/46_stack_jumps_subroutines.md). -/

namespace Sys2Proof.Machine

/-- PHA (R282). -/
def Sem.pha : Exec Unit := do
  advance 1
  let s ← get
  push s.a

/-- The outcome of PHA. -/
def execPha (s : State) : Host.Outcome State Fault Refusal := outcome Sem.pha s

/-- PLA (R283). -/
def Sem.pla : Exec Unit := do
  advance 1
  let v ← pull
  modify fun s => s.loadA v

/-- The outcome of PLA. -/
def execPla (s : State) : Host.Outcome State Fault Refusal := outcome Sem.pla s

/-- PHP (R284). -/
def Sem.php : Exec Unit := do
  advance 1
  let s ← get
  push (packP s.p true)

/-- The outcome of PHP. -/
def execPhp (s : State) : Host.Outcome State Fault Refusal := outcome Sem.php s

/-- PLP (R285). -/
def Sem.plp : Exec Unit := do
  advance 1
  let v ← pull
  modify fun s => s.setP (unpackP v)

/-- The outcome of PLP. -/
def execPlp (s : State) : Host.Outcome State Fault Refusal := outcome Sem.plp s

end Sys2Proof.Machine
end

