-- ==== Sys2Proof/Machine/Transfers.lean ====
section
/-! DEFINITION. Register transfers TAX, TAY, TXA, TYA, TSX, TXS (spec/44_incdec_load_store_transfer.md). -/

namespace Sys2Proof.Machine

/-- TAX (R232). -/
def Sem.tax : Exec Unit := implied fun s => s.loadX s.a

/-- The outcome of TAX. -/
def execTax (s : State) : Host.Outcome State Fault Refusal := outcome Sem.tax s

/-- TAY (R233). -/
def Sem.tay : Exec Unit := implied fun s => s.loadY s.a

/-- The outcome of TAY. -/
def execTay (s : State) : Host.Outcome State Fault Refusal := outcome Sem.tay s

/-- TXA (R234). -/
def Sem.txa : Exec Unit := implied fun s => s.loadA s.x

/-- The outcome of TXA. -/
def execTxa (s : State) : Host.Outcome State Fault Refusal := outcome Sem.txa s

/-- TYA (R235). -/
def Sem.tya : Exec Unit := implied fun s => s.loadA s.y

/-- The outcome of TYA. -/
def execTya (s : State) : Host.Outcome State Fault Refusal := outcome Sem.tya s

/-- TSX (R236). -/
def Sem.tsx : Exec Unit := implied fun s => s.loadX s.sp

/-- The outcome of TSX. -/
def execTsx (s : State) : Host.Outcome State Fault Refusal := outcome Sem.tsx s

/-- TXS (R237): writes no flag. -/
def Sem.txs : Exec Unit := implied fun s => s.setSp s.x

/-- The outcome of TXS. -/
def execTxs (s : State) : Host.Outcome State Fault Refusal := outcome Sem.txs s

end Sys2Proof.Machine
end

