-- ==== Sys2Proof/Machine/Traps.lean ====
section
/-! DEFINITION. The software trap BRK, its return RTI, and the illegal opcodes (spec/46_stack_jumps_subroutines.md R292, R290, spec/60_exceptions.md R301, R302). -/

namespace Sys2Proof.Machine

/-- BRK (R292): pushes the opcode address plus 2. -/
def Sem.brk : Exec Unit := do
  advance 1
  let s ← get
  enterTrap brkVector (s.pc + 1) true

/-- The outcome of BRK. -/
def execBrk (s : State) : Host.Outcome State Fault Refusal := outcome Sem.brk s

/-- RTI (R290). -/
def Sem.rti : Exec Unit := do
  advance 1
  returnFromTrap

/-- The outcome of RTI. -/
def execRti (s : State) : Host.Outcome State Fault Refusal := outcome Sem.rti s

/-- One of the 105 bytes with no handler (R301): under `halt` the tick reports `UnimplementedOpcode` and changes
nothing; under `skip` and `nop` the report is recorded and the state is the one R302 lets the next tick start from
(log entry 3). -/
def Sem.illegal (opcode : Byte) : Exec Unit := fun s =>
  let f := Fault.unimplementedOpcode opcode s.pc
  match s.params.illegalOpcodePolicy with
  | .halt => .error f s
  | .skip => .ok () ((s.setReport (some f)).setPc (s.pc + 1))
  | .nop => .ok () (((((s.setReport (some f)).setPrevPC s.pc).setOp opcode).setPc (s.pc + 1)).setCyc (s.cyc + 2))

/-- The outcome of ILLEGAL. -/
def execIllegal (opcode : Byte) (s : State) : Host.Outcome State Fault Refusal := outcome (Sem.illegal opcode) s

end Sys2Proof.Machine
end

