-- ==== Sys2Proof/WellFormed.lean ====
section
/-! DEFINITION. Which operand forms each instruction has (the columns of spec/30_encoding.md R157) and which bytes are illegal (R154). -/

namespace Sys2Proof

/-- The columns of R157 that hold an `Operand`. -/
inductive Form where
  | acc | imm | zp | zpx | zpy | abs | absx | absy | indx | indy
deriving DecidableEq, Repr

/-- The column an operand stands in. -/
def Operand.form : Operand → Form
  | .acc => .acc
  | .imm _ => .imm
  | .zp _ => .zp
  | .zpx _ => .zpx
  | .zpy _ => .zpy
  | .abs _ => .abs
  | .absx _ => .absx
  | .absy _ => .absy
  | .indx _ => .indx
  | .indy _ => .indy

/-- ORA, AND, EOR, ADC, SBC, CMP, LDA (R190, R201, R204, R226). -/
def accumulatorForms : List Form := [.imm, .zp, .zpx, .abs, .absx, .absy, .indx, .indy]

/-- ASL, LSR, ROL, ROR (R214). -/
def shiftForms : List Form := [.acc, .zp, .zpx, .abs, .absx]

/-- INC, DEC (R220). -/
def stepForms : List Form := [.zp, .zpx, .abs, .absx]

/-- The operand forms R157 gives an instruction; none for an instruction that takes no `Operand`. -/
def Instr.forms : Instr → List Form
  | .adc _ | .and _ | .cmp _ | .eor _ | .lda _ | .ora _ | .sbc _ => accumulatorForms
  | .asl _ | .lsr _ | .rol _ | .ror _ => shiftForms
  | .inc _ | .dec _ => stepForms
  | .bit _ => [.zp, .abs]
  | .cpx _ | .cpy _ => [.imm, .zp, .abs]
  | .ldx _ => [.imm, .zp, .zpy, .abs, .absy]
  | .ldy _ => [.imm, .zp, .zpx, .abs, .absx]
  | .sta _ => [.zp, .zpx, .abs, .absx, .absy, .indx, .indy]
  | .stx _ => [.zp, .zpy, .abs]
  | .sty _ => [.zp, .zpx, .abs]
  | .bcc _ | .bcs _ | .beq _ | .bmi _ | .bne _ | .bpl _ | .bvc _ | .bvs _
  | .brk | .clc | .cld | .cli | .clv | .dex | .dey | .inx | .iny | .jmp _ | .jsr _ | .nop
  | .pha | .php | .pla | .plp | .rti | .rts | .sec | .sed | .sei
  | .tax | .tay | .tsx | .txa | .txs | .tya | .illegal _ => []

/-- The `Operand` an instruction carries, if it carries one. -/
def Instr.operand? : Instr → Option Operand
  | .adc m | .and m | .asl m | .bit m | .cmp m | .cpx m | .cpy m | .dec m | .eor m | .inc m
  | .lda m | .ldx m | .ldy m | .lsr m | .ora m | .rol m | .ror m | .sbc m | .sta m | .stx m | .sty m => some m
  | .bcc _ | .bcs _ | .beq _ | .bmi _ | .bne _ | .bpl _ | .bvc _ | .bvs _
  | .brk | .clc | .cld | .cli | .clv | .dex | .dey | .inx | .iny | .jmp _ | .jsr _ | .nop
  | .pha | .php | .pla | .plp | .rti | .rts | .sec | .sed | .sei
  | .tax | .tay | .tsx | .txa | .txs | .tya | .illegal _ => none

/-- The 105 bytes of R154, one row of the opcode map a line. -/
def illegalOpcodes : List Nat :=
  [0x02, 0x03, 0x04, 0x07, 0x0B, 0x0C, 0x0F] ++
  [0x12, 0x13, 0x14, 0x17, 0x1A, 0x1B, 0x1C, 0x1F] ++
  [0x22, 0x23, 0x27, 0x2B, 0x2F] ++
  [0x32, 0x33, 0x34, 0x37, 0x3A, 0x3B, 0x3C, 0x3F] ++
  [0x42, 0x43, 0x44, 0x47, 0x4B, 0x4F] ++
  [0x52, 0x53, 0x54, 0x57, 0x5A, 0x5B, 0x5C, 0x5F] ++
  [0x62, 0x63, 0x64, 0x67, 0x6B, 0x6F] ++
  [0x72, 0x73, 0x74, 0x77, 0x7A, 0x7B, 0x7C, 0x7F] ++
  [0x80, 0x82, 0x83, 0x87, 0x89, 0x8B, 0x8F] ++
  [0x92, 0x93, 0x97, 0x9B, 0x9C, 0x9E, 0x9F] ++
  [0xA3, 0xA7, 0xAB, 0xAF] ++
  [0xB2, 0xB3, 0xB7, 0xBB, 0xBF] ++
  [0xC2, 0xC3, 0xC7, 0xCB, 0xCF] ++
  [0xD2, 0xD3, 0xD4, 0xD7, 0xDA, 0xDB, 0xDC, 0xDF] ++
  [0xE2, 0xE3, 0xE7, 0xEB, 0xEF] ++
  [0xF2, 0xF3, 0xF4, 0xF7, 0xFA, 0xFB, 0xFC, 0xFF]

/-- The operand form is one R157 gives the instruction. -/
def Instr.formOk (i : Instr) : Bool :=
  match i.operand? with
  | some m => i.forms.contains m.form
  | none => true

/-- An `illegal` carries one of the 105 bytes of R154. -/
def Instr.opcodeOk : Instr → Bool
  | .illegal op => illegalOpcodes.contains op.toNat
  | .adc _ | .and _ | .asl _ | .bit _ | .cmp _ | .cpx _ | .cpy _ | .dec _ | .eor _ | .inc _
  | .lda _ | .ldx _ | .ldy _ | .lsr _ | .ora _ | .rol _ | .ror _ | .sbc _ | .sta _ | .stx _ | .sty _
  | .bcc _ | .bcs _ | .beq _ | .bmi _ | .bne _ | .bpl _ | .bvc _ | .bvs _
  | .brk | .clc | .cld | .cli | .clv | .dex | .dey | .inx | .iny | .jmp _ | .jsr _ | .nop
  | .pha | .php | .pla | .plp | .rti | .rts | .sec | .sed | .sei
  | .tax | .tay | .tsx | .txa | .txs | .tya => true

/-- An instruction the opcode map of R153 contains. -/
def WellFormed (i : Instr) : Bool := i.formOk && i.opcodeOk

end Sys2Proof
end

