-- ==== Sys2Proof/Decode.lean ====
section
/-! DEFINITION. From instruction bytes to syntax and back: the opcode map, the decoder and the encoder (spec/30_encoding.md). -/

namespace Sys2Proof

open Sys2Proof.Machine (join hiByte loByte)

/-- A cell of the opcode map R153: the instruction and how its operand bytes are read (R151, R155). -/
inductive Entry where
  | ill
  | imp (i : Instr)
  | acc (mk : Operand → Instr)
  | imm (mk : Operand → Instr)
  | zp (mk : Operand → Instr)
  | zpx (mk : Operand → Instr)
  | zpy (mk : Operand → Instr)
  | abs (mk : Operand → Instr)
  | absx (mk : Operand → Instr)
  | absy (mk : Operand → Instr)
  | indx (mk : Operand → Instr)
  | indy (mk : Operand → Instr)
  | rel (mk : Byte → Instr)
  /-- A 16-bit operand that is a jump target or a jump pointer (JMP, JSR). -/
  | word (mk : Word → Instr)

/-- How many operand bytes follow the opcode (formats F1, F2, F3 of R151); 0 for an illegal byte, whose length the spec
leaves undefined (DESIGN CHOICE, log entry 19). -/
def Entry.operandBytes : Entry → Nat
  | .ill | .imp _ | .acc _ => 0
  | .imm _ | .zp _ | .zpx _ | .zpy _ | .indx _ | .indy _ | .rel _ => 1
  | .abs _ | .absx _ | .absy _ | .word _ => 2

/-- The instruction of a cell, from the opcode byte and the operand bytes `b1`, `b2` (R155). -/
def Entry.build (op b1 b2 : Byte) : Entry → Instr
  | .ill => .illegal op
  | .imp i => i
  | .acc mk => mk .acc
  | .imm mk => mk (.imm b1)
  | .zp mk => mk (.zp b1)
  | .zpx mk => mk (.zpx b1)
  | .zpy mk => mk (.zpy b1)
  | .abs mk => mk (.abs (join b2 b1))
  | .absx mk => mk (.absx (join b2 b1))
  | .absy mk => mk (.absy (join b2 b1))
  | .indx mk => mk (.indx b1)
  | .indy mk => mk (.indy b1)
  | .rel mk => mk b1
  | .word mk => mk (join b2 b1)

/-! The opcode map R153, one definition a row of it. -/

/-- Opcodes 0x00 to 0x0F. -/
def opcodeRow0 : List Entry :=
  [.imp .brk, .indx .ora, .ill, .ill,
   .ill, .zp .ora, .zp .asl, .ill,
   .imp .php, .imm .ora, .acc .asl, .ill,
   .ill, .abs .ora, .abs .asl, .ill]

/-- Opcodes 0x10 to 0x1F. -/
def opcodeRow1 : List Entry :=
  [.rel .bpl, .indy .ora, .ill, .ill,
   .ill, .zpx .ora, .zpx .asl, .ill,
   .imp .clc, .absy .ora, .ill, .ill,
   .ill, .absx .ora, .absx .asl, .ill]

/-- Opcodes 0x20 to 0x2F. -/
def opcodeRow2 : List Entry :=
  [.word .jsr, .indx .and, .ill, .ill,
   .zp .bit, .zp .and, .zp .rol, .ill,
   .imp .plp, .imm .and, .acc .rol, .ill,
   .abs .bit, .abs .and, .abs .rol, .ill]

/-- Opcodes 0x30 to 0x3F. -/
def opcodeRow3 : List Entry :=
  [.rel .bmi, .indy .and, .ill, .ill,
   .ill, .zpx .and, .zpx .rol, .ill,
   .imp .sec, .absy .and, .ill, .ill,
   .ill, .absx .and, .absx .rol, .ill]

/-- Opcodes 0x40 to 0x4F. -/
def opcodeRow4 : List Entry :=
  [.imp .rti, .indx .eor, .ill, .ill,
   .ill, .zp .eor, .zp .lsr, .ill,
   .imp .pha, .imm .eor, .acc .lsr, .ill,
   .word (fun a => .jmp (.abs a)), .abs .eor, .abs .lsr, .ill]

/-- Opcodes 0x50 to 0x5F. -/
def opcodeRow5 : List Entry :=
  [.rel .bvc, .indy .eor, .ill, .ill,
   .ill, .zpx .eor, .zpx .lsr, .ill,
   .imp .cli, .absy .eor, .ill, .ill,
   .ill, .absx .eor, .absx .lsr, .ill]

/-- Opcodes 0x60 to 0x6F. -/
def opcodeRow6 : List Entry :=
  [.imp .rts, .indx .adc, .ill, .ill,
   .ill, .zp .adc, .zp .ror, .ill,
   .imp .pla, .imm .adc, .acc .ror, .ill,
   .word (fun a => .jmp (.ind a)), .abs .adc, .abs .ror, .ill]

/-- Opcodes 0x70 to 0x7F. -/
def opcodeRow7 : List Entry :=
  [.rel .bvs, .indy .adc, .ill, .ill,
   .ill, .zpx .adc, .zpx .ror, .ill,
   .imp .sei, .absy .adc, .ill, .ill,
   .ill, .absx .adc, .absx .ror, .ill]

/-- Opcodes 0x80 to 0x8F. -/
def opcodeRow8 : List Entry :=
  [.ill, .indx .sta, .ill, .ill,
   .zp .sty, .zp .sta, .zp .stx, .ill,
   .imp .dey, .ill, .imp .txa, .ill,
   .abs .sty, .abs .sta, .abs .stx, .ill]

/-- Opcodes 0x90 to 0x9F. -/
def opcodeRow9 : List Entry :=
  [.rel .bcc, .indy .sta, .ill, .ill,
   .zpx .sty, .zpx .sta, .zpy .stx, .ill,
   .imp .tya, .absy .sta, .imp .txs, .ill,
   .ill, .absx .sta, .ill, .ill]

/-- Opcodes 0xA0 to 0xAF. -/
def opcodeRowA : List Entry :=
  [.imm .ldy, .indx .lda, .imm .ldx, .ill,
   .zp .ldy, .zp .lda, .zp .ldx, .ill,
   .imp .tay, .imm .lda, .imp .tax, .ill,
   .abs .ldy, .abs .lda, .abs .ldx, .ill]

/-- Opcodes 0xB0 to 0xBF. -/
def opcodeRowB : List Entry :=
  [.rel .bcs, .indy .lda, .ill, .ill,
   .zpx .ldy, .zpx .lda, .zpy .ldx, .ill,
   .imp .clv, .absy .lda, .imp .tsx, .ill,
   .absx .ldy, .absx .lda, .absy .ldx, .ill]

/-- Opcodes 0xC0 to 0xCF. -/
def opcodeRowC : List Entry :=
  [.imm .cpy, .indx .cmp, .ill, .ill,
   .zp .cpy, .zp .cmp, .zp .dec, .ill,
   .imp .iny, .imm .cmp, .imp .dex, .ill,
   .abs .cpy, .abs .cmp, .abs .dec, .ill]

/-- Opcodes 0xD0 to 0xDF. -/
def opcodeRowD : List Entry :=
  [.rel .bne, .indy .cmp, .ill, .ill,
   .ill, .zpx .cmp, .zpx .dec, .ill,
   .imp .cld, .absy .cmp, .ill, .ill,
   .ill, .absx .cmp, .absx .dec, .ill]

/-- Opcodes 0xE0 to 0xEF. -/
def opcodeRowE : List Entry :=
  [.imm .cpx, .indx .sbc, .ill, .ill,
   .zp .cpx, .zp .sbc, .zp .inc, .ill,
   .imp .inx, .imm .sbc, .imp .nop, .ill,
   .abs .cpx, .abs .sbc, .abs .inc, .ill]

/-- Opcodes 0xF0 to 0xFF. -/
def opcodeRowF : List Entry :=
  [.rel .beq, .indy .sbc, .ill, .ill,
   .ill, .zpx .sbc, .zpx .inc, .ill,
   .imp .sed, .absy .sbc, .ill, .ill,
   .ill, .absx .sbc, .absx .inc, .ill]

/-- The opcode map R153, row after row. -/
def opcodeMap : List (List Entry) :=
  [opcodeRow0, opcodeRow1, opcodeRow2, opcodeRow3] ++ [opcodeRow4, opcodeRow5, opcodeRow6, opcodeRow7] ++
  [opcodeRow8, opcodeRow9, opcodeRowA, opcodeRowB] ++ [opcodeRowC, opcodeRowD, opcodeRowE, opcodeRowF]

/-- `Dispatch(op)` of R150: the cell at row `op[7:4]`, column `op[3:0]`. -/
def dispatch (op : Byte) : Entry :=
  (opcodeMap.getD (op.toNat / 16) []).getD (op.toNat % 16) .ill

/-- The cell is `-`: a byte with no handler (R154). -/
def Entry.isIllegal : Entry → Bool
  | .ill => true
  | .imp _ | .acc _ | .imm _ | .zp _ | .zpx _ | .zpy _ | .abs _ | .absx _ | .absy _ | .indx _ | .indy _
  | .rel _ | .word _ => false

/-- How many operand bytes the opcode byte calls for (R151; 0 for an illegal byte, log entry 19). -/
def operandCount (op : Byte) : Nat := (dispatch op).operandBytes

/-- The instruction an opcode byte and its operand bytes make. -/
def instrOf (op b1 b2 : Byte) : Instr := (dispatch op).build op b1 b2

/-- Why a byte string holds no instruction. -/
inductive DecodeError where
  /-- There is no opcode byte. -/
  | noOpcode
  /-- The opcode calls for more operand bytes than there are. -/
  | missingOperand
deriving DecidableEq, Repr

/-- The instruction at the head of a byte string, and the bytes after it. An illegal byte decodes to
`illegal`, whose meaning is the fault of spec/60_exceptions.md R301. That it is read as one byte with no operand is a
DESIGN CHOICE (log entry 19): the spec leaves the length of an illegal opcode undefined (R151, R154). -/
def decode : List Byte → Except DecodeError (Instr × List Byte)
  | [] => .error .noOpcode
  | op :: rest =>
    match operandCount op, rest with
    | 0, rest => .ok (instrOf op 0 0, rest)
    | 1, b1 :: rest => .ok (instrOf op b1 0, rest)
    | 2, b1 :: b2 :: rest => .ok (instrOf op b1 b2, rest)
    | _, _ => .error .missingOperand

/-- The first `n` bytes of a number, byte 0 the least significant (the table's numbering of bits). -/
def bytesOf (w : Nat) : Nat → List Byte
  | 0 => []
  | n + 1 => BitVec.ofNat 8 w :: bytesOf (w / 256) n

/-- The longest instruction has 3 bytes (R151). -/
def maxLength : Nat := 3

/-- The instruction whose bits, numbered as spec/opcode_table.json numbers them, are `w`. -/
def decodeTableWord (nbits w : Nat) : Option Instr :=
  match decode (bytesOf (w % 2 ^ nbits) maxLength) with
  | .ok (i, _) => some i
  | .error _ => none

/-! The encoder, from the other table of the spec: R157, by mnemonic. -/

/-- The opcode byte in a form's column of a row of R157. -/
def column (f : Form) : List (Form × Byte) → Option Byte
  | [] => none
  | (g, op) :: rest => if f = g then some op else column f rest

/-- The opcode byte R157 gives an instruction; none for a form the instruction does not have. -/
def opcodeOf : Instr → Option Byte
  | .adc m => column m.form [(.imm, 0x69), (.zp, 0x65), (.zpx, 0x75), (.abs, 0x6D), (.absx, 0x7D), (.absy, 0x79), (.indx, 0x61), (.indy, 0x71)]
  | .and m => column m.form [(.imm, 0x29), (.zp, 0x25), (.zpx, 0x35), (.abs, 0x2D), (.absx, 0x3D), (.absy, 0x39), (.indx, 0x21), (.indy, 0x31)]
  | .asl m => column m.form [(.acc, 0x0A), (.zp, 0x06), (.zpx, 0x16), (.abs, 0x0E), (.absx, 0x1E)]
  | .bcc _ => some 0x90
  | .bcs _ => some 0xB0
  | .beq _ => some 0xF0
  | .bit m => column m.form [(.zp, 0x24), (.abs, 0x2C)]
  | .bmi _ => some 0x30
  | .bne _ => some 0xD0
  | .bpl _ => some 0x10
  | .brk => some 0x00
  | .bvc _ => some 0x50
  | .bvs _ => some 0x70
  | .clc => some 0x18
  | .cld => some 0xD8
  | .cli => some 0x58
  | .clv => some 0xB8
  | .cmp m => column m.form [(.imm, 0xC9), (.zp, 0xC5), (.zpx, 0xD5), (.abs, 0xCD), (.absx, 0xDD), (.absy, 0xD9), (.indx, 0xC1), (.indy, 0xD1)]
  | .cpx m => column m.form [(.imm, 0xE0), (.zp, 0xE4), (.abs, 0xEC)]
  | .cpy m => column m.form [(.imm, 0xC0), (.zp, 0xC4), (.abs, 0xCC)]
  | .dec m => column m.form [(.zp, 0xC6), (.zpx, 0xD6), (.abs, 0xCE), (.absx, 0xDE)]
  | .dex => some 0xCA
  | .dey => some 0x88
  | .eor m => column m.form [(.imm, 0x49), (.zp, 0x45), (.zpx, 0x55), (.abs, 0x4D), (.absx, 0x5D), (.absy, 0x59), (.indx, 0x41), (.indy, 0x51)]
  | .inc m => column m.form [(.zp, 0xE6), (.zpx, 0xF6), (.abs, 0xEE), (.absx, 0xFE)]
  | .inx => some 0xE8
  | .iny => some 0xC8
  | .jmp (.abs _) => some 0x4C
  | .jmp (.ind _) => some 0x6C
  | .jsr _ => some 0x20
  | .lda m => column m.form [(.imm, 0xA9), (.zp, 0xA5), (.zpx, 0xB5), (.abs, 0xAD), (.absx, 0xBD), (.absy, 0xB9), (.indx, 0xA1), (.indy, 0xB1)]
  | .ldx m => column m.form [(.imm, 0xA2), (.zp, 0xA6), (.zpy, 0xB6), (.abs, 0xAE), (.absy, 0xBE)]
  | .ldy m => column m.form [(.imm, 0xA0), (.zp, 0xA4), (.zpx, 0xB4), (.abs, 0xAC), (.absx, 0xBC)]
  | .lsr m => column m.form [(.acc, 0x4A), (.zp, 0x46), (.zpx, 0x56), (.abs, 0x4E), (.absx, 0x5E)]
  | .nop => some 0xEA
  | .ora m => column m.form [(.imm, 0x09), (.zp, 0x05), (.zpx, 0x15), (.abs, 0x0D), (.absx, 0x1D), (.absy, 0x19), (.indx, 0x01), (.indy, 0x11)]
  | .pha => some 0x48
  | .php => some 0x08
  | .pla => some 0x68
  | .plp => some 0x28
  | .rol m => column m.form [(.acc, 0x2A), (.zp, 0x26), (.zpx, 0x36), (.abs, 0x2E), (.absx, 0x3E)]
  | .ror m => column m.form [(.acc, 0x6A), (.zp, 0x66), (.zpx, 0x76), (.abs, 0x6E), (.absx, 0x7E)]
  | .rti => some 0x40
  | .rts => some 0x60
  | .sbc m => column m.form [(.imm, 0xE9), (.zp, 0xE5), (.zpx, 0xF5), (.abs, 0xED), (.absx, 0xFD), (.absy, 0xF9), (.indx, 0xE1), (.indy, 0xF1)]
  | .sec => some 0x38
  | .sed => some 0xF8
  | .sei => some 0x78
  | .sta m => column m.form [(.zp, 0x85), (.zpx, 0x95), (.abs, 0x8D), (.absx, 0x9D), (.absy, 0x99), (.indx, 0x81), (.indy, 0x91)]
  | .stx m => column m.form [(.zp, 0x86), (.zpy, 0x96), (.abs, 0x8E)]
  | .sty m => column m.form [(.zp, 0x84), (.zpx, 0x94), (.abs, 0x8C)]
  | .tax => some 0xAA
  | .tay => some 0xA8
  | .tsx => some 0xBA
  | .txa => some 0x8A
  | .txs => some 0x9A
  | .tya => some 0x98
  | .illegal op => some op

/-- The operand bytes of an `Operand`, low byte first (R155). -/
def Operand.bytes : Operand → List Byte
  | .acc => []
  | .imm b | .zp b | .zpx b | .zpy b | .indx b | .indy b => [b]
  | .abs a | .absx a | .absy a => [loByte a, hiByte a]

/-- The operand bytes of an instruction; none for `illegal` (DESIGN CHOICE, log entry 19). -/
def operandBytesOf : Instr → List Byte
  | .adc m | .and m | .asl m | .bit m | .cmp m | .cpx m | .cpy m | .dec m | .eor m | .inc m
  | .lda m | .ldx m | .ldy m | .lsr m | .ora m | .rol m | .ror m | .sbc m | .sta m | .stx m | .sty m => m.bytes
  | .bcc d | .bcs d | .beq d | .bmi d | .bne d | .bpl d | .bvc d | .bvs d => [d]
  | .jmp (.abs a) | .jmp (.ind a) | .jsr a => [loByte a, hiByte a]
  | .brk | .clc | .cld | .cli | .clv | .dex | .dey | .inx | .iny | .nop
  | .pha | .php | .pla | .plp | .rti | .rts | .sec | .sed | .sei
  | .tax | .tay | .tsx | .txa | .txs | .tya | .illegal _ => []

/-- The bytes of an instruction, opcode first; no byte for an instruction R157 does not have. The one byte of `illegal` is
a DESIGN CHOICE (log entry 19), as in `decode`. -/
def encode (i : Instr) : List Byte :=
  match opcodeOf i with
  | some op => op :: operandBytesOf i
  | none => []

end Sys2Proof
end

