-- ==== Sys2Proof/Machine/Fetch.lean ====
section
/-! DEFINITION. The fetch of an instruction: the opcode byte, then its operand bytes (spec/30_encoding.md R150, R155, spec/20_memory.md R69). -/

namespace Sys2Proof.Machine

/-- `prevPC <- pc0`; `OP <- op` (R150, spec/10_state.md R27). -/
def State.latchOpcode (s : State) (pc0 : Word) (op : Byte) : State := (s.setPrevPC pc0).setOp op

/-- The operand bytes `b1`, `b2` of the instruction at `pc0`, as many as `n` says, 0 for one it does not have (R155). -/
def fetchOperands (pc0 : Word) : Nat → Exec (Byte × Byte)
  | 0 => pure (0, 0)
  | 1 => do
    let b1 ← memRead (pc0 + 1)
    pure (b1, 0)
  | _ => do
    let b1 ← memRead (pc0 + 1)
    let b2 ← memRead (pc0 + 2)
    pure (b1, b2)

/-- The instruction at `PC`. An illegal opcode byte is the only access of its tick and latches nothing (spec/60_exceptions.md
R301); `PC` stays at the opcode, for the resolver to advance. -/
def fetch : Exec Instr := do
  let s ← get
  let op ← memRead s.pc
  if (dispatch op).isIllegal then pure (.illegal op)
  else do
    modify fun s' => s'.latchOpcode s.pc op
    let b ← fetchOperands s.pc (operandCount op)
    pure (instrOf op b.1 b.2)

end Sys2Proof.Machine
end

