-- ==== Sys2Proof/Machine/Meaning.lean ====
section
/-! DEFINITION. The meanings as computations, which keep the state a fault leaves behind (spec/60_exceptions.md R303). -/

namespace Sys2Proof.Machine

/-- `Execute(ins, ea)` with its resolver (spec/30_encoding.md R150), as the computation whose outcome is `exec`. -/
def meaning (i : Instr) : Exec Unit :=
  match i with
  | .adc m => Sem.adc m
  | .and m => Sem.and m
  | .asl m => Sem.asl m
  | .bcc offset => Sem.bcc offset
  | .bcs offset => Sem.bcs offset
  | .beq offset => Sem.beq offset
  | .bit m => Sem.bit m
  | .bmi offset => Sem.bmi offset
  | .bne offset => Sem.bne offset
  | .bpl offset => Sem.bpl offset
  | .brk => Sem.brk
  | .bvc offset => Sem.bvc offset
  | .bvs offset => Sem.bvs offset
  | .clc => Sem.clc
  | .cld => Sem.cld
  | .cli => Sem.cli
  | .clv => Sem.clv
  | .cmp m => Sem.cmp m
  | .cpx m => Sem.cpx m
  | .cpy m => Sem.cpy m
  | .dec m => Sem.dec m
  | .dex => Sem.dex
  | .dey => Sem.dey
  | .eor m => Sem.eor m
  | .inc m => Sem.inc m
  | .inx => Sem.inx
  | .iny => Sem.iny
  | .jmp target => Sem.jmp target
  | .jsr target => Sem.jsr target
  | .lda m => Sem.lda m
  | .ldx m => Sem.ldx m
  | .ldy m => Sem.ldy m
  | .lsr m => Sem.lsr m
  | .nop => Sem.nop
  | .ora m => Sem.ora m
  | .pha => Sem.pha
  | .php => Sem.php
  | .pla => Sem.pla
  | .plp => Sem.plp
  | .rol m => Sem.rol m
  | .ror m => Sem.ror m
  | .rti => Sem.rti
  | .rts => Sem.rts
  | .sbc m => Sem.sbc m
  | .sec => Sem.sec
  | .sed => Sem.sed
  | .sei => Sem.sei
  | .sta m => Sem.sta m
  | .stx m => Sem.stx m
  | .sty m => Sem.sty m
  | .tax => Sem.tax
  | .tay => Sem.tay
  | .tsx => Sem.tsx
  | .txa => Sem.txa
  | .txs => Sem.txs
  | .tya => Sem.tya
  | .illegal opcode => Sem.illegal opcode

end Sys2Proof.Machine
end

