-- ==== Sys2Proof/Machine/Stopped.lean ====
section
/-! DEFINITION. The machine a fault has stopped, and the state a faulting computation leaves (spec/60_exceptions.md R302, R303). -/

namespace Sys2Proof.Machine

/-- Whether a recorded fault stops the machine until a reset: `UnimplementedOpcode` under `halt` (R302), and
`BusContractViolation` always (R303). -/
def Fault.stops (policy : IllegalPolicy) : Fault → Bool
  | .unimplementedOpcode _ _ => policy = .halt
  | .busContractViolation _ => true

/-- The fault the machine is stopped by, if it is stopped. -/
def State.stoppedBy (s : State) : Option Fault := s.report.filter (Fault.stops s.params.illegalOpcodePolicy)

/-- What a computation leaves that faults: the effects before the failing access, and the fault recorded, which stops the
machine (R301, R303; log entry 12). None for one that completes. -/
def leaves (x : Exec Unit) (s : State) : Option State :=
  match x s with
  | .error f t => some (t.setReport (some f))
  | .ok _ _ => none

end Sys2Proof.Machine
end

