-- ==== Sys2Proof/Machine/Tick.lean ====
section
/-! DEFINITION. One tick (spec/30_encoding.md R150), and the state a faulting tick leaves behind (spec/60_exceptions.md R301, R303). -/

namespace Sys2Proof.Machine

/-- `cyc <- cyc + CYC(op)` at the end of a tick that completes (R150, R345). -/
def charge (i : Instr) (s : State) : Host.Outcome State Fault Refusal → Host.Outcome State Fault Refusal
  | .next t => .next (t.setCyc (t.cyc + tickCost i s))
  | .fault f => .fault f
  | .refused r => .refused r

/-- `Tick()` of R150: fetch, execute, count. A stopped machine reports the fault that stopped it (R302, R303); it makes no
access (DEDUCED, log entry 20). -/
def tick (s : State) : Host.Outcome State Fault Refusal :=
  match s.stoppedBy with
  | some f => .fault f
  | none =>
    match fetch s with
    | .error f _ => .fault f
    | .ok i s1 => charge i s1 (exec i s1)

/-- The instruction the opcode byte starts has an immediate operand. -/
def takesImmediate (op : Byte) : Bool :=
  match dispatch op with
  | .imm _ => true
  | _ => false

/-- What a fetch that faulted leaves: the resolver of an immediate operand has moved `PC` before the operand byte is read
(spec/40_addressing_modes.md R174); every other resolver moves it after its last operand byte. -/
def State.afterFailedFetch (t : State) (pc0 : Word) (f : Fault) : State :=
  if f = .busContractViolation (pc0 + 1) ∧ takesImmediate t.op = true then t.setPc (pc0 + 2) else t

/-- What a faulting tick leaves: the effects before the failing access, and the fault in the host's report
(R301, R303; log entry 12). A stopped machine stays as it is (R302). None for a tick that completes. -/
def tickLeaves (s : State) : Option State :=
  match s.stoppedBy with
  | some _ => some s
  | none =>
    match fetch s with
    | .error f t => some ((t.afterFailedFetch s.pc f).setReport (some f))
    | .ok i s1 => leaves (meaning i) s1

end Sys2Proof.Machine
end

