-- ==== Sys2Proof/Machine/Step.lean ====
section
/-! DEFINITION. One step of the machine, and the state that is about to run a given instruction. -/

namespace Sys2Proof.Machine

/-- One step is one tick (spec/00_scope.md R4). -/
def step (s : State) : Host.Outcome State Fault Refusal := tick s

/-- `s` with the instruction whose table bits are `w` placed where `step` fetches next, and no recorded fault,
which could stop the machine (log entry 11). -/
def State.withFetchWord (s : State) (nbits w : Nat) : State :=
  (s.setReport none).placeInstruction (bytesOf (w % 2 ^ nbits) maxLength)

end Sys2Proof.Machine
end

