-- ==== Sys2Proof/Machine/HostOps.lean ====
section
/-! DEFINITION. The host's operations between ticks other than `tick` and `attach`: reset, the optional interrupt inputs, the debug ports (spec/70_reset_and_hazards.md R331, spec/60_exceptions.md R307, R316). -/

namespace Sys2Proof.Machine

/-- `SP` after reset (R331). -/
def resetSp : Byte := 0xFD

/-- `P` after reset (R331). -/
def resetP : Byte := 0x24

/-- `Reset()` of R331: two vector reads, then four assignments. R331 clears a recorded `UnimplementedOpcode`; that a recorded
`BusContractViolation` is cleared too is a DESIGN CHOICE (log entry 4). The machine is then no longer stopped (R302, R303). -/
def resetCpu : Exec Unit := do
  let target ← read16 resetVector (resetVector + 1)
  modify fun s => ((((s.setPc target).setSp resetSp).setP resetP).setCyc 0).setReport none

/-- The outcome of `reset` (R331, R332). -/
def hostReset (s : State) : Host.Outcome State Fault Refusal := outcome resetCpu s

/-- What a failed `reset` leaves: no register is changed (R332), and the machine is stopped (R303). -/
def resetLeaves (s : State) : Option State := leaves resetCpu s

/-- `InterruptEntry(vector)` (R307). -/
def interruptEntry (vector : Word) : Exec Unit := do
  let s ← get
  enterTrap vector s.pc false
  modify fun t => t.setCyc (t.cyc + 7)

/-- The machine takes interrupts: the inputs are present (R306; log entry 15), and it is not stopped, which only a reset
changes (R302, R303; log entry 20). -/
def State.takesInterrupts (s : State) : Bool := s.params.hwInterruptInputs && s.stoppedBy.isNone

/-- What `irq()` does (R307): nothing when `I = 1`, and nothing when the machine takes no interrupts. -/
def irqEntry : Exec Unit := fun s =>
  if s.takesInterrupts && !flag s.p bitI then interruptEntry brkVector s else .ok () s

/-- What `nmi()` does (R307): not maskable; nothing when the machine takes no interrupts. -/
def nmiEntry : Exec Unit := fun s => if s.takesInterrupts then interruptEntry nmiVector s else .ok () s

/-- The outcome of `irq()`. -/
def irq (s : State) : Host.Outcome State Fault Refusal := outcome irqEntry s

/-- The outcome of `nmi()`. -/
def nmi (s : State) : Host.Outcome State Fault Refusal := outcome nmiEntry s

/-- What an `irq()` leaves whose vector read fails (R303). -/
def irqLeaves (s : State) : Option State := leaves irqEntry s

/-- What an `nmi()` leaves whose vector read fails (R303). -/
def nmiLeaves (s : State) : Option State := leaves nmiEntry s

/-- What the debug and fault ports show (R5, R316). -/
structure DebugView where
  pc : Word
  sp : Byte
  a : Byte
  x : Byte
  y : Byte
  p : Byte
  op : Byte
  cyc : Nat
  prevPC : Word
  report : Option Fault
deriving DecidableEq, Repr

/-- The read-only accessors of R316: no bus access, no effect. -/
def debugPorts (s : State) : DebugView where
  pc := s.pc
  sp := s.sp
  a := s.a
  x := s.x
  y := s.y
  p := s.p
  op := s.op
  cyc := s.cyc
  prevPC := s.prevPC
  report := s.report

end Sys2Proof.Machine
end

