-- ==== Sys2Proof/Safety.lean ====
section
/-! DEFINITION. What claims mean by a safe state, and the words they are stated in: the spec's formulas in natural-number arithmetic, beside the model's own. -/

namespace Sys2Proof.Machine

/-- A cartridge is attached: the precondition of every run (spec/70_reset_and_hazards.md R340). -/
abbrev State.attached (s : State) : Prop := s.cart.isSome = true

/-- A cartridge as `attach` builds them: mapper 0, one or two PRG banks, its arrays of the declared sizes and in canonical
form (spec/21_cartridge_mapper.md R84, R90, R91). -/
abbrev Cart.wf (c : Cart) : Prop :=
  c.mapperId = 0 ∧ (c.prgBanks = 1 ∨ c.prgBanks = 2) ∧
  c.prg.wf ∧ c.prg.within (c.prgBanks.toNat * prgBankSize) ∧
  c.chr.wf ∧ c.chr.within (c.chrBanks.toNat * chrBankSize)

/-- The PPU's memories are canonical and of the sizes of spec/10_state.md R37. -/
abbrev Ppu.memoriesWf (u : Ppu) : Prop :=
  (u.nt.wf ∧ u.nt.within 2048) ∧ (u.pt.wf ∧ u.pt.within 8192) ∧
  (u.pal.wf ∧ u.pal.within 32) ∧ (u.oam.wf ∧ u.oam.within 256)

/-- The memories the block owns are canonical and of the spec's sizes (spec/10_state.md R35, R37). -/
abbrev State.memoriesWf (s : State) : Prop :=
  (s.ram.wf ∧ s.ram.within 2048) ∧ s.ppu.memoriesWf ∧ ∀ c ∈ s.cart, c.wf

/-- Bits 15 and 14 of the temporary VRAM address are 0 (spec/22_ppu_interface.md R121). -/
abbrev Ppu.addressLegal (u : Ppu) : Prop := u.t < 0x4000

/-- What every state of the block satisfies. -/
abbrev State.wf (s : State) : Prop := statusLegal s.p ∧ s.memoriesWf ∧ s.ppu.addressLegal

/-- A tick that neither faults nor is refused. -/
def State.completes (s : State) : Prop := ∃ t, step s = .next t

end Sys2Proof.Machine

namespace Sys2Proof.Claims

open Sys2Proof.Machine

/-! Words and bytes as numbers. -/

/-- The byte of a number, modulo 256. -/
def byteOf (n : Nat) : Byte := BitVec.ofNat 8 n

/-- The word of a number, modulo 65536 (spec/40_addressing_modes.md R170). -/
def wordOf (n : Nat) : Word := BitVec.ofNat 16 n

/-- The word of two bytes, `{hi, lo}` (spec/20_memory.md R60). -/
def wordOfBytes (hi lo : Byte) : Word := wordOf (256 * hi.toNat + lo.toNat)

/-- The carry as a number. -/
def carry (p : Byte) : Nat := if flag p bitC then 1 else 0

/-! The status byte, bit by bit. -/

/-- Outside the bits named, two status bytes agree. -/
def SameBut (bits : List Nat) (p q : Byte) : Prop := ∀ i, i ∉ bits → flag q i = flag p i

/-- `Z` and `N` describe the byte `r` (spec/10_state.md R29). -/
def ZeroNegative (r q : Byte) : Prop := flag q bitZ = decide (r = 0) ∧ flag q bitN = decide (128 ≤ r.toNat)

/-- `v` has bit 5 set, bit 4 equal to `b` and the other bits of `p`: the byte `PackP(b)` pushes, and for `b = 0` the one
`UnpackP` loads (spec/10_state.md R30, R31). -/
def StatusByte (b : Bool) (p v : Byte) : Prop :=
  ∀ i, flag v i = if i = bitU then true else if i = bitB then b else flag p i

/-! Operands. -/

/-- The word the page-zero pointer at `z` holds, its high byte from `(z + 1) mod 256` (spec/40_addressing_modes.md R183). -/
def pointer (s : State) (z : Nat) : Nat := 256 * (s.ram.read ((z + 1) % 256)).toNat + (s.ram.read z).toNat

/-- The effective address of a memory operand, as a number below 65536 (the column `ea` of R186); none for the accumulator
and for an immediate operand, whose byte the instruction carries. -/
def address (s : State) : Operand → Option Nat
  | .acc | .imm _ => none
  | .zp b => some b.toNat
  | .zpx b => some ((b.toNat + s.x.toNat) % 256)
  | .zpy b => some ((b.toNat + s.y.toNat) % 256)
  | .abs a => some a.toNat
  | .absx a => some ((a.toNat + s.x.toNat) % 65536)
  | .absy a => some ((a.toNat + s.y.toNat) % 65536)
  | .indx b => some (pointer s ((b.toNat + s.x.toNat) % 256))
  | .indy b => some ((pointer s b.toNat + s.y.toNat) % 65536)

/-- The length in bytes of an instruction with this operand (spec/30_encoding.md R156). -/
def length : Operand → Nat
  | .acc => 1
  | .imm _ | .zp _ | .zpx _ | .zpy _ | .indx _ | .indy _ => 2
  | .abs _ | .absx _ | .absy _ => 3

/-- `PC` moved past an instruction of `n` bytes. -/
def past (s : State) (n : Nat) : State := s.setPc (wordOf (s.pc.toNat + n))

/-- The operand read of an instruction, once the resolver has moved `PC` past it: the byte is `v`, and the one bus access,
if the operand is in memory, leaves `u` (spec/40_addressing_modes.md R171). -/
def Reads (s : State) (m : Operand) (v : Byte) (u : State) : Prop :=
  match address s m, m with
  | some a, _ => memRead (wordOf a) (past s (length m)) = .ok v u
  | none, .imm b => v = b ∧ u = past s (length m)
  | none, _ => v = s.a ∧ u = past s (length m)

/-- The operand write of `r` at the operand's address in `s`, from `u` on (spec/40_addressing_modes.md R172). -/
def Writes (s : State) (m : Operand) (r : Byte) (u w : State) : Prop :=
  match address s m with
  | some a => memWrite (wordOf a) r u = .ok () w
  | none => w = u.setA r

/-- `c` has exactly the operand forms listed, each with its opcode byte, then the operand bytes, low byte first. -/
def Encodings (c : Operand → Instr) (rows : List (Form × Byte)) : Prop :=
  ∀ m, (WellFormed (c m) = true ↔ m.form ∈ rows.map Prod.fst) ∧
    ∀ op, (m.form, op) ∈ rows → encode (c m) = op :: m.bytes

/-! Completion and memory. -/

/-- `exec` answers a next state, and `P` says which. -/
def Completes (i : Instr) (s : State) (P : State → Prop) : Prop := ∃ t, exec i s = .next t ∧ P t

/-- `m'` holds the listed bytes at the listed indexes, and what `m` held everywhere else. -/
def Stored (m m' : Memory) (cells : List (Nat × Byte)) : Prop :=
  ∀ i, m'.read i = (cells.lookup i).getD (m.read i)

/-- The index in RAM of the stack slot a stack pointer selects (spec/46_stack_jumps_subroutines.md R280). -/
def slot (sp : Byte) : Nat := 0x100 + sp.toNat

/-- The PPU window (spec/20_memory.md R50). -/
def InWindow (a : Nat) : Prop := 0x2000 ≤ a ∧ a < 0x4000

/-- Two addresses select the same RAM byte (spec/20_memory.md R53). -/
def SameRamByte (a b : Nat) : Prop := a < 0x2000 ∧ b < 0x2000 ∧ a % 2048 = b % 2048

/-- The CPU addresses an instruction stores to. -/
def storedTo (s : State) : Instr → List Nat
  | .sta m | .stx m | .sty m | .asl m | .lsr m | .rol m | .ror m | .inc m | .dec m => (address s m).toList
  | .pha | .php => [slot s.sp]
  | .jsr _ => [slot s.sp, slot (s.sp - 1)]
  | .brk => [slot s.sp, slot (s.sp - 1), slot (s.sp - 2)]
  | .adc _ | .and _ | .bit _ | .cmp _ | .cpx _ | .cpy _ | .eor _ | .lda _ | .ldx _ | .ldy _ | .ora _ | .sbc _
  | .bcc _ | .bcs _ | .beq _ | .bmi _ | .bne _ | .bpl _ | .bvc _ | .bvs _
  | .clc | .cld | .cli | .clv | .dex | .dey | .inx | .iny | .jmp _ | .nop
  | .pla | .plp | .rti | .rts | .sec | .sed | .sei | .tax | .tay | .tsx | .txa | .txs | .tya | .illegal _ => []

/-- The CPU addresses an instruction reads data at; the stack and the vectors are never in the PPU window. -/
def readFrom (s : State) : Instr → List Nat
  | .adc m | .and m | .bit m | .cmp m | .cpx m | .cpy m | .eor m | .lda m | .ldx m | .ldy m | .ora m | .sbc m
  | .asl m | .lsr m | .rol m | .ror m | .inc m | .dec m => (address s m).toList
  | .jmp (.ind p) => [p.toNat, (indirectHigh s.params.jmpIndirectPageWrap p).toNat]
  | .jmp (.abs _) | .sta _ | .stx _ | .sty _ | .pha | .php | .jsr _ | .brk
  | .bcc _ | .bcs _ | .beq _ | .bmi _ | .bne _ | .bpl _ | .bvc _ | .bvs _
  | .clc | .cld | .cli | .clv | .dex | .dey | .inx | .iny | .nop
  | .pla | .plp | .rti | .rts | .sec | .sed | .sei | .tax | .tay | .tsx | .txa | .txs | .tya | .illegal _ => []

/-! Which registers and flags an instruction writes (spec/10_state.md R23, R33). -/

/-- The instruction writes `A`. -/
def writesA : Instr → Bool
  | .ora _ | .and _ | .eor _ | .adc _ | .sbc _ | .lda _ | .pla | .txa | .tya
  | .asl .acc | .lsr .acc | .rol .acc | .ror .acc => true
  | _ => false

/-- The instruction writes `X`. -/
def writesX : Instr → Bool
  | .ldx _ | .inx | .dex | .tax | .tsx => true
  | _ => false

/-- The instruction writes `Y`. -/
def writesY : Instr → Bool
  | .ldy _ | .iny | .dey | .tay => true
  | _ => false

/-- The instruction writes `SP`. -/
def writesSp : Instr → Bool
  | .pha | .php | .pla | .plp | .jsr _ | .rts | .brk | .rti | .txs => true
  | _ => false

/-- The flags an instruction writes (the column "written by" of R33). -/
def flagsWritten : Instr → List Nat
  | .adc _ | .sbc _ => [bitC, bitZ, bitV, bitN]
  | .asl _ | .lsr _ | .rol _ | .ror _ | .cmp _ | .cpx _ | .cpy _ => [bitC, bitZ, bitN]
  | .bit _ => [bitZ, bitV, bitN]
  | .ora _ | .and _ | .eor _ | .inc _ | .dec _ | .inx | .iny | .dex | .dey | .lda _ | .ldx _ | .ldy _
  | .tax | .tay | .txa | .tya | .tsx | .pla => [bitZ, bitN]
  | .clc | .sec => [bitC]
  | .cli | .sei | .brk => [bitI]
  | .clv => [bitV]
  | .cld | .sed => [bitD]
  | .plp | .rti => [bitC, bitZ, bitI, bitD, bitV, bitN]
  | _ => []

/-- The instruction sets `PC` itself, beyond moving past its own bytes. -/
def setsPc : Instr → Bool
  | .bcc _ | .bcs _ | .beq _ | .bmi _ | .bne _ | .bpl _ | .bvc _ | .bvs _
  | .jmp _ | .jsr _ | .rts | .brk | .rti | .illegal _ => true
  | _ => false

/-! Ticks. -/

/-- The bytes from address `a` on, read one after the other from `s`, are `bs`, and `u` is left. -/
def FetchesBytes (s : State) (a : Word) : List Byte → State → Prop
  | [], u => u = s
  | b :: bs, u => ∃ w, memRead a s = .ok b w ∧ FetchesBytes w (a + 1) bs u

/-- The opcode byte `op` at `PC` and the operand bytes `bs` after it are fetched from `s`, the opcode latched in between,
and `u` is the state the instruction executes in (spec/30_encoding.md R150, R155). -/
def Fetches (s : State) (op : Byte) (bs : List Byte) (u : State) : Prop :=
  ∃ w, memRead s.pc s = .ok op w ∧ FetchesBytes ((w.setPrevPC s.pc).setOp op) (s.pc + 1) bs u

/-- The fetch of the opcode `op` and of the operand bytes `bs` leaves `u`, the instruction has a further operand byte, and the
read of that byte is the fault `f` (spec/60_exceptions.md R303, R308). -/
def FetchFails (s : State) (op : Byte) (bs : List Byte) (f : Fault) (u : State) : Prop :=
  decode (op :: bs) = .error .missingOperand ∧ Fetches s op bs u ∧
    ∃ w, memRead (wordOf (s.pc.toNat + 1 + bs.length)) u = .error f w

/-- The machine is stopped by the recorded fault `f`: `UnimplementedOpcode` under `halt`, or `BusContractViolation`
(spec/60_exceptions.md R302, R303). -/
def Stopped (s : State) (f : Fault) : Prop :=
  s.report = some f ∧ ((∃ op pc, f = .unimplementedOpcode op pc) → s.params.illegalOpcodePolicy = .halt)

/-- No fault has stopped the machine. -/
def Running (s : State) : Prop := ∀ f, ¬ Stopped s f

/-- What the host can do between two ticks, and the tick, but for `reset` (spec/00_scope.md R5, spec/60_exceptions.md R307). -/
inductive HostEvent where
  | tick
  | attach (image : List Byte)
  | irq
  | nmi
deriving DecidableEq, Repr

/-- The state after an outcome at `s`: what a fault leaves, where it is one. -/
def settled (s : State) (left : Option State) : Host.Outcome State Fault Refusal → State
  | .next t => t
  | .fault _ | .refused _ => left.getD s

/-- The state after an event, whatever came of it. -/
def happen (s : State) : HostEvent → State
  | .tick => settled s (tickLeaves s) (step s)
  | .attach image =>
    match attach image s with
    | .ok t => t
    | .error _ => s
  | .irq => settled s (irqLeaves s) (irq s)
  | .nmi => settled s (nmiLeaves s) (nmi s)

/-- A tick at `s` is the fault `f`; what it leaves behind is `t`, with the fault recorded (R303). -/
def Aborts (s : State) (f : Fault) (t : State) : Prop :=
  step s = .fault f ∧ tickLeaves s = some (t.setReport (some f))

/-- The opcode bytes of the column "imm" of R157. -/
def immediateOpcodes : List Byte := [0x69, 0x29, 0xC9, 0xE0, 0xC0, 0x49, 0xA9, 0xA2, 0xA0, 0x09, 0xE9]

/-- The operand an instruction reads. -/
def operandRead : Instr → Option Operand
  | .adc m | .and m | .bit m | .cmp m | .cpx m | .cpy m | .eor m | .lda m | .ldx m | .ldy m | .ora m | .sbc m
  | .asl m | .lsr m | .rol m | .ror m | .inc m | .dec m => some m
  | _ => none

/-- The operand a store writes, and the byte it writes there. -/
def operandStored (s : State) : Instr → Option (Operand × Byte)
  | .sta m => some (m, s.a)
  | .stx m => some (m, s.x)
  | .sty m => some (m, s.y)
  | _ => none

/-- What a read-modify-write makes of the byte `v` with carry `c`: its operand, its result, and the carry it writes before the
result, if it writes one (R210 to R213, R220, R221). -/
def operandModified (c : Nat) (v : Byte) : Instr → Option (Operand × Nat × Option Bool)
  | .asl m => some (m, 2 * v.toNat % 256, some (v.getLsbD 7))
  | .lsr m => some (m, v.toNat / 2, some (v.getLsbD 0))
  | .rol m => some (m, (2 * v.toNat + c) % 256, some (v.getLsbD 7))
  | .ror m => some (m, v.toNat / 2 + 128 * c, some (v.getLsbD 0))
  | .inc m => some (m, (v.toNat + 1) % 256, none)
  | .dec m => some (m, (v.toNat + 255) % 256, none)
  | _ => none

/-- `t` is `s` with the carry written, if one is. -/
def CarryWritten (s t : State) : Option Bool → Prop
  | none => t = s
  | some b => t = s.setP t.p ∧ flag t.p bitC = b ∧ SameBut [bitC] s.p t.p

/-- Bits 15 to 8 of two addresses differ. -/
def crossing (a b : Nat) : Nat := if a / 256 = b / 256 then 0 else 1

/-- The page-crossing penalty of an instruction that only reads its operand (spec/70_reset_and_hazards.md R347 (a)). -/
def pageCost (s : State) : Operand → Nat
  | .absx a => crossing a.toNat ((a.toNat + s.x.toNat) % 65536)
  | .absy a => crossing a.toNat ((a.toNat + s.y.toNat) % 65536)
  | .indy b => crossing (pointer s b.toNat) ((pointer s b.toNat + s.y.toNat) % 65536)
  | _ => 0

/-- Where a branch at `p` with offset `d` goes (spec/40_addressing_modes.md R185). -/
def branchTarget (p : Word) (d : Byte) : Word := BitVec.ofInt 16 ((p.toNat : Int) + 2 + d.toInt)

/-- The penalty of a branch that is taken if `taken` (R347 (b)). -/
def branchCost (s : State) (taken : Bool) (d : Byte) : Nat :=
  if taken then 1 + crossing (branchTarget s.pc d).toNat ((s.pc.toNat + 2) % 65536) else 0

/-- What R347 adds to the base count of an instruction about to execute in `s`. -/
def penalty (s : State) : Instr → Nat
  | .ora m | .and m | .eor m | .adc m | .sbc m | .cmp m | .lda m | .ldx m | .ldy m => pageCost s m
  | .bpl d => branchCost s (!flag s.p bitN) d
  | .bmi d => branchCost s (flag s.p bitN) d
  | .bvc d => branchCost s (!flag s.p bitV) d
  | .bvs d => branchCost s (flag s.p bitV) d
  | .bcc d => branchCost s (!flag s.p bitC) d
  | .bcs d => branchCost s (flag s.p bitC) d
  | .bne d => branchCost s (!flag s.p bitZ) d
  | .beq d => branchCost s (flag s.p bitZ) d
  | _ => 0

/-- The base counts of an operand that is read, by class (R346). -/
def readCycles : Operand → Nat
  | .acc | .imm _ => 2
  | .zp _ => 3
  | .zpx _ | .zpy _ | .abs _ | .absx _ | .absy _ => 4
  | .indx _ => 6
  | .indy _ => 5

/-- The base counts of a store, by class (R346). -/
def storeCycles : Operand → Nat
  | .absx _ | .absy _ => 5
  | .indy _ => 6
  | m => readCycles m

/-- The base counts of a read-modify-write, by class (R346). -/
def modifyCycles : Operand → Nat
  | .zp _ => 5
  | .zpx _ | .abs _ => 6
  | .absx _ => 7
  | m => readCycles m

/-- The base count of a legal instruction, from the sentence "By class" of R346. -/
def classCycles : Instr → Nat
  | .ora m | .and m | .eor m | .adc m | .sbc m | .cmp m | .cpx m | .cpy m | .bit m | .lda m | .ldx m | .ldy m => readCycles m
  | .sta m | .stx m | .sty m => storeCycles m
  | .asl m | .lsr m | .rol m | .ror m | .inc m | .dec m => modifyCycles m
  | .pha | .php | .jmp (.abs _) => 3
  | .pla | .plp => 4
  | .jmp (.ind _) => 5
  | .rts | .rti | .jsr _ => 6
  | .brk => 7
  | _ => 2

end Sys2Proof.Claims
end

