-- ==== Sys2Proof/Certificates/Slice0/Obligations.lean ====
section
/-! DEFINITION. The statements for the provers; each docstring names the rules of spec/ it formalises. The words they are stated in are Safety.lean's. -/

open Sys2Proof Sys2Proof.Machine Sys2Proof.Claims

/-! Encoding. -/

/-- Decoding the bytes of any well-formed instruction gives it back, with what follows it (R151, R155, R157). That
an illegal opcode has a length, one byte, is the model's choice (log entry 19). -/
def Obligations.DecodeEncodeRoundTrip : Prop :=
  ∀ (i : Instr) (rest : List Byte), WellFormed i = true → decode (encode i ++ rest) = .ok (i, rest)

/-- Whatever decodes is well-formed, and the bytes read are its encoding (R151, R153, R154, R157). That an
illegal opcode has a length, one byte, is the model's choice (log entry 19). -/
def Obligations.DecodedIsEncoded : Prop :=
  ∀ (bs rest : List Byte) (i : Instr), decode bs = .ok (i, rest) → WellFormed i = true ∧ bs = encode i ++ rest

/-- A few instructions decoded from bytes written out from R157 and R158. That the illegal byte is decoded as one byte is the
model's choice (log entry 19). -/
def Obligations.SpecBytesDecode : Prop :=
  decode [0x6D, 0x34, 0x12] = .ok (.adc (.abs 0x1234), []) ∧
  decode [0x11, 0x86] = .ok (.ora (.indy 0x86), []) ∧
  decode [0x96, 0x10, 0xEA] = .ok (.stx (.zpy 0x10), [0xEA]) ∧
  decode [0x6C, 0xFF, 0x02] = .ok (.jmp (.ind 0x02FF), []) ∧
  decode [0xD0, 0xFB] = .ok (.bne 0xFB, []) ∧
  decode [0x0A] = .ok (.asl .acc, []) ∧
  decode [0x00] = .ok (.brk, []) ∧
  decode [0x9E] = .ok (.illegal 0x9E, [])

/-- Every byte is a legal opcode or one of the 105 of R154, and an instruction starts with it either way (R159, R154; that
the decoder reads an illegal one as an instruction of one byte is the model's choice, log entry 19). -/
def Obligations.EveryByteDispatches : Prop :=
  (∀ op : Byte, (dispatch op).isIllegal = true ↔ op.toNat ∈ illegalOpcodes) ∧
  (∀ op b1 b2 : Byte, ∃ (i : Instr) (rest : List Byte), decode [op, b1, b2] = .ok (i, rest) ∧
    (i = .illegal op ↔ op.toNat ∈ illegalOpcodes)) ∧
  illegalOpcodes.length = 105 ∧ illegalOpcodes.Nodup

/-! The tick. -/

/-- A tick fetches the instruction at `PC`, runs it, and adds its cost to the counter; an illegal byte is run as it was
fetched, nothing latched (R150); a fault of the opcode's read, or of an operand byte's, is the tick's fault (R308). The tick of a
stopped machine reports the fault that stopped it (R302, R303). -/
def Obligations.StepRunsDecodedInstruction : Prop :=
  (∀ (s u : State) (op : Byte) (bs : List Byte) (i : Instr),
    Running s → Fetches s op bs u → op.toNat ∉ illegalOpcodes → decode (op :: bs) = .ok (i, []) →
      (∀ t, exec i u = .next t → step s = .next (t.setCyc (t.cyc + tickCost i u))) ∧
      (∀ f, exec i u = .fault f → step s = .fault f)) ∧
  (∀ (s w : State) (op : Byte),
    Running s → memRead s.pc s = .ok op w → op.toNat ∈ illegalOpcodes → step s = exec (.illegal op) w) ∧
  (∀ (s w : State) (f : Fault), Running s → memRead s.pc s = .error f w → step s = .fault f) ∧
  (∀ (s u : State) (op : Byte) (bs : List Byte) (f : Fault), Running s → FetchFails s op bs f u → step s = .fault f) ∧
  (∀ (s : State) (f : Fault), Stopped s f → step s = .fault f)

/-- A completed tick of a legal opcode leaves that opcode in `OP`, its address in `prevPC`, and the counter raised by
`CYC(OP)` and, with `CYCLE_PENALTIES` on, the penalties of R347 (R27, R345, R347). A byte the table `cyc` does not list costs 0:
the model's choice, log entry 14. -/
def Obligations.TickRecordsAndCounts : Prop :=
  ∀ (s u t : State) (op : Byte) (bs : List Byte) (i : Instr),
    Fetches s op bs u → op.toNat ∉ illegalOpcodes → decode (op :: bs) = .ok (i, []) → step s = .next t →
      t.op = op ∧ t.prevPC = s.pc ∧
      t.cyc = s.cyc + s.params.cyc.getD op.toNat 0 + (if s.params.cyclePenalties then penalty s i else 0)

/-- The default cycle table is the one the classes of R346 give. -/
def Obligations.CycleTableByClass : Prop :=
  ∀ (i : Instr) (op : Byte), WellFormed i = true → opcodeOf i = some op → op.toNat ∉ illegalOpcodes →
    State.reset.params.cyc.getD op.toNat 0 = classCycles i

/-- The instructions that do not set `PC` move it past their own bytes (R21). -/
def Obligations.PcMovesPastInstruction : Prop :=
  ∀ (i : Instr) (s t : State), WellFormed i = true → setsPc i = false → exec i s = .next t →
    t.pc = wordOf (s.pc.toNat + (encode i).length)

/-- With a cartridge attached, the tick of a machine that is not stopped completes, the cartridge still attached, unless the byte
at `PC` is illegal and the policy is `halt` (R301, R303, R349). That a tick which meets an illegal byte under `skip` or `nop` answers a next state, the
policy applied inside it, is the model's (log entry 3). -/
def Obligations.AttachedStepCompletes : Prop :=
  ∀ s : State, s.attached → Running s →
    (∃ t, step s = .next t ∧ t.attached) ∨
    (s.params.illegalOpcodePolicy = .halt ∧
      ∃ (op : Byte) (w : State), memRead s.pc s = .ok op w ∧ op.toNat ∈ illegalOpcodes ∧
        step s = .fault (.unimplementedOpcode op s.pc))

/-- The only faults of a tick are the fault that has stopped the machine, if one has (R302, R303), and else `UnimplementedOpcode`,
of an illegal byte at `PC`, and `BusContractViolation`, with no cartridge attached, at an address in the PPU window or the cartridge space; no tick is refused (R300, R303, R308). That
`UnimplementedOpcode` is a tick's fault under `halt` alone, where R302 has it reported under every policy, is the model's (log
entry 3): under `skip` and `nop` the tick completes with the fault in its report. -/
def Obligations.FaultsOfATick : Prop :=
  ∀ s : State,
    (∀ f, step s = .fault f → Stopped s f ∨
      (∃ (op : Byte) (w : State), memRead s.pc s = .ok op w ∧ op.toNat ∈ illegalOpcodes ∧
        s.params.illegalOpcodePolicy = .halt ∧ f = .unimplementedOpcode op s.pc) ∨
      (∃ a : Word, f = .busContractViolation a ∧ s.cart = none ∧ (InWindow a.toNat ∨ 0x4020 ≤ a.toNat))) ∧
    (∀ r, step s ≠ .refused r)

/-- What a faulting tick leaves: the fault recorded and `cyc` not raised, `A`, `X`, `Y`, the cartridge and the parameters as
before (R303); for an illegal byte under `halt` nothing changed but what the fetch of that byte did (R301); for a failed opcode
fetch nothing changed at all; for a failed operand fetch the bytes before it fetched, `OP` and `prevPC` latched, and `PC` moved
for an immediate operand alone (R150, R174). The machine is then stopped by that fault, and a stopped machine's tick leaves it as
it is (R302, R303). A completed tick leaves nothing. That this is a function beside the step, and that
the report is a field of the state, are the model's (log entries 12, 4). -/
def Obligations.FaultingTickLeaves : Prop :=
  ∀ s : State,
    (∀ t, step s = .next t → tickLeaves s = none) ∧
    (∀ f, step s = .fault f → ∃ t, tickLeaves s = some t ∧ Stopped t f ∧ t.cyc = s.cyc ∧
      t.a = s.a ∧ t.x = s.x ∧ t.y = s.y ∧ t.cart = s.cart ∧ t.params = s.params) ∧
    (∀ f, Stopped s f → step s = .fault f ∧ tickLeaves s = some s) ∧
    (∀ (op : Byte) (w : State), Running s →
      memRead s.pc s = .ok op w → op.toNat ∈ illegalOpcodes → s.params.illegalOpcodePolicy = .halt →
      Aborts s (.unimplementedOpcode op s.pc) w ∧ w = (s.setPpu w.ppu).setDraws w.draws ∧ (¬ InWindow s.pc.toNat → w = s)) ∧
    (∀ (f : Fault) (w : State), Running s → memRead s.pc s = .error f w → Aborts s f s) ∧
    (∀ (op : Byte) (bs : List Byte) (f : Fault) (u : State), Running s → FetchFails s op bs f u →
      Aborts s f (if op ∈ immediateOpcodes then u.setPc (wordOf (s.pc.toNat + 2)) else u))

/-- What a tick leaves that faults in an instruction it has fetched: everything before the failing access has happened and
nothing after it (R303). A failed operand read leaves `PC` moved; a store whose write fails leaves what the write left; so does a
read-modify-write, its read made and its carry written; JMP indirect leaves `PC` where it was, the first pointer byte read; BRK
with no cartridge leaves its pushes made and `I` set. -/
def Obligations.FaultingInstructionLeaves : Prop :=
  ∀ (s u : State) (op : Byte) (bs : List Byte) (i : Instr),
    Running s → Fetches s op bs u → op.toNat ∉ illegalOpcodes → decode (op :: bs) = .ok (i, []) →
    (∀ (m : Operand) (a : Nat) (f : Fault) (w : State), operandRead i = some m → address u m = some a →
      memRead (wordOf a) (past u (length m)) = .error f w → Aborts s f (past u (length m))) ∧
    (∀ (m : Operand) (r : Byte) (a : Nat) (f : Fault) (w : State), operandStored u i = some (m, r) → address u m = some a →
      memWrite (wordOf a) r (past u (length m)) = .error f w → Aborts s f w) ∧
    (∀ (m : Operand) (v : Byte) (r a : Nat) (c : Option Bool) (f : Fault) (x y w : State),
      operandModified (carry u.p) v i = some (m, r, c) → address u m = some a →
      memRead (wordOf a) (past u (length m)) = .ok v x → CarryWritten x y c → memWrite (wordOf a) (byteOf r) y = .error f w →
      Aborts s f w) ∧
    (∀ (p : Word) (f : Fault) (w : State), i = .jmp (.ind p) → memRead p u = .error f w → Aborts s f u) ∧
    (∀ (p : Word) (lo : Byte) (f : Fault) (x w : State), i = .jmp (.ind p) → memRead p u = .ok lo x →
      memRead (if u.params.jmpIndirectPageWrap then wordOf (256 * (p.toNat / 256) + (p.toNat + 1) % 256)
        else wordOf (p.toNat + 1)) x = .error f w → Aborts s f x) ∧
    (i = .brk → u.cart = none → u.ram.wf → ∃ t, Aborts s (.busContractViolation 0xFFFE) t ∧
      let r := (u.pc.toNat + 2) % 65536
      t = ((((past u 1).setSp (byteOf (u.sp.toNat + 253))).setP t.p).setRam t.ram) ∧
      flag t.p bitI = true ∧ SameBut [bitI] u.p t.p ∧
      ∃ b, StatusByte true u.p b ∧ Stored u.ram t.ram
        [(slot u.sp, byteOf (r / 256)), (slot (byteOf (u.sp.toNat + 255)), byteOf r), (slot (byteOf (u.sp.toNat + 254)), b)])

/-- With a cartridge attached every instruction completes, but an illegal opcode under the `halt` policy (R58, R303). That an
illegal opcode completes under `skip` and `nop`, its policy applied at once, is the model's (log entry 3). -/
def Obligations.AttachedInstructionsComplete : Prop :=
  ∀ (i : Instr) (s : State), s.attached → ((∃ op, i = .illegal op) → s.params.illegalOpcodePolicy ≠ .halt) →
    ∃ t, exec i s = .next t

/-- An illegal opcode: under `halt` the fault, with the opcode and its address; under `skip` the report and `PC` moved by one;
under `nop` the report and what NOP does (R301, R302). That the policy is applied inside the tick is the model's (log entry 3), and
so is where the report stands (log entry 4). -/
def Obligations.IllegalOpcodes : Prop :=
  ∀ (s : State) (op : Byte),
    (s.params.illegalOpcodePolicy = .halt → exec (.illegal op) s = .fault (.unimplementedOpcode op s.pc)) ∧
    (s.params.illegalOpcodePolicy = .skip →
      exec (.illegal op) s = .next ((past s 1).setReport (some (.unimplementedOpcode op s.pc)))) ∧
    (s.params.illegalOpcodePolicy = .nop →
      exec (.illegal op) s = .next
        (((((past s 1).setOp op).setPrevPC s.pc).setCyc (s.cyc + 2)).setReport (some (.unimplementedOpcode op s.pc))))

/-! Invariants and frames. -/

/-- Every step keeps the state well-formed: status bits, canonical memories of the right sizes, a legal temporary address
(R25, R35, R37, R38, R121). The canonical form of a memory is the model's (log entry 7). -/
def Obligations.StepKeepsInvariant : Prop :=
  ∀ s t : State, s.wf → step s = .next t → t.wf

/-- The state after reset is well-formed; the PPU's registers, the cartridge and the recorded fault are as R330 gives them at
launch; `SP`, `P` and `cyc` hold what a reset leaves in them, with no cartridge that could complete one, which is the model's
choice (log entry 8). The values of log entries 5, 6 and 7 are not claimed. -/
def Obligations.ResetState : Prop :=
  State.reset.wf ∧ State.reset.sp = 0xFD ∧ State.reset.p = 0x24 ∧ State.reset.cyc = 0 ∧
  State.reset.ppu.ctrl = 0 ∧ State.reset.ppu.mask = 0 ∧ State.reset.ppu.status = 0 ∧ State.reset.ppu.oamAddr = 0 ∧
  State.reset.ppu.v = 0 ∧ State.reset.ppu.t = 0 ∧ State.reset.ppu.w = false ∧ State.reset.ppu.ioLatch = 0 ∧
  State.reset.cart = none ∧ State.reset.report = none

/-- The host operations keep the state well-formed (R96, R331, R307). -/
def Obligations.HostOperationsKeepInvariant : Prop :=
  ∀ s t : State, s.wf →
    (hostReset s = .next t → t.wf) ∧ (irq s = .next t → t.wf) ∧ (nmi s = .next t → t.wf) ∧
    (∀ image, attach image s = .ok t → t.wf)

/-- Bit 5 of `P` stays 1 and bit 4 stays 0, whatever instruction runs or host operation is made: reset, irq, nmi and attach
(R25). -/
def Obligations.StatusBitsFixed : Prop :=
  (∀ (i : Instr) (s t : State), statusLegal s.p → exec i s = .next t → statusLegal t.p) ∧
  (∀ s t : State, hostReset s = .next t → statusLegal t.p) ∧
  (∀ s t : State, statusLegal s.p → irq s = .next t → statusLegal t.p) ∧
  (∀ s t : State, statusLegal s.p → nmi s = .next t → statusLegal t.p) ∧
  (∀ (image : List Byte) (s t : State), statusLegal s.p → attach image s = .ok t → statusLegal t.p)

/-- An instruction changes no flag but those R33 says it writes. -/
def Obligations.FlagsWrittenOnly : Prop :=
  ∀ (i : Instr) (s t : State), statusLegal s.p → exec i s = .next t → SameBut (flagsWritten i) s.p t.p

/-- An instruction writes no register but its own; the recorded fault, `OP`, `prevPC` and `cyc` are written by an illegal
opcode alone, the cartridge and the parameters by none (R23, R38, R42). The recorded fault is the model's (log entries 3, 4). -/
def Obligations.RegistersWrittenOnly : Prop :=
  ∀ (i : Instr) (s t : State), WellFormed i = true → exec i s = .next t →
    (writesA i = false → t.a = s.a) ∧ (writesX i = false → t.x = s.x) ∧ (writesY i = false → t.y = s.y) ∧
    (writesSp i = false → t.sp = s.sp) ∧
    ((∀ op, i ≠ .illegal op) → t.op = s.op ∧ t.prevPC = s.prevPC ∧ t.cyc = s.cyc ∧ t.report = s.report) ∧
    t.cart = s.cart ∧ t.params = s.params

/-- A step changes neither the cartridge nor the parameters, and never lowers the counter (R38, R42, R26). -/
def Obligations.StepKeepsCartridge : Prop :=
  ∀ s t : State, step s = .next t → t.cart = s.cart ∧ t.params = s.params ∧ s.cyc ≤ t.cyc

/-- The frame of memory: outside the addresses an instruction stores to, and the mirrors of a RAM byte among them, every
address outside the PPU window reads as before; the PPU is untouched unless a data access falls in its window; and an
instruction that stores nothing leaves the PPU's memories as they were. -/
def Obligations.MemoryFrame : Prop :=
  ∀ (i : Instr) (s t : State), WellFormed i = true → s.wf → exec i s = .next t →
    (∀ (b : Word) (v : Byte), ¬ InWindow b.toNat → (∀ a ∈ storedTo s i, ¬ SameRamByte a b.toNat) →
      memRead b s = .ok v s → memRead b t = .ok v t) ∧
    ((∀ a ∈ storedTo s i, ¬ InWindow a) → (∀ a ∈ readFrom s i, ¬ InWindow a) → t.ppu = s.ppu ∧ t.draws = s.draws) ∧
    ((∀ a ∈ storedTo s i, ¬ InWindow a) → t.ppu.nt = s.ppu.nt ∧ t.ppu.pt = s.ppu.pt ∧ t.ppu.pal = s.ppu.pal ∧ t.ppu.oam = s.ppu.oam)

/-! The bus. -/

/-- The four regions, by address (R50). -/
def Obligations.AddressMap : Prop :=
  ∀ a : Word,
    (region a = .ram ↔ a.toNat < 0x2000) ∧ (region a = .ppu ↔ 0x2000 ≤ a.toNat ∧ a.toNat < 0x4000) ∧
    (region a = .hole ↔ 0x4000 ≤ a.toNat ∧ a.toNat < 0x4020) ∧ (region a = .cart ↔ 0x4020 ≤ a.toNat)

/-- RAM answers at every mirror with the byte at `address mod 2048`, without any effect, and after a write every mirror of
the byte reads the byte written and every other address below `0x2000` what it read before (R53, R54). -/
def Obligations.RamAndMirrors : Prop :=
  ∀ (s : State) (a : Word) (v : Byte), a.toNat < 0x2000 →
    memRead a s = .ok (s.ram.read (a.toNat % 2048)) s ∧
    memRead (a ^^^ 0x0800) s = memRead a s ∧
    ∃ t, memWrite a v s = .ok () t ∧ t = s.setRam t.ram ∧
      (s.ram.wf → ∀ b : Word, b.toNat < 0x2000 →
        memRead b t = .ok (if b.toNat % 2048 = a.toNat % 2048 then v else s.ram.read (b.toNat % 2048)) t)

/-- The APU/IO hole reads 0 and discards writes; cartridge space discards writes; and with no cartridge attached an access
to cartridge space is a contract violation at its address (R56, R58, R95). -/
def Obligations.HoleAndCartridgeSpace : Prop :=
  ∀ (s : State) (a : Word) (v : Byte),
    (0x4000 ≤ a.toNat → a.toNat < 0x4020 → memRead a s = .ok 0 s ∧ memWrite a v s = .ok () s) ∧
    (0x4020 ≤ a.toNat → s.attached → memWrite a v s = .ok () s) ∧
    (0x4020 ≤ a.toNat → s.cart = none →
      memRead a s = .error (.busContractViolation a) s ∧ memWrite a v s = .error (.busContractViolation a) s)

/-- Mapper 0 on the CPU side: one bank repeats every 16 KB, two banks are addressed modulo 32 KB, in all of cartridge space,
without any effect (R92, R93, R97). -/
def Obligations.PrgMirroring : Prop :=
  ∀ (s : State) (c : Cart) (a : Word), s.cart = some c → 0x4020 ≤ a.toNat →
    (c.prgBanks = 1 → memRead a s = .ok (c.prg.read (a.toNat % 0x4000)) s) ∧
    (c.prgBanks = 2 → memRead a s = .ok (c.prg.read (a.toNat % 0x8000)) s)

/-! The PPU window. -/

/-- The two writes to slot 6: the first sets the high six bits of `t`, the second its low byte, and copies `t` into `v`
(R121, R122). -/
def Obligations.VramAddressWrites : Prop :=
  ∀ (s : State) (a : Word) (v : Byte), InWindow a.toNat → a.toNat % 8 = 6 →
    (s.ppu.w = false → memWrite a v s = .ok () (s.setPpu { s.ppu with
      ioLatch := v, t := wordOf (256 * (v.toNat % 64) + s.ppu.t.toNat % 256), w := true })) ∧
    (s.ppu.w = true → memWrite a v s = .ok () (s.setPpu { s.ppu with
      ioLatch := v, t := wordOf (256 * (s.ppu.t.toNat / 256) + v.toNat)
      v := wordOf (256 * (s.ppu.t.toNat / 256) + v.toNat), w := false }))

/-- Reading or writing slot 2 resets the two-write latch; a read answers what `ppustatus` holds, or, when its source is a
draw at each read, the next draw in bits 7 to 5 (R117, R123). The draw is a free value: the statement holds whatever it is (log
entry 9). -/
def Obligations.StatusAccess : Prop :=
  ∀ (s : State) (a : Word) (v : Byte), InWindow a.toNat → a.toNat % 8 = 2 →
    memWrite a v s = .ok () (s.setPpu { s.ppu with ioLatch := v, w := false }) ∧
    (s.params.ppuStatusSource = .held →
      memRead a s = .ok s.ppu.status (s.setPpu { s.ppu with ioLatch := s.ppu.status, w := false })) ∧
    (s.params.ppuStatusSource = .perRead →
      ∃ r : Byte, (∀ k, r.getLsbD k = if k < 5 then s.ppu.status.getLsbD k else (Config.freeStatus s.draws).getLsbD (k - 5)) ∧
        memRead a s = .ok r ((s.setPpu { s.ppu with ioLatch := r, w := false }).setDraws (s.draws + 1)))

/-- Slot 7 reads or writes the cell at `v`, and then moves `v` by 32 if bit 2 of `ppuctrl` is set, else by 1 (R115, R124,
R125). Where `v` selects no cell, a nametable address with no cartridge, both accesses are the contract violation at the CPU
address; the read has changed nothing, the write has refreshed the I/O latch (R113, R137, R303). -/
def Obligations.VramDataPort : Prop :=
  ∀ (s : State) (a : Word) (v : Byte), InWindow a.toNat → a.toNat % 8 = 7 →
    let next := wordOf (s.ppu.v.toNat + (if s.ppu.ctrl.getLsbD 2 then 32 else 1))
    (∀ c : VramCell, vramCell s s.ppu.v = some c →
      memRead a s = .ok (s.ppu.readCell c) (s.setPpu { s.ppu with v := next, ioLatch := s.ppu.readCell c }) ∧
      ∃ t, memWrite a v s = .ok () t ∧ t = s.setPpu t.ppu ∧ t.ppu.v = next ∧ t.ppu.ioLatch = v ∧
        t.ppu = { s.ppu with v := next, ioLatch := v, nt := t.ppu.nt, pt := t.ppu.pt, pal := t.ppu.pal } ∧
        (s.ppu.memoriesWf → ∀ d : VramCell, t.ppu.readCell d = if d = c then v else s.ppu.readCell d)) ∧
    (vramCell s s.ppu.v = none →
      memRead a s = .error (.busContractViolation a) s ∧
      memWrite a v s = .error (.busContractViolation a) (s.setPpu { s.ppu with ioLatch := v }))

/-- Control, mask and OAM address take the byte written; scroll takes nothing; every write refreshes the I/O latch; and a
read of a write-only slot answers the latch and changes nothing (R112, R115, R116, R118, R120, R127). -/
def Obligations.PlainSlots : Prop :=
  ∀ (s : State) (a : Word) (v : Byte), InWindow a.toNat →
    (a.toNat % 8 = 0 → memWrite a v s = .ok () (s.setPpu { s.ppu with ioLatch := v, ctrl := v })) ∧
    (a.toNat % 8 = 1 → memWrite a v s = .ok () (s.setPpu { s.ppu with ioLatch := v, mask := v })) ∧
    (a.toNat % 8 = 3 → memWrite a v s = .ok () (s.setPpu { s.ppu with ioLatch := v, oamAddr := v })) ∧
    (a.toNat % 8 = 5 → memWrite a v s = .ok () (s.setPpu { s.ppu with ioLatch := v })) ∧
    (a.toNat % 8 ∈ [0, 1, 3, 5, 6] → memRead a s = .ok s.ppu.ioLatch s)

/-- OAM data: a write stores at `oamaddr` and then increments it, a read leaves it (R119). -/
def Obligations.OamData : Prop :=
  ∀ (s : State) (a : Word) (v : Byte), InWindow a.toNat → a.toNat % 8 = 4 →
    memRead a s = .ok (s.ppu.oam.read s.ppu.oamAddr.toNat)
      (s.setPpu { s.ppu with ioLatch := s.ppu.oam.read s.ppu.oamAddr.toNat }) ∧
    ∃ t, memWrite a v s = .ok () t ∧
      t = s.setPpu { s.ppu with ioLatch := v, oamAddr := byteOf (s.ppu.oamAddr.toNat + 1), oam := t.ppu.oam } ∧
      (s.ppu.oam.wf → Stored s.ppu.oam t.ppu.oam [(s.ppu.oamAddr.toNat, v)])

/-- Which cell a VRAM address selects, after its reduction to 14 bits: a pattern byte; a nametable byte of table 0 or 1, by
window, mirroring and convention; or a palette byte, four of them mirrors (R130 to R134, R137). -/
def Obligations.VramResolution : Prop :=
  ∀ (s : State) (addr : Word),
    let a := addr.toNat % 0x4000
    let window := a / 0x400 % 4
    (a < 0x2000 → vramCell s addr = some (.pattern (4096 * (a / 0x1000) + a % 0x1000))) ∧
    (0x2000 ≤ a → a < 0x3F00 →
      (s.cart = none → vramCell s addr = none) ∧
      (∀ c, s.cart = some c → vramCell s addr = some (.nametable (a % 0x400 + 1024 *
        (match s.params.ntMirrorConvention, c.mirroring with
          | .document, .horizontal | .nesHardware, .vertical => window % 2
          | .document, .vertical | .nesHardware, .horizontal => window / 2))))) ∧
    (0x3F00 ≤ a → vramCell s addr = some (.palette
      (if a % 32 ∈ [0x10, 0x14, 0x18, 0x1C] then a % 32 - 0x10 else a % 32)))

/-- A byte written through slot 7 is read back through slot 7 once `v` is at the same address again, through any mirror of
it (R64, R124, R125). -/
def Obligations.VramReadAfterWrite : Prop :=
  ∀ (s t : State) (a b v' : Word) (v : Byte) (c : VramCell), InWindow a.toNat → a.toNat % 8 = 7 → InWindow b.toNat →
    b.toNat % 8 = 7 → s.ppu.memoriesWf → vramCell s s.ppu.v = some c → vramCell s v' = some c →
    memWrite a v s = .ok () t →
    ∃ u, memRead b (t.setPpu { t.ppu with v := v' }) = .ok v u

/-! Operands. -/

/-- The resolvers: the effective address of every form in numbers, and `PC` moved by the instruction's length, nothing else
changed (R174 to R184, R186). That an immediate operand carries its byte is the model's (log entry 1). -/
def Obligations.EffectiveAddresses : Prop :=
  ∀ (s : State) (m : Operand),
    (∀ a, address s m = some a → a < 65536 ∧ resolve m s = .ok (.addr (wordOf a)) (past s (length m))) ∧
    resolve .acc s = .ok .acc (past s 1) ∧
    (∀ b, resolve (.imm b) s = .ok (.fetched (wordOf (s.pc.toNat + 1)) b) (past s 2))

/-- Operand access: with a cartridge attached every operand can be read and written; a read changes `PC` and the PPU alone,
and the PPU only in its window; a write changes RAM and the PPU alone, or `A` (R58, R62, R171, R172). -/
def Obligations.OperandAccess : Prop :=
  ∀ (s : State) (m : Operand),
    (s.attached → ∃ v u, Reads s m v u) ∧
    (∀ (r : Byte) (u : State), u.attached → ∃ w, Writes s m r u w) ∧
    (∀ v u, Reads s m v u → u = (((past s (length m)).setPpu u.ppu).setDraws u.draws) ∧
      ((∀ a, address s m = some a → ¬ InWindow a) → u = past s (length m))) ∧
    (∀ r u w, Writes s m r u w → w = (((u.setA w.a).setRam w.ram).setPpu w.ppu) ∧
      (∀ a, address s m = some a → w.a = u.a ∧ (¬ InWindow a → w.ppu = u.ppu)))

/-! The instructions. -/

/-- ORA, AND, EOR: forms and encodings, result, flags `Z` and `N`, and nothing else (R190, R191, R192). -/
def Obligations.LogicalOperations : Prop :=
  (Encodings .ora [(.imm, 0x09), (.zp, 0x05), (.zpx, 0x15), (.abs, 0x0D), (.absx, 0x1D), (.absy, 0x19), (.indx, 0x01), (.indy, 0x11)] ∧
   Encodings .and [(.imm, 0x29), (.zp, 0x25), (.zpx, 0x35), (.abs, 0x2D), (.absx, 0x3D), (.absy, 0x39), (.indx, 0x21), (.indy, 0x31)] ∧
   Encodings .eor [(.imm, 0x49), (.zp, 0x45), (.zpx, 0x55), (.abs, 0x4D), (.absx, 0x5D), (.absy, 0x59), (.indx, 0x41), (.indy, 0x51)]) ∧
  ∀ (s u : State) (m : Operand) (v : Byte), Reads s m v u →
    (Completes (.ora m) s fun t => t = (u.setA (s.a ||| v)).setP t.p ∧
      ZeroNegative t.a t.p ∧ SameBut [bitZ, bitN] s.p t.p) ∧
    (Completes (.and m) s fun t => t = (u.setA (s.a &&& v)).setP t.p ∧
      ZeroNegative t.a t.p ∧ SameBut [bitZ, bitN] s.p t.p) ∧
    (Completes (.eor m) s fun t => t = (u.setA (s.a ^^^ v)).setP t.p ∧
      ZeroNegative t.a t.p ∧ SameBut [bitZ, bitN] s.p t.p)

/-- BIT: `N` and `V` from the operand, `Z` from `A & M`, `A` kept (R193). -/
def Obligations.BitTest : Prop :=
  Encodings .bit [(.zp, 0x24), (.abs, 0x2C)] ∧
  ∀ (s u : State) (m : Operand) (v : Byte), Reads s m v u →
    Completes (.bit m) s fun t => t = u.setP t.p ∧
      flag t.p bitN = v.getLsbD 7 ∧ flag t.p bitV = v.getLsbD 6 ∧ flag t.p bitZ = decide (s.a &&& v = 0) ∧
      SameBut [bitZ, bitV, bitN] s.p t.p

/-- ADC: the sum with the carry modulo 256; `C` from bit 8; `V` when the signed sum leaves the byte; `D` ignored (R200,
R201). -/
def Obligations.AddWithCarry : Prop :=
  Encodings .adc [(.imm, 0x69), (.zp, 0x65), (.zpx, 0x75), (.abs, 0x6D), (.absx, 0x7D), (.absy, 0x79), (.indx, 0x61), (.indy, 0x71)] ∧
  ∀ (s u : State) (m : Operand) (v : Byte), Reads s m v u →
    Completes (.adc m) s fun t =>
      let sum := s.a.toNat + v.toNat + carry s.p
      let signed := s.a.toInt + v.toInt + carry s.p
      t = (u.setA (byteOf sum)).setP t.p ∧
      flag t.p bitC = decide (255 < sum) ∧ flag t.p bitV = decide (signed < -128 ∨ 127 < signed) ∧
      ZeroNegative t.a t.p ∧ SameBut [bitC, bitZ, bitV, bitN] s.p t.p

/-- SBC: the difference with the borrow modulo 256; `C` when there is no borrow; `V` when the signed difference leaves the
byte; `D` ignored (R202). -/
def Obligations.SubtractWithBorrow : Prop :=
  Encodings .sbc [(.imm, 0xE9), (.zp, 0xE5), (.zpx, 0xF5), (.abs, 0xED), (.absx, 0xFD), (.absy, 0xF9), (.indx, 0xE1), (.indy, 0xF1)] ∧
  ∀ (s u : State) (m : Operand) (v : Byte), Reads s m v u →
    Completes (.sbc m) s fun t =>
      let borrow := 1 - carry s.p
      let signed := s.a.toInt - v.toInt - (borrow : Int)
      t = (u.setA t.a).setP t.p ∧
      (t.a.toNat : Int) = ((s.a.toNat : Int) - v.toNat - borrow) % 256 ∧
      flag t.p bitC = decide (v.toNat + borrow ≤ s.a.toNat) ∧ flag t.p bitV = decide (signed < -128 ∨ 127 < signed) ∧
      ZeroNegative t.a t.p ∧ SameBut [bitC, bitZ, bitV, bitN] s.p t.p

/-- CMP, CPX, CPY: `C` when the register is at least the operand, unsigned; `Z` when they are equal; `N` from bit 7 of the
difference; no register written (R203 to R206). -/
def Obligations.Compares : Prop :=
  (Encodings .cmp [(.imm, 0xC9), (.zp, 0xC5), (.zpx, 0xD5), (.abs, 0xCD), (.absx, 0xDD), (.absy, 0xD9), (.indx, 0xC1), (.indy, 0xD1)] ∧
   Encodings .cpx [(.imm, 0xE0), (.zp, 0xE4), (.abs, 0xEC)] ∧ Encodings .cpy [(.imm, 0xC0), (.zp, 0xC4), (.abs, 0xCC)]) ∧
  ∀ (s u : State) (m : Operand) (v : Byte), Reads s m v u →
    let Compared (r : Byte) (t : State) : Prop := t = u.setP t.p ∧
      flag t.p bitC = decide (v.toNat ≤ r.toNat) ∧ flag t.p bitZ = decide (r = v) ∧
      flag t.p bitN = decide (128 ≤ (256 + r.toNat - v.toNat) % 256) ∧ SameBut [bitC, bitZ, bitN] s.p t.p
    Completes (.cmp m) s (Compared s.a) ∧ Completes (.cpx m) s (Compared s.x) ∧ Completes (.cpy m) s (Compared s.y)

/-- LDA, LDX, LDY: the register takes the operand, `Z` and `N` describe it, nothing else changes (R226, R227, R228). -/
def Obligations.Loads : Prop :=
  (Encodings .lda [(.imm, 0xA9), (.zp, 0xA5), (.zpx, 0xB5), (.abs, 0xAD), (.absx, 0xBD), (.absy, 0xB9), (.indx, 0xA1), (.indy, 0xB1)] ∧
   Encodings .ldx [(.imm, 0xA2), (.zp, 0xA6), (.zpy, 0xB6), (.abs, 0xAE), (.absy, 0xBE)] ∧
   Encodings .ldy [(.imm, 0xA0), (.zp, 0xA4), (.zpx, 0xB4), (.abs, 0xAC), (.absx, 0xBC)]) ∧
  ∀ (s u : State) (m : Operand) (v : Byte), Reads s m v u →
    (Completes (.lda m) s fun t => t = (u.setA v).setP t.p ∧ ZeroNegative v t.p ∧ SameBut [bitZ, bitN] s.p t.p) ∧
    (Completes (.ldx m) s fun t => t = (u.setX v).setP t.p ∧ ZeroNegative v t.p ∧ SameBut [bitZ, bitN] s.p t.p) ∧
    (Completes (.ldy m) s fun t => t = (u.setY v).setP t.p ∧ ZeroNegative v t.p ∧ SameBut [bitZ, bitN] s.p t.p)

/-- STA, STX, STY: `PC` moved, then one write of the register at the effective address; no flag, no read of the target
(R229, R230, R231). -/
def Obligations.Stores : Prop :=
  (Encodings .sta [(.zp, 0x85), (.zpx, 0x95), (.abs, 0x8D), (.absx, 0x9D), (.absy, 0x99), (.indx, 0x81), (.indy, 0x91)] ∧
   Encodings .stx [(.zp, 0x86), (.zpy, 0x96), (.abs, 0x8E)] ∧ Encodings .sty [(.zp, 0x84), (.zpx, 0x94), (.abs, 0x8C)]) ∧
  ∀ (s t : State) (m : Operand) (a : Nat), address s m = some a →
    (memWrite (wordOf a) s.a (past s (length m)) = .ok () t → exec (.sta m) s = .next t) ∧
    (memWrite (wordOf a) s.x (past s (length m)) = .ok () t → exec (.stx m) s = .next t) ∧
    (memWrite (wordOf a) s.y (past s (length m)) = .ok () t → exec (.sty m) s = .next t)

/-- ASL, LSR, ROL, ROR: one read, one write of the result at the same place, `C` the bit that leaves, `Z` and `N` from the
result (R210 to R214). -/
def Obligations.ShiftsAndRotates : Prop :=
  (Encodings .asl [(.acc, 0x0A), (.zp, 0x06), (.zpx, 0x16), (.abs, 0x0E), (.absx, 0x1E)] ∧
   Encodings .lsr [(.acc, 0x4A), (.zp, 0x46), (.zpx, 0x56), (.abs, 0x4E), (.absx, 0x5E)] ∧
   Encodings .rol [(.acc, 0x2A), (.zp, 0x26), (.zpx, 0x36), (.abs, 0x2E), (.absx, 0x3E)] ∧
   Encodings .ror [(.acc, 0x6A), (.zp, 0x66), (.zpx, 0x76), (.abs, 0x6E), (.absx, 0x7E)]) ∧
  ∀ (s u w : State) (m : Operand) (v r : Byte), m.form ∈ shiftForms → Reads s m v u → Writes s m r u w →
    let Shifted (out : Bool) (t : State) : Prop := t = w.setP t.p ∧ flag t.p bitC = out ∧
      ZeroNegative r t.p ∧ SameBut [bitC, bitZ, bitN] s.p t.p
    (r.toNat = 2 * v.toNat % 256 → Completes (.asl m) s (Shifted (v.getLsbD 7))) ∧
    (r.toNat = v.toNat / 2 → Completes (.lsr m) s (Shifted (v.getLsbD 0))) ∧
    (r.toNat = (2 * v.toNat + carry s.p) % 256 → Completes (.rol m) s (Shifted (v.getLsbD 7))) ∧
    (r.toNat = v.toNat / 2 + 128 * carry s.p → Completes (.ror m) s (Shifted (v.getLsbD 0)))

/-- INC, DEC: one read, one write of the byte plus or minus one modulo 256 at the same address, `Z` and `N` from the result
(R220, R221). -/
def Obligations.MemoryIncrements : Prop :=
  (Encodings .inc [(.zp, 0xE6), (.zpx, 0xF6), (.abs, 0xEE), (.absx, 0xFE)] ∧
   Encodings .dec [(.zp, 0xC6), (.zpx, 0xD6), (.abs, 0xCE), (.absx, 0xDE)]) ∧
  ∀ (s u w : State) (m : Operand) (v r : Byte), m.form ∈ stepForms → Reads s m v u → Writes s m r u w →
    let Stepped (t : State) : Prop := t = w.setP t.p ∧ ZeroNegative r t.p ∧ SameBut [bitZ, bitN] s.p t.p
    (r.toNat = (v.toNat + 1) % 256 → Completes (.inc m) s Stepped) ∧
    (r.toNat = (v.toNat + 255) % 256 → Completes (.dec m) s Stepped)

/-- INX, INY, DEX, DEY: the register plus or minus one modulo 256, `Z` and `N` from it, nothing else (R222 to R225). -/
def Obligations.RegisterIncrements : Prop :=
  (encode .inx = [0xE8] ∧ encode .iny = [0xC8] ∧ encode .dex = [0xCA] ∧ encode .dey = [0x88]) ∧
  ∀ s : State,
    (Completes .inx s fun t => t = ((past s 1).setX (byteOf (s.x.toNat + 1))).setP t.p ∧ ZeroNegative t.x t.p ∧ SameBut [bitZ, bitN] s.p t.p) ∧
    (Completes .iny s fun t => t = ((past s 1).setY (byteOf (s.y.toNat + 1))).setP t.p ∧ ZeroNegative t.y t.p ∧ SameBut [bitZ, bitN] s.p t.p) ∧
    (Completes .dex s fun t => t = ((past s 1).setX (byteOf (s.x.toNat + 255))).setP t.p ∧ ZeroNegative t.x t.p ∧ SameBut [bitZ, bitN] s.p t.p) ∧
    (Completes .dey s fun t => t = ((past s 1).setY (byteOf (s.y.toNat + 255))).setP t.p ∧ ZeroNegative t.y t.p ∧ SameBut [bitZ, bitN] s.p t.p)

/-- TAX, TAY, TXA, TYA, TSX copy and set `Z` and `N`; TXS copies and sets no flag (R232 to R237). -/
def Obligations.Transfers : Prop :=
  (encode .tax = [0xAA] ∧ encode .tay = [0xA8] ∧ encode .txa = [0x8A] ∧ encode .tya = [0x98] ∧ encode .tsx = [0xBA] ∧
   encode .txs = [0x9A]) ∧
  ∀ s : State,
    (Completes .tax s fun t => t = ((past s 1).setX s.a).setP t.p ∧ ZeroNegative s.a t.p ∧ SameBut [bitZ, bitN] s.p t.p) ∧
    (Completes .tay s fun t => t = ((past s 1).setY s.a).setP t.p ∧ ZeroNegative s.a t.p ∧ SameBut [bitZ, bitN] s.p t.p) ∧
    (Completes .txa s fun t => t = ((past s 1).setA s.x).setP t.p ∧ ZeroNegative s.x t.p ∧ SameBut [bitZ, bitN] s.p t.p) ∧
    (Completes .tya s fun t => t = ((past s 1).setA s.y).setP t.p ∧ ZeroNegative s.y t.p ∧ SameBut [bitZ, bitN] s.p t.p) ∧
    (Completes .tsx s fun t => t = ((past s 1).setX s.sp).setP t.p ∧ ZeroNegative s.sp t.p ∧ SameBut [bitZ, bitN] s.p t.p) ∧
    (Completes .txs s fun t => t = (past s 1).setSp s.x)

/-- The eight branches: `PC` at the signed target if the flag is as tested, else past the two bytes; nothing else (R185,
R250 to R258). -/
def Obligations.Branches : Prop :=
  ∀ (s : State) (d : Byte),
    (encode (.bpl d) = [0x10, d] ∧ encode (.bmi d) = [0x30, d] ∧ encode (.bvc d) = [0x50, d] ∧ encode (.bvs d) = [0x70, d] ∧
     encode (.bcc d) = [0x90, d] ∧ encode (.bcs d) = [0xB0, d] ∧ encode (.bne d) = [0xD0, d] ∧ encode (.beq d) = [0xF0, d]) ∧
    let taken := s.setPc (branchTarget s.pc d)
    let notTaken := past s 2
    exec (.bpl d) s = .next (if flag s.p bitN = false then taken else notTaken) ∧
    exec (.bmi d) s = .next (if flag s.p bitN = true then taken else notTaken) ∧
    exec (.bvc d) s = .next (if flag s.p bitV = false then taken else notTaken) ∧
    exec (.bvs d) s = .next (if flag s.p bitV = true then taken else notTaken) ∧
    exec (.bcc d) s = .next (if flag s.p bitC = false then taken else notTaken) ∧
    exec (.bcs d) s = .next (if flag s.p bitC = true then taken else notTaken) ∧
    exec (.bne d) s = .next (if flag s.p bitZ = false then taken else notTaken) ∧
    exec (.beq d) s = .next (if flag s.p bitZ = true then taken else notTaken)

/-- CLC, SEC, CLI, SEI, CLV, CLD, SED write their one flag; NOP writes none; each moves `PC` by one and changes nothing else
(R260 to R267). -/
def Obligations.FlagOperations : Prop :=
  (encode .clc = [0x18] ∧ encode .sec = [0x38] ∧ encode .cli = [0x58] ∧ encode .sei = [0x78] ∧ encode .clv = [0xB8] ∧
   encode .cld = [0xD8] ∧ encode .sed = [0xF8] ∧ encode .nop = [0xEA]) ∧
  ∀ s : State,
    (Completes .clc s fun t => t = (past s 1).setP t.p ∧ flag t.p bitC = false ∧ SameBut [bitC] s.p t.p) ∧
    (Completes .sec s fun t => t = (past s 1).setP t.p ∧ flag t.p bitC = true ∧ SameBut [bitC] s.p t.p) ∧
    (Completes .cli s fun t => t = (past s 1).setP t.p ∧ flag t.p bitI = false ∧ SameBut [bitI] s.p t.p) ∧
    (Completes .sei s fun t => t = (past s 1).setP t.p ∧ flag t.p bitI = true ∧ SameBut [bitI] s.p t.p) ∧
    (Completes .clv s fun t => t = (past s 1).setP t.p ∧ flag t.p bitV = false ∧ SameBut [bitV] s.p t.p) ∧
    (Completes .cld s fun t => t = (past s 1).setP t.p ∧ flag t.p bitD = false ∧ SameBut [bitD] s.p t.p) ∧
    (Completes .sed s fun t => t = (past s 1).setP t.p ∧ flag t.p bitD = true ∧ SameBut [bitD] s.p t.p) ∧
    exec .nop s = .next (past s 1)

/-- PHA pushes `A`, PHP pushes `P` with bits 4 and 5 set; `SP` falls by one modulo 256; no flag changes (R280, R282, R284,
R30). -/
def Obligations.Pushes : Prop :=
  (encode .pha = [0x48] ∧ encode .php = [0x08]) ∧
  ∀ s : State, s.ram.wf →
    (Completes .pha s fun t => t = ((past s 1).setSp (byteOf (s.sp.toNat + 255))).setRam t.ram ∧
      Stored s.ram t.ram [(slot s.sp, s.a)]) ∧
    (Completes .php s fun t => t = ((past s 1).setSp (byteOf (s.sp.toNat + 255))).setRam t.ram ∧
      ∃ b, StatusByte true s.p b ∧ Stored s.ram t.ram [(slot s.sp, b)])

/-- PLA and PLP: `SP` rises by one modulo 256 and the byte there is loaded, into `A` with `Z` and `N`, or into `P` with bit 4
clear and bit 5 set (R281, R283, R285, R31). -/
def Obligations.Pulls : Prop :=
  (encode .pla = [0x68] ∧ encode .plp = [0x28]) ∧
  ∀ s : State,
    let sp := byteOf (s.sp.toNat + 1)
    let b := s.ram.read (slot sp)
    (Completes .pla s fun t => t = (((past s 1).setSp sp).setA b).setP t.p ∧ ZeroNegative b t.p ∧ SameBut [bitZ, bitN] s.p t.p) ∧
    (Completes .plp s fun t => t = ((past s 1).setSp sp).setP t.p ∧ StatusByte false b t.p)

/-- JMP goes to its operand, or to the word its pointer holds, whose high byte comes from the pointer's own page when
`JMP_INDIRECT_PAGE_WRAP` is set; nothing else changes but what the two pointer reads do (R179, R182, R286). -/
def Obligations.Jumps : Prop :=
  ∀ (s : State) (a : Word),
    (encode (.jmp (.abs a)) = [0x4C, byteOf a.toNat, byteOf (a.toNat / 256)] ∧
     encode (.jmp (.ind a)) = [0x6C, byteOf a.toNat, byteOf (a.toNat / 256)]) ∧
    exec (.jmp (.abs a)) s = .next (s.setPc a) ∧
    (∀ (lo hi : Byte) (u w : State), memRead a s = .ok lo u →
      memRead (if s.params.jmpIndirectPageWrap then wordOf (256 * (a.toNat / 256) + (a.toNat + 1) % 256)
        else wordOf (a.toNat + 1)) u = .ok hi w →
      exec (.jmp (.ind a)) s = .next (w.setPc (wordOfBytes hi lo)))

/-- JSR pushes the address of its last byte, high byte first, and goes to its operand; RTS pulls a word, low byte first, and
goes to the address after it; no flag changes (R288, R289). -/
def Obligations.Subroutines : Prop :=
  (∀ a : Word, encode (.jsr a) = [0x20, byteOf a.toNat, byteOf (a.toNat / 256)]) ∧ encode .rts = [0x60] ∧
  ∀ s : State,
    (∀ a : Word, s.ram.wf → Completes (.jsr a) s fun t =>
      let r := (s.pc.toNat + 2) % 65536
      t = ((s.setPc a).setSp (byteOf (s.sp.toNat + 254))).setRam t.ram ∧
      Stored s.ram t.ram [(slot s.sp, byteOf (r / 256)), (slot (byteOf (s.sp.toNat + 255)), byteOf r)]) ∧
    (exec .rts s = .next ((s.setPc (wordOf ((wordOfBytes (s.ram.read (slot (byteOf (s.sp.toNat + 2))))
      (s.ram.read (slot (byteOf (s.sp.toNat + 1))))).toNat + 1))).setSp (byteOf (s.sp.toNat + 2))))

/-- BRK: pushes the address two past its opcode, high byte first, and `P` with bits 4 and 5 set; sets `I`; goes to the word
at `0xFFFE`; with no cartridge it faults at that vector (R292, R309). -/
def Obligations.SoftwareTrap : Prop :=
  encode .brk = [0x00] ∧
  ∀ s : State,
    (∀ lo hi : Byte, s.ram.wf → memRead 0xFFFE s = .ok lo s → memRead 0xFFFF s = .ok hi s →
      Completes .brk s fun t =>
        let r := (s.pc.toNat + 2) % 65536
        t = (((s.setPc (wordOfBytes hi lo)).setSp (byteOf (s.sp.toNat + 253))).setP t.p).setRam t.ram ∧
        flag t.p bitI = true ∧ SameBut [bitI] s.p t.p ∧
        ∃ b, StatusByte true s.p b ∧ Stored s.ram t.ram
          [(slot s.sp, byteOf (r / 256)), (slot (byteOf (s.sp.toNat + 255)), byteOf r), (slot (byteOf (s.sp.toNat + 254)), b)]) ∧
    (s.cart = none → exec .brk s = .fault (.busContractViolation 0xFFFE))

/-- RTI: pulls `P`, bit 4 cleared and bit 5 set, then the address it goes to, low byte first (R290, R310). -/
def Obligations.ReturnFromTrap : Prop :=
  encode .rti = [0x40] ∧
  ∀ s : State,
    Completes .rti s fun t =>
      t = ((s.setPc (wordOfBytes (s.ram.read (slot (byteOf (s.sp.toNat + 3)))) (s.ram.read (slot (byteOf (s.sp.toNat + 2)))))).setSp
        (byteOf (s.sp.toNat + 3))).setP t.p ∧
      StatusByte false (s.ram.read (slot (byteOf (s.sp.toNat + 1)))) t.p

/-- What is pushed comes back: PHA then PLA, PHP then PLP, JSR then RTS, BRK then RTI restore `SP` at every stack pointer, and
the register, the status, or the place to continue at (R281, R285, R289, R290). -/
def Obligations.StackRoundTrips : Prop :=
  ∀ s t : State, s.ram.wf → statusLegal s.p →
    (exec .pha s = .next t → Completes .pla t fun w => w.a = s.a ∧ w.sp = s.sp) ∧
    (exec .php s = .next t → Completes .plp t fun w => w.p = s.p ∧ w.sp = s.sp) ∧
    (∀ a, exec (.jsr a) s = .next t → Completes .rts t fun w => w.pc = wordOf (s.pc.toNat + 3) ∧ w.sp = s.sp ∧ w.p = s.p) ∧
    (exec .brk s = .next t → Completes .rti t fun w => w.pc = wordOf (s.pc.toNat + 2) ∧ w.sp = s.sp ∧ w.p = s.p)

/-! The host's operations. -/

/-- Reset: `PC` from the vector at `0xFFFC`, `SP`, `P` and `cyc` at their values, any recorded fault cleared, all else kept;
with no cartridge it faults at the vector, no register changed (R331, R332, R333). R331 and the decision D13 clear a recorded
`UnimplementedOpcode`; that a recorded `BusContractViolation` is cleared too is the model's choice (log entry 4). -/
def Obligations.ResetOperation : Prop :=
  ∀ s : State,
    (∀ lo hi : Byte, memRead 0xFFFC s = .ok lo s → memRead 0xFFFD s = .ok hi s →
      hostReset s = .next (((((s.setPc (wordOfBytes hi lo)).setSp 0xFD).setP 0x24).setCyc 0).setReport none)) ∧
    (s.attached → ∃ t, hostReset s = .next t) ∧
    (s.cart = none → hostReset s = .fault (.busContractViolation 0xFFFC) ∧
      resetLeaves s = some (s.setReport (some (.busContractViolation 0xFFFC))))

/-- The load checks in their order, the first that fails deciding the error (R82, R85, R88, R91). -/
def Obligations.LoadErrors : Prop :=
  ∀ (image : List Byte) (s : State),
    let h (k : Nat) : Nat := (image.getD k 0).toNat
    let declared := 16 + (if (image.getD 6 0).getLsbD 2 then 512 else 0) + h 4 * 16384 + h 5 * 8192
    let mapper := h 7 / 16 * 16 + h 6 / 16
    (image.take 4 ≠ [0x4E, 0x45, 0x53, 0x1A] → attach image s = .error .invalidHeader) ∧
    (image.take 4 = [0x4E, 0x45, 0x53, 0x1A] → image.length < 16 ∨ image.length < declared →
      attach image s = .error .truncatedRom) ∧
    (image.take 4 = [0x4E, 0x45, 0x53, 0x1A] → 16 ≤ image.length → declared ≤ image.length → mapper ≠ 0 →
      attach image s = .error (.unsupportedMapper (byteOf mapper))) ∧
    (image.take 4 = [0x4E, 0x45, 0x53, 0x1A] → 16 ≤ image.length → declared ≤ image.length → mapper = 0 → h 4 ≠ 1 → h 4 ≠ 2 →
      attach image s = .error .invalidHeader)

/-- A load that passes the checks: the header fields and the ROM bytes at their places in the image, the pattern tables from
CHR or zero, and nothing else changed (R80, R81, R84, R87, R96). -/
def Obligations.LoadAttaches : Prop :=
  ∀ (image : List Byte) (s : State),
    let h (k : Nat) : Nat := (image.getD k 0).toNat
    let start := 16 + (if (image.getD 6 0).getLsbD 2 then 512 else 0)
    image.take 4 = [0x4E, 0x45, 0x53, 0x1A] → start + h 4 * 16384 + h 5 * 8192 ≤ image.length → h 7 / 16 = 0 → h 6 / 16 = 0 →
    (h 4 = 1 ∨ h 4 = 2) →
    ∃ (t : State) (c : Cart), attach image s = .ok t ∧
      t = (s.setCart (some c)).setPpu { s.ppu with pt := t.ppu.pt } ∧
      c.prgBanks.toNat = h 4 ∧ c.chrBanks.toNat = h 5 ∧ c.mapperId = 0 ∧
      (c.mirroring = .vertical ↔ h 6 % 2 = 1) ∧ (c.battery = true ↔ h 6 / 2 % 2 = 1) ∧ (c.trainerPresent = true ↔ h 6 / 4 % 2 = 1) ∧
      (∀ k, k < h 4 * 16384 → c.prg.read k = image.getD (start + k) 0) ∧
      (∀ k, k < h 5 * 8192 → c.chr.read k = image.getD (start + h 4 * 16384 + k) 0) ∧
      (∀ k, k < 8192 → t.ppu.pt.read k = if h 5 = 0 then 0 else c.chr.read k)

/-- The optional interrupts: with the inputs present an entry pushes `PC` and `P` with bit 4 clear, sets `I`, goes to the
vector and adds 7 to the counter; IRQ is ignored when `I` is set, NMI is not (R307, R306). With no cartridge the entry faults at
the vector, the pushes made and `I` set (R303). A stopped machine stays as it is, since only a reset changes that (R302, R303; log
entry 20). That a call of an absent input does nothing is the model's choice (log entry 15). -/
def Obligations.OptionalInterrupts : Prop :=
  ∀ (s : State) (lo hi : Byte), s.ram.wf →
    let Pushed (t : State) : Prop :=
      flag t.p bitI = true ∧ SameBut [bitI] s.p t.p ∧
      ∃ b, StatusByte false s.p b ∧ Stored s.ram t.ram
        [(slot s.sp, byteOf (s.pc.toNat / 256)), (slot (byteOf (s.sp.toNat + 255)), byteOf s.pc.toNat),
          (slot (byteOf (s.sp.toNat + 254)), b)]
    let Entered (t : State) : Prop :=
      t = ((((s.setPc (wordOfBytes hi lo)).setSp (byteOf (s.sp.toNat + 253))).setP t.p).setRam t.ram).setCyc (s.cyc + 7) ∧ Pushed t
    let Failed (vector : Word) (left : Option State) : Prop :=
      ∃ t, left = some (t.setReport (some (.busContractViolation vector))) ∧
        t = ((s.setSp (byteOf (s.sp.toNat + 253))).setP t.p).setRam t.ram ∧ Pushed t
    (s.params.hwInterruptInputs = true → Running s → flag s.p bitI = false → memRead 0xFFFE s = .ok lo s → memRead 0xFFFF s = .ok hi s →
      ∃ t, irq s = .next t ∧ Entered t) ∧
    (s.params.hwInterruptInputs = true → flag s.p bitI = true → irq s = .next s) ∧
    (s.params.hwInterruptInputs = true → Running s → memRead 0xFFFA s = .ok lo s → memRead 0xFFFB s = .ok hi s →
      ∃ t, nmi s = .next t ∧ Entered t) ∧
    (s.params.hwInterruptInputs = true → Running s → s.cart = none →
      (flag s.p bitI = false → irq s = .fault (.busContractViolation 0xFFFE) ∧ Failed 0xFFFE (irqLeaves s)) ∧
      nmi s = .fault (.busContractViolation 0xFFFA) ∧ Failed 0xFFFA (nmiLeaves s)) ∧
    ((∃ f, Stopped s f) → irq s = .next s ∧ nmi s = .next s) ∧
    (s.params.hwInterruptInputs = false → irq s = .next s ∧ nmi s = .next s)

/-- A stopped machine stays stopped by its fault whatever the host does but reset: through any sequence of ticks, attachments and
interrupts every tick is that fault, and nothing changes but the cartridge and the pattern tables an attachment loads. A reset that
completes leaves it running, and with a cartridge attached, or after an attachment, it completes (R302, R303). That a tick of the
stopped machine makes no access, and that `irq` and `nmi` do nothing there, is read from these rules (log entry 20); that reset
clears a recorded `BusContractViolation` is the model's choice (log entry 4). -/
def Obligations.StoppedUntilReset : Prop :=
  ∀ (s : State) (f : Fault), Stopped s f →
    (∀ (events : List HostEvent),
      let t := events.foldl happen s
      Stopped t f ∧ step t = .fault f ∧ t = (s.setCart t.cart).setPpu { s.ppu with pt := t.ppu.pt }) ∧
    (∀ t, hostReset s = .next t → Running t) ∧
    (s.attached → ∃ t, hostReset s = .next t ∧ Running t) ∧
    (∀ (image : List Byte) (u : State), attach image s = .ok u → ∃ t, hostReset u = .next t ∧ Running t)
end

