-- ==== Sys2Proof/Laws/Exec.lean ====
section
/-! SUPPORT. How a computation runs on a state: one equation per way of building one. -/

namespace Sys2Proof.Machine

variable {α β : Type}

theorem bind_ok {x : Exec α} {f : α → Exec β} {s t : State} {a : α} (h : x s = .ok a t) :
    (x >>= f) s = f a t := by
  simp [bind, EStateM.bind, h]

theorem bind_error {x : Exec α} {f : α → Exec β} {s t : State} {e : Fault} (h : x s = .error e t) :
    (x >>= f) s = .error e t := by
  simp [bind, EStateM.bind, h]

/-- A sequence answers a value exactly if both its parts do. -/
theorem bind_eq_ok {x : Exec α} {f : α → Exec β} {s t : State} {b : β} :
    (x >>= f) s = .ok b t ↔ ∃ a u, x s = .ok a u ∧ f a u = .ok b t := by
  constructor
  · intro h
    cases hx : x s with
    | ok a u => exact ⟨a, u, rfl, (bind_ok hx).symm.trans h⟩
    | error e u => rw [bind_error hx] at h; cases h
  · rintro ⟨a, u, hx, hf⟩
    rw [bind_ok hx, hf]

/-- A sequence raises a fault exactly if its first part does, or its second does after it. -/
theorem bind_eq_error {x : Exec α} {f : α → Exec β} {s t : State} {e : Fault} :
    (x >>= f) s = .error e t ↔ x s = .error e t ∨ ∃ a u, x s = .ok a u ∧ f a u = .error e t := by
  cases hx : x s with
  | ok a u =>
    rw [bind_ok hx]
    refine ⟨fun h => .inr ⟨a, u, rfl, h⟩, ?_⟩
    rintro (h | ⟨_, _, h, hf⟩)
    · cases h
    · cases h; exact hf
  | error e' u =>
    rw [bind_error hx]
    constructor
    · intro h; cases h; exact .inl rfl
    · rintro (h | ⟨_, _, h, _⟩) <;> cases h
      rfl

@[simp] theorem pure_run (a : α) (s : State) : (pure a : Exec α) s = .ok a s := rfl

@[simp] theorem get_run (s : State) : (get : Exec State) s = .ok s s := rfl

@[simp] theorem modify_run (f : State → State) (s : State) : (modify f : Exec Unit) s = .ok () (f s) := rfl

@[simp] theorem get_bind (f : State → Exec β) (s : State) : ((get : Exec State) >>= f) s = f s s := rfl

@[simp] theorem pure_bind_run (a : α) (f : α → Exec β) (s : State) : ((pure a : Exec α) >>= f) s = f a s := rfl

@[simp] theorem modify_bind (g : State → State) (f : Unit → Exec β) (s : State) :
    ((modify g : Exec Unit) >>= f) s = f () (g s) := rfl

theorem outcome_ok {x : Exec Unit} {s t : State} {u : Unit} (h : x s = .ok u t) : outcome x s = .next t := by
  simp [outcome, h]

theorem outcome_error {x : Exec Unit} {s t : State} {e : Fault} (h : x s = .error e t) : outcome x s = .fault e := by
  simp [outcome, h]

theorem outcome_eq_next {x : Exec Unit} {s t : State} : outcome x s = .next t ↔ x s = .ok () t := by
  cases h : x s with
  | ok u v => cases u; simp [outcome, h]
  | error e v => simp [outcome, h]

/-- A fault of the outcome is the computation's. -/
theorem outcome_eq_fault {x : Exec Unit} {s : State} {e : Fault} : outcome x s = .fault e ↔ ∃ t, x s = .error e t := by
  cases h : x s with
  | ok u v => simp [outcome, h]
  | error e' v => simp [outcome, h]

theorem outcome_ne_refused {x : Exec Unit} {s : State} {r : Refusal} : outcome x s ≠ .refused r := by
  cases h : x s <;> simp [outcome, h]

end Sys2Proof.Machine
end

