-- ==== Sys2Proof/Laws/Memory.lean ====
section
/-! SUPPORT. Byte memories: what a read sees after a write, and that every operation keeps the canonical form. -/

namespace Sys2Proof.Machine

/-- A read sees the byte last written at its index, and every other byte as it was. -/
theorem Memory.read_write (m : Memory) (i j : Nat) (v : Byte) (hm : m.wf) :
    (m.write i v).read j = if j = i then v else m.read j := by
  induction m with
  | nil =>
    by_cases hv : v = Memory.unlisted <;> by_cases hj : j = i <;>
      simp [Memory.write, Memory.read, hv, hj, eq_comm] <;> intro h <;> exact absurd h (by simp_all)
  | cons c rest ih =>
    have hrest : Memory.wf rest := ⟨(List.pairwise_cons.mp hm.1).2, fun d hd => hm.2 d (List.mem_cons_of_mem _ hd)⟩
    have hlow : ∀ d ∈ rest, c.1 < d.1 := (List.pairwise_cons.mp hm.1).1
    have hread : ∀ k, k ≤ c.1 → Memory.read rest k = Memory.unlisted := by
      intro k hk
      clear ih hm
      induction rest with
      | nil => rfl
      | cons d r ihr =>
        have hd : c.1 < d.1 := hlow d (List.mem_cons_self ..)
        have : d.1 ≠ k := by omega
        simp only [Memory.read, this, if_false]
        exact ihr ⟨(List.pairwise_cons.mp hrest.1).2, fun e he => hrest.2 e (List.mem_cons_of_mem _ he)⟩
          (fun e he => hlow e (List.mem_cons_of_mem _ he))
    simp only [Memory.write]
    split
    · rename_i hlt
      by_cases hv : v = Memory.unlisted
      · simp only [hv, if_true]
        by_cases hj : j = i
        · subst hj
          have : c.1 ≠ j := by omega
          simp [Memory.read, this, hread j (by omega)]
        · simp [hj]
      · simp only [hv, if_false]
        by_cases hj : j = i
        · simp [Memory.read, hj]
        · have : ¬ i = j := fun h => hj h.symm
          simp [Memory.read, hj, this]
    · split
      · rename_i heq
        by_cases hv : v = Memory.unlisted
        · simp only [hv, if_true]
          by_cases hj : j = i
          · simp [hj, hread i (by omega)]
          · have : c.1 ≠ j := by omega
            simp [Memory.read, hj, this]
        · simp only [hv, if_false]
          by_cases hj : j = i
          · simp [Memory.read, hj]
          · have h1 : c.1 ≠ j := by omega
            have h2 : ¬ i = j := fun h => hj h.symm
            simp [Memory.read, hj, h1, h2]
      · rename_i hne
        by_cases hc : c.1 = j
        · have : j ≠ i := by omega
          simp [Memory.read, hc, this]
        · simp [Memory.read, hc, ih hrest]

/-- Every listed index after a write was listed before, or is the one written. -/
theorem Memory.mem_write {m : Memory} {i : Nat} {v : Byte} {d : Host.Cell} (h : d ∈ m.write i v) :
    d ∈ m ∨ (d = (i, v) ∧ v ≠ Memory.unlisted) := by
  induction m with
  | nil =>
    simp only [Memory.write] at h
    split at h
    · cases h
    · simp at h; exact .inr ⟨h, ‹_›⟩
  | cons c rest ih =>
    simp only [Memory.write] at h
    split at h
    · split at h
      · exact .inl h
      · rcases List.mem_cons.mp h with h | h
        · exact .inr ⟨h, ‹_›⟩
        · exact .inl h
    · split at h
      · split at h
        · exact .inl (List.mem_cons_of_mem _ h)
        · rcases List.mem_cons.mp h with h | h
          · exact .inr ⟨h, ‹_›⟩
          · exact .inl (List.mem_cons_of_mem _ h)
      · rcases List.mem_cons.mp h with h | h
        · exact .inl (h ▸ List.mem_cons_self ..)
        · rcases ih h with h | h
          · exact .inl (List.mem_cons_of_mem _ h)
          · exact .inr h

/-- A write keeps the canonical form. -/
theorem Memory.write_wf {m : Memory} (hm : m.wf) (i : Nat) (v : Byte) : (m.write i v).wf := by
  refine ⟨?_, fun d hd => ?_⟩
  · induction m with
    | nil =>
      simp only [Memory.write]
      split <;> simp
    | cons c rest ih =>
      have hp := List.pairwise_cons.mp hm.1
      have hrest : Memory.wf rest := ⟨hp.2, fun d hd => hm.2 d (List.mem_cons_of_mem _ hd)⟩
      simp only [Memory.write]
      split
      · split
        · exact hm.1
        · rename_i hlt _
          refine List.pairwise_cons.mpr ⟨fun d hd => ?_, hm.1⟩
          rcases List.mem_cons.mp hd with h | h
          · exact h ▸ hlt
          · exact Nat.lt_trans hlt (hp.1 d h)
      · split
        · split
          · exact hp.2
          · rename_i heq _
            exact List.pairwise_cons.mpr ⟨fun d hd => by simpa [heq] using hp.1 d hd, hp.2⟩
        · rename_i h1 h2
          refine List.pairwise_cons.mpr ⟨fun d hd => ?_, ih hrest⟩
          rcases Memory.mem_write hd with h | ⟨h, _⟩
          · exact hp.1 d h
          · simp [h]; omega
  · rcases Memory.mem_write hd with h | ⟨h, hv⟩
    · exact hm.2 d h
    · simpa [h] using hv

/-- A write inside a memory keeps it inside. -/
theorem Memory.write_within {n : Nat} {m : Memory} (hm : m.within n) {i : Nat} (hi : i < n) (v : Byte) :
    (m.write i v).within n := by
  intro d hd
  rcases Memory.mem_write hd with h | ⟨h, _⟩
  · exact hm d h
  · simpa [h] using hi

theorem Memory.mem_ofBytes {i : Nat} {bs : List Byte} {d : Host.Cell} (h : d ∈ Memory.ofBytes i bs) :
    i ≤ d.1 ∧ d.1 < i + bs.length ∧ d.2 ≠ Memory.unlisted := by
  induction bs generalizing i with
  | nil => cases h
  | cons b rest ih =>
    simp only [Memory.ofBytes] at h
    simp only [List.length_cons]
    split at h
    · obtain ⟨h1, h2, h3⟩ := ih h
      exact ⟨by omega, by omega, h3⟩
    · rcases List.mem_cons.mp h with h | h
      · subst h; exact ⟨Nat.le_refl _, by simp, ‹_›⟩
      · obtain ⟨h1, h2, h3⟩ := ih h
        exact ⟨by omega, by omega, h3⟩

/-- The memory of a byte string is canonical. -/
theorem Memory.ofBytes_wf (i : Nat) (bs : List Byte) : (Memory.ofBytes i bs).wf := by
  refine ⟨?_, fun d hd => (Memory.mem_ofBytes hd).2.2⟩
  induction bs generalizing i with
  | nil => exact List.Pairwise.nil
  | cons b rest ih =>
    simp only [Memory.ofBytes]
    split
    · exact ih _
    · refine List.pairwise_cons.mpr ⟨fun d hd => ?_, ih _⟩
      have := (Memory.mem_ofBytes hd).1
      exact this

theorem Memory.ofBytes_within (bs : List Byte) (n : Nat) (h : bs.length ≤ n) : (Memory.ofBytes 0 bs).within n :=
  fun _ hd => by have := (Memory.mem_ofBytes hd).2.1; omega

/-- The memory of a byte string holds byte `j` of it at index `i + j`. -/
theorem Memory.read_ofBytes (i j : Nat) (bs : List Byte) :
    (Memory.ofBytes i bs).read (i + j) = bs.getD j Memory.unlisted := by
  have hout : ∀ (m : Memory) (k : Nat), (∀ d ∈ m, d.1 ≠ k) → m.read k = Memory.unlisted := by
    intro m k hk
    induction m with
    | nil => rfl
    | cons c r ih =>
      simp only [Memory.read, hk c (List.mem_cons_self ..), if_false]
      exact ih fun d hd => hk d (List.mem_cons_of_mem _ hd)
  induction bs generalizing i j with
  | nil => rfl
  | cons b rest ih =>
    cases j with
    | zero =>
      simp only [Memory.ofBytes]
      split
      · rename_i hb
        rw [hout _ _ fun d hd => by have := (Memory.mem_ofBytes hd).1; omega]
        simp [hb]
      · simp [Memory.read]
    | succ k =>
      have hk : i + (k + 1) = (i + 1) + k := by omega
      simp only [Memory.ofBytes]
      split
      · rw [hk, ih]; simp
      · have : i ≠ i + (k + 1) := by omega
        simp only [Memory.read, this, if_false]
        rw [hk, ih]; simp

/-- The first bytes of a memory read as in the memory. -/
theorem Memory.read_below (m : Memory) {n i : Nat} (h : i < n) : (m.below n).read i = m.read i := by
  induction m with
  | nil => rfl
  | cons c rest ih =>
    have ih' : Memory.read (List.filter (fun c => decide (c.1 < n)) rest) i = Memory.read rest i := ih
    by_cases hc : c.1 < n
    · simp [Memory.below, List.filter, hc, Memory.read, ih']
    · have : c.1 ≠ i := by omega
      simp [Memory.below, List.filter, hc, Memory.read, this, ih']

theorem Memory.below_wf {m : Memory} (hm : m.wf) (n : Nat) : (m.below n).wf :=
  ⟨hm.1.sublist (List.filter_sublist ..), fun d hd => hm.2 d (List.mem_filter.mp hd).1⟩

theorem Memory.below_within (m : Memory) (n : Nat) : (m.below n).within n :=
  fun _ hd => by simpa using (List.mem_filter.mp hd).2

end Sys2Proof.Machine
end

