-- ==== Sys2Proof/Laws/State.lean ====
section
/-! SUPPORT. One lemma per field per update of State: an update writes its own field and no other. -/

namespace Sys2Proof.Machine

variable (s : State)

section
variable (v : Word)
@[simp] theorem State.setPc_pc : (s.setPc v).pc = v := rfl
@[simp] theorem State.setPc_sp : (s.setPc v).sp = s.sp := rfl
@[simp] theorem State.setPc_a : (s.setPc v).a = s.a := rfl
@[simp] theorem State.setPc_x : (s.setPc v).x = s.x := rfl
@[simp] theorem State.setPc_y : (s.setPc v).y = s.y := rfl
@[simp] theorem State.setPc_p : (s.setPc v).p = s.p := rfl
@[simp] theorem State.setPc_cyc : (s.setPc v).cyc = s.cyc := rfl
@[simp] theorem State.setPc_op : (s.setPc v).op = s.op := rfl
@[simp] theorem State.setPc_prevPC : (s.setPc v).prevPC = s.prevPC := rfl
@[simp] theorem State.setPc_ram : (s.setPc v).ram = s.ram := rfl
@[simp] theorem State.setPc_ppu : (s.setPc v).ppu = s.ppu := rfl
@[simp] theorem State.setPc_cart : (s.setPc v).cart = s.cart := rfl
@[simp] theorem State.setPc_report : (s.setPc v).report = s.report := rfl
@[simp] theorem State.setPc_params : (s.setPc v).params = s.params := rfl
@[simp] theorem State.setPc_draws : (s.setPc v).draws = s.draws := rfl
end

section
variable (v : Byte)
@[simp] theorem State.setSp_pc : (s.setSp v).pc = s.pc := rfl
@[simp] theorem State.setSp_sp : (s.setSp v).sp = v := rfl
@[simp] theorem State.setSp_a : (s.setSp v).a = s.a := rfl
@[simp] theorem State.setSp_x : (s.setSp v).x = s.x := rfl
@[simp] theorem State.setSp_y : (s.setSp v).y = s.y := rfl
@[simp] theorem State.setSp_p : (s.setSp v).p = s.p := rfl
@[simp] theorem State.setSp_cyc : (s.setSp v).cyc = s.cyc := rfl
@[simp] theorem State.setSp_op : (s.setSp v).op = s.op := rfl
@[simp] theorem State.setSp_prevPC : (s.setSp v).prevPC = s.prevPC := rfl
@[simp] theorem State.setSp_ram : (s.setSp v).ram = s.ram := rfl
@[simp] theorem State.setSp_ppu : (s.setSp v).ppu = s.ppu := rfl
@[simp] theorem State.setSp_cart : (s.setSp v).cart = s.cart := rfl
@[simp] theorem State.setSp_report : (s.setSp v).report = s.report := rfl
@[simp] theorem State.setSp_params : (s.setSp v).params = s.params := rfl
@[simp] theorem State.setSp_draws : (s.setSp v).draws = s.draws := rfl
end

section
variable (v : Byte)
@[simp] theorem State.setA_pc : (s.setA v).pc = s.pc := rfl
@[simp] theorem State.setA_sp : (s.setA v).sp = s.sp := rfl
@[simp] theorem State.setA_a : (s.setA v).a = v := rfl
@[simp] theorem State.setA_x : (s.setA v).x = s.x := rfl
@[simp] theorem State.setA_y : (s.setA v).y = s.y := rfl
@[simp] theorem State.setA_p : (s.setA v).p = s.p := rfl
@[simp] theorem State.setA_cyc : (s.setA v).cyc = s.cyc := rfl
@[simp] theorem State.setA_op : (s.setA v).op = s.op := rfl
@[simp] theorem State.setA_prevPC : (s.setA v).prevPC = s.prevPC := rfl
@[simp] theorem State.setA_ram : (s.setA v).ram = s.ram := rfl
@[simp] theorem State.setA_ppu : (s.setA v).ppu = s.ppu := rfl
@[simp] theorem State.setA_cart : (s.setA v).cart = s.cart := rfl
@[simp] theorem State.setA_report : (s.setA v).report = s.report := rfl
@[simp] theorem State.setA_params : (s.setA v).params = s.params := rfl
@[simp] theorem State.setA_draws : (s.setA v).draws = s.draws := rfl
end

section
variable (v : Byte)
@[simp] theorem State.setX_pc : (s.setX v).pc = s.pc := rfl
@[simp] theorem State.setX_sp : (s.setX v).sp = s.sp := rfl
@[simp] theorem State.setX_a : (s.setX v).a = s.a := rfl
@[simp] theorem State.setX_x : (s.setX v).x = v := rfl
@[simp] theorem State.setX_y : (s.setX v).y = s.y := rfl
@[simp] theorem State.setX_p : (s.setX v).p = s.p := rfl
@[simp] theorem State.setX_cyc : (s.setX v).cyc = s.cyc := rfl
@[simp] theorem State.setX_op : (s.setX v).op = s.op := rfl
@[simp] theorem State.setX_prevPC : (s.setX v).prevPC = s.prevPC := rfl
@[simp] theorem State.setX_ram : (s.setX v).ram = s.ram := rfl
@[simp] theorem State.setX_ppu : (s.setX v).ppu = s.ppu := rfl
@[simp] theorem State.setX_cart : (s.setX v).cart = s.cart := rfl
@[simp] theorem State.setX_report : (s.setX v).report = s.report := rfl
@[simp] theorem State.setX_params : (s.setX v).params = s.params := rfl
@[simp] theorem State.setX_draws : (s.setX v).draws = s.draws := rfl
end

section
variable (v : Byte)
@[simp] theorem State.setY_pc : (s.setY v).pc = s.pc := rfl
@[simp] theorem State.setY_sp : (s.setY v).sp = s.sp := rfl
@[simp] theorem State.setY_a : (s.setY v).a = s.a := rfl
@[simp] theorem State.setY_x : (s.setY v).x = s.x := rfl
@[simp] theorem State.setY_y : (s.setY v).y = v := rfl
@[simp] theorem State.setY_p : (s.setY v).p = s.p := rfl
@[simp] theorem State.setY_cyc : (s.setY v).cyc = s.cyc := rfl
@[simp] theorem State.setY_op : (s.setY v).op = s.op := rfl
@[simp] theorem State.setY_prevPC : (s.setY v).prevPC = s.prevPC := rfl
@[simp] theorem State.setY_ram : (s.setY v).ram = s.ram := rfl
@[simp] theorem State.setY_ppu : (s.setY v).ppu = s.ppu := rfl
@[simp] theorem State.setY_cart : (s.setY v).cart = s.cart := rfl
@[simp] theorem State.setY_report : (s.setY v).report = s.report := rfl
@[simp] theorem State.setY_params : (s.setY v).params = s.params := rfl
@[simp] theorem State.setY_draws : (s.setY v).draws = s.draws := rfl
end

section
variable (v : Byte)
@[simp] theorem State.setP_pc : (s.setP v).pc = s.pc := rfl
@[simp] theorem State.setP_sp : (s.setP v).sp = s.sp := rfl
@[simp] theorem State.setP_a : (s.setP v).a = s.a := rfl
@[simp] theorem State.setP_x : (s.setP v).x = s.x := rfl
@[simp] theorem State.setP_y : (s.setP v).y = s.y := rfl
@[simp] theorem State.setP_p : (s.setP v).p = v := rfl
@[simp] theorem State.setP_cyc : (s.setP v).cyc = s.cyc := rfl
@[simp] theorem State.setP_op : (s.setP v).op = s.op := rfl
@[simp] theorem State.setP_prevPC : (s.setP v).prevPC = s.prevPC := rfl
@[simp] theorem State.setP_ram : (s.setP v).ram = s.ram := rfl
@[simp] theorem State.setP_ppu : (s.setP v).ppu = s.ppu := rfl
@[simp] theorem State.setP_cart : (s.setP v).cart = s.cart := rfl
@[simp] theorem State.setP_report : (s.setP v).report = s.report := rfl
@[simp] theorem State.setP_params : (s.setP v).params = s.params := rfl
@[simp] theorem State.setP_draws : (s.setP v).draws = s.draws := rfl
end

section
variable (v : Nat)
@[simp] theorem State.setCyc_pc : (s.setCyc v).pc = s.pc := rfl
@[simp] theorem State.setCyc_sp : (s.setCyc v).sp = s.sp := rfl
@[simp] theorem State.setCyc_a : (s.setCyc v).a = s.a := rfl
@[simp] theorem State.setCyc_x : (s.setCyc v).x = s.x := rfl
@[simp] theorem State.setCyc_y : (s.setCyc v).y = s.y := rfl
@[simp] theorem State.setCyc_p : (s.setCyc v).p = s.p := rfl
@[simp] theorem State.setCyc_cyc : (s.setCyc v).cyc = v := rfl
@[simp] theorem State.setCyc_op : (s.setCyc v).op = s.op := rfl
@[simp] theorem State.setCyc_prevPC : (s.setCyc v).prevPC = s.prevPC := rfl
@[simp] theorem State.setCyc_ram : (s.setCyc v).ram = s.ram := rfl
@[simp] theorem State.setCyc_ppu : (s.setCyc v).ppu = s.ppu := rfl
@[simp] theorem State.setCyc_cart : (s.setCyc v).cart = s.cart := rfl
@[simp] theorem State.setCyc_report : (s.setCyc v).report = s.report := rfl
@[simp] theorem State.setCyc_params : (s.setCyc v).params = s.params := rfl
@[simp] theorem State.setCyc_draws : (s.setCyc v).draws = s.draws := rfl
end

section
variable (v : Byte)
@[simp] theorem State.setOp_pc : (s.setOp v).pc = s.pc := rfl
@[simp] theorem State.setOp_sp : (s.setOp v).sp = s.sp := rfl
@[simp] theorem State.setOp_a : (s.setOp v).a = s.a := rfl
@[simp] theorem State.setOp_x : (s.setOp v).x = s.x := rfl
@[simp] theorem State.setOp_y : (s.setOp v).y = s.y := rfl
@[simp] theorem State.setOp_p : (s.setOp v).p = s.p := rfl
@[simp] theorem State.setOp_cyc : (s.setOp v).cyc = s.cyc := rfl
@[simp] theorem State.setOp_op : (s.setOp v).op = v := rfl
@[simp] theorem State.setOp_prevPC : (s.setOp v).prevPC = s.prevPC := rfl
@[simp] theorem State.setOp_ram : (s.setOp v).ram = s.ram := rfl
@[simp] theorem State.setOp_ppu : (s.setOp v).ppu = s.ppu := rfl
@[simp] theorem State.setOp_cart : (s.setOp v).cart = s.cart := rfl
@[simp] theorem State.setOp_report : (s.setOp v).report = s.report := rfl
@[simp] theorem State.setOp_params : (s.setOp v).params = s.params := rfl
@[simp] theorem State.setOp_draws : (s.setOp v).draws = s.draws := rfl
end

section
variable (v : Word)
@[simp] theorem State.setPrevPC_pc : (s.setPrevPC v).pc = s.pc := rfl
@[simp] theorem State.setPrevPC_sp : (s.setPrevPC v).sp = s.sp := rfl
@[simp] theorem State.setPrevPC_a : (s.setPrevPC v).a = s.a := rfl
@[simp] theorem State.setPrevPC_x : (s.setPrevPC v).x = s.x := rfl
@[simp] theorem State.setPrevPC_y : (s.setPrevPC v).y = s.y := rfl
@[simp] theorem State.setPrevPC_p : (s.setPrevPC v).p = s.p := rfl
@[simp] theorem State.setPrevPC_cyc : (s.setPrevPC v).cyc = s.cyc := rfl
@[simp] theorem State.setPrevPC_op : (s.setPrevPC v).op = s.op := rfl
@[simp] theorem State.setPrevPC_prevPC : (s.setPrevPC v).prevPC = v := rfl
@[simp] theorem State.setPrevPC_ram : (s.setPrevPC v).ram = s.ram := rfl
@[simp] theorem State.setPrevPC_ppu : (s.setPrevPC v).ppu = s.ppu := rfl
@[simp] theorem State.setPrevPC_cart : (s.setPrevPC v).cart = s.cart := rfl
@[simp] theorem State.setPrevPC_report : (s.setPrevPC v).report = s.report := rfl
@[simp] theorem State.setPrevPC_params : (s.setPrevPC v).params = s.params := rfl
@[simp] theorem State.setPrevPC_draws : (s.setPrevPC v).draws = s.draws := rfl
end

section
variable (v : Memory)
@[simp] theorem State.setRam_pc : (s.setRam v).pc = s.pc := rfl
@[simp] theorem State.setRam_sp : (s.setRam v).sp = s.sp := rfl
@[simp] theorem State.setRam_a : (s.setRam v).a = s.a := rfl
@[simp] theorem State.setRam_x : (s.setRam v).x = s.x := rfl
@[simp] theorem State.setRam_y : (s.setRam v).y = s.y := rfl
@[simp] theorem State.setRam_p : (s.setRam v).p = s.p := rfl
@[simp] theorem State.setRam_cyc : (s.setRam v).cyc = s.cyc := rfl
@[simp] theorem State.setRam_op : (s.setRam v).op = s.op := rfl
@[simp] theorem State.setRam_prevPC : (s.setRam v).prevPC = s.prevPC := rfl
@[simp] theorem State.setRam_ram : (s.setRam v).ram = v := rfl
@[simp] theorem State.setRam_ppu : (s.setRam v).ppu = s.ppu := rfl
@[simp] theorem State.setRam_cart : (s.setRam v).cart = s.cart := rfl
@[simp] theorem State.setRam_report : (s.setRam v).report = s.report := rfl
@[simp] theorem State.setRam_params : (s.setRam v).params = s.params := rfl
@[simp] theorem State.setRam_draws : (s.setRam v).draws = s.draws := rfl
end

section
variable (v : Ppu)
@[simp] theorem State.setPpu_pc : (s.setPpu v).pc = s.pc := rfl
@[simp] theorem State.setPpu_sp : (s.setPpu v).sp = s.sp := rfl
@[simp] theorem State.setPpu_a : (s.setPpu v).a = s.a := rfl
@[simp] theorem State.setPpu_x : (s.setPpu v).x = s.x := rfl
@[simp] theorem State.setPpu_y : (s.setPpu v).y = s.y := rfl
@[simp] theorem State.setPpu_p : (s.setPpu v).p = s.p := rfl
@[simp] theorem State.setPpu_cyc : (s.setPpu v).cyc = s.cyc := rfl
@[simp] theorem State.setPpu_op : (s.setPpu v).op = s.op := rfl
@[simp] theorem State.setPpu_prevPC : (s.setPpu v).prevPC = s.prevPC := rfl
@[simp] theorem State.setPpu_ram : (s.setPpu v).ram = s.ram := rfl
@[simp] theorem State.setPpu_ppu : (s.setPpu v).ppu = v := rfl
@[simp] theorem State.setPpu_cart : (s.setPpu v).cart = s.cart := rfl
@[simp] theorem State.setPpu_report : (s.setPpu v).report = s.report := rfl
@[simp] theorem State.setPpu_params : (s.setPpu v).params = s.params := rfl
@[simp] theorem State.setPpu_draws : (s.setPpu v).draws = s.draws := rfl
end

section
variable (v : Option Cart)
@[simp] theorem State.setCart_pc : (s.setCart v).pc = s.pc := rfl
@[simp] theorem State.setCart_sp : (s.setCart v).sp = s.sp := rfl
@[simp] theorem State.setCart_a : (s.setCart v).a = s.a := rfl
@[simp] theorem State.setCart_x : (s.setCart v).x = s.x := rfl
@[simp] theorem State.setCart_y : (s.setCart v).y = s.y := rfl
@[simp] theorem State.setCart_p : (s.setCart v).p = s.p := rfl
@[simp] theorem State.setCart_cyc : (s.setCart v).cyc = s.cyc := rfl
@[simp] theorem State.setCart_op : (s.setCart v).op = s.op := rfl
@[simp] theorem State.setCart_prevPC : (s.setCart v).prevPC = s.prevPC := rfl
@[simp] theorem State.setCart_ram : (s.setCart v).ram = s.ram := rfl
@[simp] theorem State.setCart_ppu : (s.setCart v).ppu = s.ppu := rfl
@[simp] theorem State.setCart_cart : (s.setCart v).cart = v := rfl
@[simp] theorem State.setCart_report : (s.setCart v).report = s.report := rfl
@[simp] theorem State.setCart_params : (s.setCart v).params = s.params := rfl
@[simp] theorem State.setCart_draws : (s.setCart v).draws = s.draws := rfl
end

section
variable (v : Option Fault)
@[simp] theorem State.setReport_pc : (s.setReport v).pc = s.pc := rfl
@[simp] theorem State.setReport_sp : (s.setReport v).sp = s.sp := rfl
@[simp] theorem State.setReport_a : (s.setReport v).a = s.a := rfl
@[simp] theorem State.setReport_x : (s.setReport v).x = s.x := rfl
@[simp] theorem State.setReport_y : (s.setReport v).y = s.y := rfl
@[simp] theorem State.setReport_p : (s.setReport v).p = s.p := rfl
@[simp] theorem State.setReport_cyc : (s.setReport v).cyc = s.cyc := rfl
@[simp] theorem State.setReport_op : (s.setReport v).op = s.op := rfl
@[simp] theorem State.setReport_prevPC : (s.setReport v).prevPC = s.prevPC := rfl
@[simp] theorem State.setReport_ram : (s.setReport v).ram = s.ram := rfl
@[simp] theorem State.setReport_ppu : (s.setReport v).ppu = s.ppu := rfl
@[simp] theorem State.setReport_cart : (s.setReport v).cart = s.cart := rfl
@[simp] theorem State.setReport_report : (s.setReport v).report = v := rfl
@[simp] theorem State.setReport_params : (s.setReport v).params = s.params := rfl
@[simp] theorem State.setReport_draws : (s.setReport v).draws = s.draws := rfl
end

section
variable (v : Nat)
@[simp] theorem State.setDraws_pc : (s.setDraws v).pc = s.pc := rfl
@[simp] theorem State.setDraws_sp : (s.setDraws v).sp = s.sp := rfl
@[simp] theorem State.setDraws_a : (s.setDraws v).a = s.a := rfl
@[simp] theorem State.setDraws_x : (s.setDraws v).x = s.x := rfl
@[simp] theorem State.setDraws_y : (s.setDraws v).y = s.y := rfl
@[simp] theorem State.setDraws_p : (s.setDraws v).p = s.p := rfl
@[simp] theorem State.setDraws_cyc : (s.setDraws v).cyc = s.cyc := rfl
@[simp] theorem State.setDraws_op : (s.setDraws v).op = s.op := rfl
@[simp] theorem State.setDraws_prevPC : (s.setDraws v).prevPC = s.prevPC := rfl
@[simp] theorem State.setDraws_ram : (s.setDraws v).ram = s.ram := rfl
@[simp] theorem State.setDraws_ppu : (s.setDraws v).ppu = s.ppu := rfl
@[simp] theorem State.setDraws_cart : (s.setDraws v).cart = s.cart := rfl
@[simp] theorem State.setDraws_report : (s.setDraws v).report = s.report := rfl
@[simp] theorem State.setDraws_params : (s.setDraws v).params = s.params := rfl
@[simp] theorem State.setDraws_draws : (s.setDraws v).draws = v := rfl
end

end Sys2Proof.Machine
end

