-- ==== Sys2Proof/Laws/Ppu.lean ====
section
/-! SUPPORT. The PPU window: what an access to it can change, when it answers, and that it keeps the memories canonical. -/

namespace Sys2Proof.Machine

/-- Setting the PPU to what it is changes nothing. -/
@[simp] theorem State.setPpu_self (s : State) : s.setPpu s.ppu = s := rfl

@[simp] theorem State.setDraws_self (s : State) : s.setDraws s.draws = s := rfl

/-- The three kinds of VRAM cell and their index ranges (spec/22_ppu_interface.md R130). -/
inductive VramCell.inRange : VramCell → Prop where
  | pattern {i : Nat} (h : i < 8192) : VramCell.inRange (.pattern i)
  | nametable {i : Nat} (h : i < 2048) : VramCell.inRange (.nametable i)
  | palette {i : Nat} (h : i < 32) : VramCell.inRange (.palette i)

theorem and_one_le (w : Word) : (w &&& 1).toNat ≤ 1 := by
  have : w.toNat &&& 1 = w.toNat % 2 := Nat.and_one_is_mod _
  have h : (w &&& 1).toNat = w.toNat &&& 1 := by simp [BitVec.toNat_and]
  omega

theorem ntTable_le (c : MirrorConvention) (m : Mirroring) (a : Word) : ntTable c m a ≤ 1 := by
  cases c <;> cases m <;> exact and_one_le _

theorem palIndex_lt (a : Word) : palIndex a < 32 := by
  have h : (a &&& 0x1F).toNat < 32 := by
    have : (a &&& 0x1F).toNat ≤ 0x1F := by
      rw [BitVec.toNat_and]; exact Nat.and_le_right
    omega
  simp only [palIndex]
  split <;> omega

/-- A VRAM address resolves to a cell that exists. -/
theorem vramCell_inRange {s : State} {addr : Word} {c : VramCell} (h : vramCell s addr = some c) : c.inRange := by
  simp only [vramCell] at h
  split at h
  · rename_i hlt
    cases h
    exact .pattern (by simpa [BitVec.lt_def] using hlt)
  · split at h
    · split at h
      · cases h
      · rename_i k _
        cases h
        have h1 := ntTable_le s.params.ntMirrorConvention k.mirroring (addr &&& 0x3FFF)
        have h2 : ((addr &&& 0x3FFF) &&& 0x3FF).toNat ≤ 0x3FF := by
          rw [BitVec.toNat_and]; exact Nat.and_le_right
        exact .nametable (by omega)
    · cases h
      exact .palette (palIndex_lt _)

/-- With a cartridge attached every VRAM address resolves (R137). -/
theorem vramCell_attached {s : State} (h : s.attached) (addr : Word) : ∃ c, vramCell s addr = some c := by
  obtain ⟨k, hk⟩ := Option.isSome_iff_exists.mp h
  simp only [vramCell, hk]
  split
  · exact ⟨_, rfl⟩
  · split <;> exact ⟨_, rfl⟩

/-- A read of the window changes the PPU's registers and the draw counter at most. -/
theorem ppuReadRegister_frame {a : Word} {s t : State} {v : Byte} (h : ppuReadRegister a s = .ok v t) :
    t = (s.setPpu t.ppu).setDraws t.draws := by
  cases hsl : slotOf a <;> simp only [ppuReadRegister, hsl] at h
  case status =>
    obtain ⟨r, q, hr, h⟩ := bind_eq_ok.mp h
    simp only [statusByte] at hr
    split at hr <;> cases hr <;> cases h
    · rfl
    · rfl
  case vramData =>
    simp only [get_bind] at h
    obtain ⟨r, q, hr, h⟩ := bind_eq_ok.mp h
    simp only [readVram] at hr
    split at hr <;> cases hr
    cases h
    rfl
  all_goals
    cases h
    rfl

/-- A read of the window answers if a cartridge is attached. -/
theorem ppuReadRegister_attached {s : State} (hs : s.attached) (a : Word) : ∃ v t, ppuReadRegister a s = .ok v t := by
  cases hsl : slotOf a <;> simp only [ppuReadRegister, hsl]
  case status =>
    cases hp : s.params.ppuStatusSource with
    | held => exact ⟨_, _, bind_ok (x := statusByte) (a := s.ppu.status) (t := s) (by simp [statusByte, hp])⟩
    | perRead => exact ⟨_, _, bind_ok (x := statusByte) (by simp only [statusByte, hp]; rfl)⟩
  case vramData =>
    obtain ⟨c, hc⟩ := vramCell_attached hs s.ppu.v
    simp only [get_bind]
    exact ⟨_, _, bind_ok (x := readVram a s.ppu.v) (by simp only [readVram, hc]; rfl)⟩
  all_goals exact ⟨_, _, rfl⟩

/-- A fault of a window read is the contract violation at the address read, with no cartridge attached (R137). -/
theorem ppuReadRegister_error {a : Word} {s t : State} {e : Fault} (h : ppuReadRegister a s = .error e t) :
    e = .busContractViolation a ∧ s.cart = none := by
  by_cases hs : s.attached
  · obtain ⟨v, u, hu⟩ := ppuReadRegister_attached hs a
    rw [hu] at h; cases h
  · refine ⟨?_, by simpa using hs⟩
    cases hsl : slotOf a <;> simp only [ppuReadRegister, hsl] at h
    case status =>
      rcases bind_eq_error.mp h with h | ⟨_, _, _, h⟩
      · simp only [statusByte] at h
        split at h <;> cases h
      · cases h
    case vramData =>
      simp only [get_bind] at h
      rcases bind_eq_error.mp h with h | ⟨_, _, _, h⟩
      · simp only [readVram] at h
        split at h <;> cases h
        rfl
      · cases h
    all_goals cases h

/-- A window read keeps the PPU's memories: only `ioLatch`, `w` and `v` may change (R114). -/
theorem ppuReadRegister_memories {a : Word} {s t : State} {v : Byte} (h : ppuReadRegister a s = .ok v t) :
    t.ppu.nt = s.ppu.nt ∧ t.ppu.pt = s.ppu.pt ∧ t.ppu.pal = s.ppu.pal ∧ t.ppu.oam = s.ppu.oam ∧ t.ppu.t = s.ppu.t := by
  cases hsl : slotOf a <;> simp only [ppuReadRegister, hsl] at h
  case status =>
    obtain ⟨r, q, hr, h⟩ := bind_eq_ok.mp h
    simp only [statusByte] at hr
    split at hr <;> cases hr <;> cases h <;> exact ⟨rfl, rfl, rfl, rfl, rfl⟩
  case vramData =>
    simp only [get_bind] at h
    obtain ⟨r, q, hr, h⟩ := bind_eq_ok.mp h
    simp only [readVram] at hr
    split at hr <;> cases hr
    cases h
    exact ⟨rfl, rfl, rfl, rfl, rfl⟩
  all_goals
    cases h
    exact ⟨rfl, rfl, rfl, rfl, rfl⟩

/-- A write to the window changes the PPU alone. -/
theorem ppuWriteRegister_frame {a : Word} {b : Byte} {s t : State} (h : ppuWriteRegister a b s = .ok () t) :
    t = s.setPpu t.ppu := by
  cases hsl : slotOf a <;> simp only [ppuWriteRegister, modifyPpu, modify_bind, hsl] at h
  case vramData =>
    simp only [get_bind] at h
    obtain ⟨r, q, hr, h⟩ := bind_eq_ok.mp h
    simp only [writeVram] at hr
    split at hr <;> cases hr
    cases h
    rfl
  all_goals
    cases h
    rfl

/-- A write to the window completes if a cartridge is attached. -/
theorem ppuWriteRegister_attached {s : State} (hs : s.attached) (a : Word) (b : Byte) :
    ∃ t, ppuWriteRegister a b s = .ok () t := by
  cases hsl : slotOf a <;> simp only [ppuWriteRegister, modifyPpu, modify_bind, hsl]
  case vramData =>
    obtain ⟨c, hc⟩ := vramCell_attached (s := s.setPpu { s.ppu with ioLatch := b }) hs s.ppu.v
    simp only [get_bind]
    exact ⟨_, bind_ok (x := writeVram a s.ppu.v b) (a := ()) (by simp only [writeVram, hc]; rfl)⟩
  all_goals exact ⟨_, rfl⟩

/-- A fault of a window write is the contract violation at the address written, with no cartridge attached. -/
theorem ppuWriteRegister_error {a : Word} {b : Byte} {s t : State} {e : Fault}
    (h : ppuWriteRegister a b s = .error e t) : e = .busContractViolation a ∧ s.cart = none := by
  by_cases hs : s.attached
  · obtain ⟨u, hu⟩ := ppuWriteRegister_attached hs a b
    rw [hu] at h; cases h
  · refine ⟨?_, by simpa using hs⟩
    cases hsl : slotOf a <;> simp only [ppuWriteRegister, modifyPpu, modify_bind, hsl] at h
    case vramData =>
      simp only [get_bind] at h
      rcases bind_eq_error.mp h with h | ⟨_, _, _, h⟩
      · simp only [writeVram] at h
        split at h <;> cases h
        rfl
      · cases h
    all_goals cases h

/-- Writing a cell that exists keeps the PPU's memories canonical. -/
theorem Ppu.writeCell_wf {u : Ppu} (hu : u.memoriesWf) {c : VramCell} (hc : c.inRange) (v : Byte) :
    (u.writeCell c v).memoriesWf := by
  obtain ⟨⟨hn, hn'⟩, ⟨hp, hp'⟩, ⟨hl, hl'⟩, ho⟩ := hu
  cases hc with
  | pattern h => exact ⟨⟨hn, hn'⟩, ⟨Memory.write_wf hp _ _, Memory.write_within hp' h _⟩, ⟨hl, hl'⟩, ho⟩
  | nametable h => exact ⟨⟨Memory.write_wf hn _ _, Memory.write_within hn' h _⟩, ⟨hp, hp'⟩, ⟨hl, hl'⟩, ho⟩
  | palette h => exact ⟨⟨hn, hn'⟩, ⟨hp, hp'⟩, ⟨Memory.write_wf hl _ _, Memory.write_within hl' h _⟩, ho⟩

/-- The two halves of a slot-6 write leave bits 15 and 14 of `t` clear (R121, R122). -/
theorem Ppu.writeAddress_legal {u : Ppu} (hu : u.addressLegal) (v : Byte) : (u.writeAddress v).addressLegal := by
  have h3f : (zext (v &&& 0x3F)).toNat < 64 := by
    have : (v &&& 0x3F).toNat ≤ 0x3F := by rw [BitVec.toNat_and]; exact Nat.and_le_right
    simp only [zext, BitVec.toNat_setWidth]
    omega
  simp only [Ppu.addressLegal, Ppu.writeAddress, BitVec.lt_def] at *
  split
  · show ((u.t &&& 0xFF00) ||| zext v).toNat < _
    rw [BitVec.toNat_or, BitVec.toNat_and]
    have h1 : u.t.toNat &&& (0xFF00 : Word).toNat < 2 ^ 14 :=
      Nat.lt_of_le_of_lt Nat.and_le_left hu
    have h2 : (zext v).toNat < 2 ^ 14 := by
      have : (zext v).toNat = v.toNat := by simp [zext, BitVec.toNat_setWidth]; omega
      omega
    exact Nat.or_lt_two_pow h1 h2
  · show ((zext (v &&& 0x3F) <<< 8) ||| (u.t &&& 0x00FF)).toNat < _
    rw [BitVec.toNat_or, BitVec.toNat_and, BitVec.toNat_shiftLeft]
    have h1 : (zext (v &&& 0x3F)).toNat <<< 8 % 2 ^ 16 < 2 ^ 14 := by
      rw [Nat.shiftLeft_eq]; omega
    have h2 : u.t.toNat &&& (0x00FF : Word).toNat < 2 ^ 14 :=
      Nat.lt_of_le_of_lt Nat.and_le_left hu
    exact Nat.or_lt_two_pow h1 h2

/-- A window write keeps the PPU's memories canonical and `t` a 14-bit address. -/
theorem ppuWriteRegister_wf {a : Word} {b : Byte} {s t : State} (h : ppuWriteRegister a b s = .ok () t)
    (hm : s.ppu.memoriesWf) (ht : s.ppu.addressLegal) : t.ppu.memoriesWf ∧ t.ppu.addressLegal := by
  cases hsl : slotOf a <;> simp only [ppuWriteRegister, modifyPpu, modify_bind, hsl] at h
  case oamData =>
    cases h
    obtain ⟨hn, hp, hl, ho, ho'⟩ := hm
    exact ⟨⟨hn, hp, hl, Memory.write_wf ho _ _, Memory.write_within ho' (by omega) _⟩, ht⟩
  case vramAddress =>
    cases h
    have := Ppu.writeAddress_legal (u := { s.ppu with ioLatch := b }) ht b
    refine ⟨?_, this⟩
    simp only [Ppu.writeAddress]
    split <;> exact hm
  case vramData =>
    simp only [get_bind] at h
    obtain ⟨r, q, hr, h⟩ := bind_eq_ok.mp h
    simp only [writeVram] at hr
    split at hr <;> cases hr
    rename_i c hc
    cases h
    have hw := Ppu.writeCell_wf (u := { s.ppu with ioLatch := b }) hm (vramCell_inRange hc) b
    refine ⟨hw, ?_⟩
    cases c <;> exact ht
  all_goals
    cases h
    exact ⟨hm, ht⟩

end Sys2Proof.Machine
end

