-- ==== Sys2Proof/Laws/Bus.lean ====
section
/-! SUPPORT. The bus: the regions, and for a read and a write of one byte everything it can do. -/

namespace Sys2Proof.Machine

/-! Regions (spec/20_memory.md R50). -/

theorem region_ram_iff (a : Word) : region a = .ram ↔ a.toNat < 0x2000 := by
  simp only [region, BitVec.lt_def]
  constructor
  · intro h
    split at h
    · assumption
    · split at h <;> try split at h
      all_goals cases h
  · intro h
    rw [if_pos (show a.toNat < (0x2000 : Word).toNat from h)]

theorem region_ram_of_lt {a : Word} (h : a.toNat < 0x2000) : region a = .ram := (region_ram_iff a).mpr h

theorem region_cart_of_le {a : Word} (h : 0x4020 ≤ a.toNat) : region a = .cart := by
  have h1 : ¬ a < 0x2000 := by simp [BitVec.lt_def]; omega
  have h2 : ¬ a < 0x4000 := by simp [BitVec.lt_def]; omega
  have h3 : ¬ a < 0x4020 := by simp [BitVec.lt_def]; omega
  rw [region, if_neg h1, if_neg h2, if_neg h3]

theorem ramIndex_lt (a : Word) : ramIndex a < 2048 := by
  have : (a &&& 0x07FF).toNat ≤ 0x07FF := by rw [BitVec.toNat_and]; exact Nat.and_le_right
  simp only [ramIndex]; omega

/-- A RAM index is the address modulo 2048 (R53). -/
theorem ramIndex_eq (a : Word) : ramIndex a = a.toNat % 2048 := by
  have : a.toNat &&& 2047 = a.toNat % 2 ^ 11 := Nat.and_two_pow_sub_one_eq_mod _ 11
  simp only [ramIndex, BitVec.toNat_and]
  exact this

/-! One byte read. -/

theorem memRead_ram {a : Word} (h : region a = .ram) (s : State) : memRead a s = .ok (s.ramByte a) s := by
  simp [memRead, h]

theorem memRead_hole {a : Word} (h : region a = .hole) (s : State) : memRead a s = .ok 0 s := by
  simp [memRead, h]

theorem memRead_cart {a : Word} (h : region a = .cart) {s : State} {c : Cart} (hc : s.cart = some c) :
    memRead a s = .ok (c.read a) s := by
  simp [memRead, h, cartRead, hc]

/-- With no cartridge a read of cartridge space is a contract violation (R58). -/
theorem cartRead_unattached {a : Word} (h : region a = .cart) {s : State} (hc : s.cart = none) :
    memRead a s = .error (.busContractViolation a) s := by
  simp [memRead, h, cartRead, hc]

/-- Outside the PPU window a read changes nothing (R62). -/
theorem memRead_quiet {a : Word} (h : region a ≠ .ppu) {s t : State} {v : Byte} (hr : memRead a s = .ok v t) : t = s := by
  cases ha : region a with
  | ppu => exact absurd ha h
  | ram => rw [memRead_ram ha] at hr; cases hr; rfl
  | hole => rw [memRead_hole ha] at hr; cases hr; rfl
  | cart =>
    simp only [memRead, ha, cartRead] at hr
    split at hr <;> cases hr
    rfl

/-- A read changes the PPU and the draw counter at most (R62). -/
theorem memRead_frame {a : Word} {s t : State} {v : Byte} (hr : memRead a s = .ok v t) :
    t = (s.setPpu t.ppu).setDraws t.draws := by
  by_cases h : region a = .ppu
  · simp only [memRead, h] at hr
    exact ppuReadRegister_frame hr
  · rw [memRead_quiet h hr]; rfl

/-- With a cartridge attached every read answers (R58). -/
theorem memRead_attached {s : State} (hs : s.attached) (a : Word) : ∃ v t, memRead a s = .ok v t := by
  obtain ⟨c, hc⟩ := Option.isSome_iff_exists.mp hs
  cases ha : region a with
  | ppu =>
    obtain ⟨v, t, h⟩ := ppuReadRegister_attached hs a
    exact ⟨v, t, by simpa [memRead, ha] using h⟩
  | ram => exact ⟨_, _, memRead_ram ha s⟩
  | hole => exact ⟨_, _, memRead_hole ha s⟩
  | cart => exact ⟨_, _, memRead_cart ha hc⟩

/-- A fault of a read is the contract violation at its address, with no cartridge attached (R58). -/
theorem memRead_error {a : Word} {s t : State} {e : Fault} (h : memRead a s = .error e t) :
    e = .busContractViolation a ∧ s.cart = none := by
  cases ha : region a <;> simp only [memRead, ha] at h
  case ppu => exact ppuReadRegister_error h
  case cart =>
    simp only [cartRead] at h
    split at h <;> cases h
    exact ⟨rfl, ‹_›⟩
  all_goals cases h

/-- A read keeps every memory canonical. -/
theorem memRead_wf {a : Word} {s t : State} {v : Byte} (h : memRead a s = .ok v t) (hs : s.wf) : t.wf := by
  by_cases ha : region a = .ppu
  · simp only [memRead, ha] at h
    have hf := ppuReadRegister_frame h
    obtain ⟨hn, hp, hl, ho, ht⟩ := ppuReadRegister_memories h
    obtain ⟨hP, ⟨hram, hppu, hcart⟩, hT⟩ := hs
    have hp' : t.p = s.p := by rw [hf]; rfl
    have hr' : t.ram = s.ram := by rw [hf]; rfl
    have hc' : t.cart = s.cart := by rw [hf]; rfl
    refine ⟨hp' ▸ hP, ⟨hr' ▸ hram, ?_, hc' ▸ hcart⟩, ?_⟩
    · simpa only [Ppu.memoriesWf, hn, hp, hl, ho] using hppu
    · simpa only [Ppu.addressLegal, ht] using hT
  · rw [memRead_quiet ha h]; exact hs

/-! One byte written. -/

theorem memWrite_ram {a : Word} (h : region a = .ram) (v : Byte) (s : State) :
    memWrite a v s = .ok () (s.setRam (s.ram.write (ramIndex a) v)) := by
  simp [memWrite, h]

theorem memWrite_hole {a : Word} (h : region a = .hole) (v : Byte) (s : State) : memWrite a v s = .ok () s := by
  simp [memWrite, h]

theorem memWrite_cart {a : Word} (h : region a = .cart) (v : Byte) {s : State} (hs : s.attached) :
    memWrite a v s = .ok () s := by
  obtain ⟨c, hc⟩ := Option.isSome_iff_exists.mp hs
  simp [memWrite, h, cartWrite, hc]

/-- Outside RAM and the PPU window a write changes nothing (R56, R95). -/
theorem memWrite_discarded {a : Word} (h : region a = .hole ∨ region a = .cart) {v : Byte} {s t : State}
    (hw : memWrite a v s = .ok () t) : t = s := by
  rcases h with h | h
  · rw [memWrite_hole h] at hw; cases hw; rfl
  · simp only [memWrite, h, cartWrite] at hw
    split at hw <;> cases hw
    rfl

/-- A write changes RAM and the PPU at most. -/
theorem memWrite_frame {a : Word} {v : Byte} {s t : State} (hw : memWrite a v s = .ok () t) :
    t = (s.setRam t.ram).setPpu t.ppu := by
  cases ha : region a with
  | ram => rw [memWrite_ram ha] at hw; cases hw; rfl
  | ppu =>
    simp only [memWrite, ha] at hw
    have := ppuWriteRegister_frame hw
    rw [this]; rfl
  | hole => rw [memWrite_discarded (.inl ha) hw]; rfl
  | cart => rw [memWrite_discarded (.inr ha) hw]; rfl

/-- Outside the PPU window a write leaves the PPU alone. -/
theorem memWrite_quiet {a : Word} (h : region a ≠ .ppu) {v : Byte} {s t : State} (hw : memWrite a v s = .ok () t) :
    t = s.setRam t.ram := by
  cases ha : region a with
  | ppu => exact absurd ha h
  | ram => rw [memWrite_ram ha] at hw; cases hw; rfl
  | hole => rw [memWrite_discarded (.inl ha) hw]; rfl
  | cart => rw [memWrite_discarded (.inr ha) hw]; rfl

/-- With a cartridge attached every write completes (R58). -/
theorem memWrite_attached {s : State} (hs : s.attached) (a : Word) (v : Byte) : ∃ t, memWrite a v s = .ok () t := by
  cases ha : region a with
  | ppu =>
    obtain ⟨t, h⟩ := ppuWriteRegister_attached hs a v
    exact ⟨t, by simpa [memWrite, ha] using h⟩
  | ram => exact ⟨_, memWrite_ram ha v s⟩
  | hole => exact ⟨_, memWrite_hole ha v s⟩
  | cart => exact ⟨_, memWrite_cart ha v hs⟩

/-- A fault of a write is the contract violation at its address, with no cartridge attached. -/
theorem memWrite_error {a : Word} {v : Byte} {s t : State} {e : Fault} (h : memWrite a v s = .error e t) :
    e = .busContractViolation a ∧ s.cart = none := by
  cases ha : region a <;> simp only [memWrite, ha] at h
  case ppu => exact ppuWriteRegister_error h
  case cart =>
    simp only [cartWrite] at h
    split at h <;> cases h
    exact ⟨rfl, ‹_›⟩
  all_goals cases h

/-- A write keeps every memory canonical. -/
theorem memWrite_wf {a : Word} {v : Byte} {s t : State} (h : memWrite a v s = .ok () t) (hs : s.wf) : t.wf := by
  cases ha : region a with
  | ppu =>
    simp only [memWrite, ha] at h
    have hf := ppuWriteRegister_frame h
    obtain ⟨hP, ⟨hram, hppu, hcart⟩, hT⟩ := hs
    obtain ⟨h1, h2⟩ := ppuWriteRegister_wf h hppu hT
    rw [hf]
    exact ⟨hP, ⟨hram, h1, hcart⟩, h2⟩
  | ram =>
    rw [memWrite_ram ha] at h
    cases h
    obtain ⟨hP, ⟨⟨hr, hr'⟩, hppu, hcart⟩, hT⟩ := hs
    exact ⟨hP, ⟨⟨Memory.write_wf hr _ _, Memory.write_within hr' (ramIndex_lt a) _⟩, hppu, hcart⟩, hT⟩
  | hole => rw [memWrite_discarded (.inl ha) h]; exact hs
  | cart => rw [memWrite_discarded (.inr ha) h]; exact hs

/-- Two bytes read from RAM make a word. -/
theorem read16_ram {lo hi : Word} (hl : region lo = .ram) (hh : region hi = .ram) (s : State) :
    read16 lo hi s = .ok (join (s.ramByte hi) (s.ramByte lo)) s := by
  rw [read16, bind_ok (memRead_ram hl s), bind_ok (memRead_ram hh s), pure_run]

/-- Two bytes read from an attached cartridge make a word. -/
theorem read16_cart {lo hi : Word} (hl : region lo = .cart) (hh : region hi = .cart) {s : State} {c : Cart}
    (hc : s.cart = some c) : read16 lo hi s = .ok (join (c.read hi) (c.read lo)) s := by
  rw [read16, bind_ok (memRead_cart hl hc), bind_ok (memRead_cart hh hc), pure_run]

/-- Two bytes read change the PPU and the draw counter at most. -/
theorem read16_frame {lo hi : Word} {s t : State} {v : Word} (h : read16 lo hi s = .ok v t) :
    t = (s.setPpu t.ppu).setDraws t.draws := by
  obtain ⟨l, u, h1, h⟩ := bind_eq_ok.mp h
  obtain ⟨k, w, h2, h⟩ := bind_eq_ok.mp h
  cases h
  rw [memRead_frame h2, memRead_frame h1]; rfl

/-- With a cartridge attached two bytes are always read. -/
theorem read16_attached {s : State} (hs : s.attached) (lo hi : Word) : ∃ v t, read16 lo hi s = .ok v t := by
  obtain ⟨l, u, h1⟩ := memRead_attached hs lo
  have hu : u.attached := by rw [memRead_frame h1]; exact hs
  obtain ⟨k, w, h2⟩ := memRead_attached hu hi
  exact ⟨_, _, by rw [read16, bind_ok h1, bind_ok h2, pure_run]⟩

theorem read16_wf {lo hi : Word} {s t : State} {v : Word} (h : read16 lo hi s = .ok v t) (hs : s.wf) : t.wf := by
  obtain ⟨l, u, h1, h⟩ := bind_eq_ok.mp h
  obtain ⟨k, w, h2, h⟩ := bind_eq_ok.mp h
  cases h
  exact memRead_wf h2 (memRead_wf h1 hs)

end Sys2Proof.Machine
end

