-- ==== Sys2Proof/Laws/Flags.lean ====
section
/-! SUPPORT. The status byte bit by bit: what each flag computation writes, in the words of Safety.lean. -/

namespace Sys2Proof.Machine

open Sys2Proof.Claims

/-- One bit of a byte written, the others kept. -/
theorem flag_putBit (p : Byte) {i : Nat} (hi : i < 8) (b : Bool) (j : Nat) :
    flag (putBit p i b) j = if j = i then b else flag p j := by
  have h1 : (BitVec.ofNat 8 (2 ^ i)).getLsbD j = decide (j = i) := by
    have h2 : BitVec.ofNat 8 (2 ^ i) = BitVec.twoPow 8 i := by
      apply BitVec.eq_of_toNat_eq; simp [BitVec.toNat_twoPow]
    rw [h2, BitVec.getLsbD_twoPow]
    by_cases h : i = j
    · subst h; simp [hi]
    · simp [h, Ne.symm h]
  have h3 : ∀ k, 8 ≤ k → p.getLsbD k = false := fun k hk => BitVec.getLsbD_of_ge p k hk
  simp only [flag, putBit, BitVec.getLsbD_or, BitVec.getLsbD_and, BitVec.getLsbD_not, h1]
  cases b
  · by_cases h : j = i
    · simp only [h, decide_true, Bool.not_true, Bool.and_false, Bool.false_or, if_true]; exact BitVec.getLsbD_zero
    · by_cases hj : j < 8
      · simp only [h, hj, decide_false, decide_true, Bool.not_false, Bool.and_true, if_false]
        exact (congrArg (p.getLsbD j || ·) BitVec.getLsbD_zero).trans (Bool.or_false _)
      · simp only [h, hj, h3 j (by omega), decide_false, Bool.false_and, Bool.false_or, if_false]; exact BitVec.getLsbD_zero
  · by_cases h : j = i
    · subst h
      simp only [decide_true] at h1
      simp only [if_true, h1, Bool.or_true]
    · by_cases hj : j < 8 <;> simp only [h, hj, h1, decide_false, decide_true, Bool.not_false, Bool.and_true, Bool.or_false, if_true, if_false]
      simp [h3 j (by omega)]

/-- A byte has no bit 8. -/
theorem flag_of_ge (p : Byte) {i : Nat} (hi : 8 ≤ i) : flag p i = false := BitVec.getLsbD_of_ge p i hi

/-- Bit 7 is the sign of an 8-bit value. -/
theorem getLsbD_seven (v : Byte) : v.getLsbD 7 = decide (128 ≤ v.toNat) := by
  have h := BitVec.msb_eq_decide v
  rw [BitVec.msb_eq_getLsbD_last] at h
  exact h

theorem sameBut_putBit (p : Byte) {i : Nat} (hi : i < 8) (b : Bool) : SameBut [i] p (putBit p i b) := by
  intro j hj
  rw [flag_putBit p hi, if_neg (by simpa using hj)]

theorem sameBut_trans {bs cs : List Nat} {p q r : Byte} (h : SameBut bs p q) (k : SameBut cs q r) : SameBut (bs ++ cs) p r := by
  intro j hj
  rw [List.mem_append, not_or] at hj
  rw [k j hj.2, h j hj.1]

theorem sameBut_mono {bs cs : List Nat} {p q : Byte} (h : SameBut bs p q) (hs : ∀ i ∈ bs, i ∈ cs) : SameBut cs p q :=
  fun j hj => h j fun hb => hj (hs j hb)

/-- `SetZN(v)` writes `Z` and `N` from `v`, and nothing else (spec/10_state.md R29). -/
theorem setZN_spec (v p : Byte) : ZeroNegative v (setZN v p) ∧ SameBut [bitZ, bitN] p (setZN v p) := by
  refine ⟨⟨?_, ?_⟩, fun j hj => ?_⟩
  · rw [setZN, flag_putBit _ (by decide), if_neg (by decide), flag_putBit _ (by decide), if_pos rfl]
    rfl
  · rw [setZN, flag_putBit _ (by decide), if_pos rfl, getLsbD_seven]
  · simp only [List.mem_cons, List.not_mem_nil, or_false, not_or] at hj
    rw [setZN, flag_putBit _ (by decide), if_neg hj.2, flag_putBit _ (by decide), if_neg hj.1]

/-- A byte built by clearing bits 4 and 5 and setting some of them (spec/10_state.md R30, R31). -/
theorem statusByte_of_mask (p : Byte) (b : Bool) : StatusByte b p ((p &&& 0xCF) ||| 0x20 ||| (if b then 0x10 else 0)) := by
  intro i
  by_cases hi : i < 8
  · obtain rfl | rfl | rfl | rfl | rfl | rfl | rfl | rfl :
        i = 0 ∨ i = 1 ∨ i = 2 ∨ i = 3 ∨ i = 4 ∨ i = 5 ∨ i = 6 ∨ i = 7 := by omega
    all_goals cases b <;> simp [flag, bitU, bitB]
  · rw [if_neg (show i ≠ bitU from fun h => hi (h ▸ (by decide))), if_neg (show i ≠ bitB from fun h => hi (h ▸ (by decide))),
      flag_of_ge _ (by omega), flag_of_ge _ (by omega)]

/-- The pushed status byte (spec/10_state.md R30). -/
theorem packP_spec (p : Byte) (b : Bool) : StatusByte b p (packP p b) := statusByte_of_mask p b

/-- The loaded status byte (spec/10_state.md R31). -/
theorem unpackP_spec (v : Byte) : StatusByte false v (unpackP v) := by
  have h := statusByte_of_mask v false
  simpa [unpackP] using h

/-- Two status bytes with the same bits are equal. -/
theorem flag_ext {p q : Byte} (h : ∀ i, flag p i = flag q i) : p = q :=
  BitVec.eq_of_getLsbD_eq fun i _ => h i

/-- A legal status byte survives being packed and unpacked (spec/10_state.md R32). -/
theorem unpackP_packP {p : Byte} (hp : statusLegal p) (b : Bool) : unpackP (packP p b) = p := by
  refine flag_ext fun i => ?_
  rw [unpackP_spec, packP_spec]
  by_cases h5 : i = bitU
  · rw [if_pos h5, h5, hp.1]
  · by_cases h4 : i = bitB
    · rw [if_neg h5, if_pos h4, h4, hp.2]
    · rw [if_neg h5, if_neg h4, if_neg h5, if_neg h4]

/-- A status byte keeps bits 4 and 5 where only other bits may change (spec/10_state.md R25). -/
theorem sameBut_statusLegal {bs : List Nat} {p q : Byte} (h : SameBut bs p q) (hU : bitU ∉ bs) (hB : bitB ∉ bs)
    (hp : statusLegal p) : statusLegal q :=
  ⟨(h _ hU).trans hp.1, (h _ hB).trans hp.2⟩

theorem unpackP_legal (v : Byte) : statusLegal (unpackP v) := by
  constructor
  · rw [unpackP_spec]; rfl
  · rw [unpackP_spec]; rfl

/-- A pulled status byte changes the six flags at most, from a legal status byte (spec/46_stack_jumps_subroutines.md R285). -/
theorem unpackP_sameBut {p : Byte} (hp : statusLegal p) (v : Byte) :
    SameBut [bitC, bitZ, bitI, bitD, bitV, bitN] p (unpackP v) := by
  intro i hi
  by_cases h : i < 8
  · have : i = bitU ∨ i = bitB := by
      simp only [List.mem_cons, List.not_mem_nil, or_false, bitC, bitZ, bitI, bitD, bitV, bitN] at hi
      simp only [bitU, bitB]; omega
    obtain rfl | rfl := this
    · rw [hp.1, (unpackP_legal v).1]
    · rw [hp.2, (unpackP_legal v).2]
  · rw [flag_of_ge _ (by omega), flag_of_ge _ (by omega)]

/-! Addition (spec/42_arithmetic.md R200). -/

theorem flag_toNat (p : Byte) : (flag p bitC).toNat = carry p := by
  cases h : flag p bitC <;> simp [carry, h]

/-- The overflow test is "the signed sum leaves the byte". -/
theorem addOverflow_eq (a m p : Byte) :
    addOverflow a m (addResult a m p) =
      decide (a.toInt + m.toInt + (carry p : Int) < -128 ∨ 127 < a.toInt + m.toInt + (carry p : Int)) := by
  have hb : ∀ x y : Byte, ((x &&& y &&& 0x80) != 0) = (x &&& y).getLsbD 7 := fun x y => by
    have h : ∀ v : Byte, ((v &&& 0x80) != 0) = v.getLsbD 7 := by decide
    exact h _
  have hc : carry p ≤ 1 := by unfold carry; split <;> omega
  have hr : (addResult a m p).toNat = (a.toNat + m.toNat + carry p) % 256 := by
    simp [addResult, addSum, flag_toNat]
  have ha := a.isLt
  have hm := m.isLt
  have hx : addOverflow a m (addResult a m p) =
      ((decide (128 ≤ a.toNat) ^^ decide (128 ≤ (a.toNat + m.toNat + carry p) % 256)) &&
        (decide (128 ≤ m.toNat) ^^ decide (128 ≤ (a.toNat + m.toNat + carry p) % 256))) := by
    rw [addOverflow, hb, BitVec.getLsbD_and, BitVec.getLsbD_xor, BitVec.getLsbD_xor, getLsbD_seven, getLsbD_seven,
      getLsbD_seven, hr]
  have hai : a.toInt = if 128 ≤ a.toNat then (a.toNat : Int) - 256 else a.toNat := by
    rw [BitVec.toInt_eq_toNat_cond]; split <;> split <;> omega
  have hmi : m.toInt = if 128 ≤ m.toNat then (m.toNat : Int) - 256 else m.toNat := by
    rw [BitVec.toInt_eq_toNat_cond]; split <;> split <;> omega
  rw [hx, hai, hmi]
  by_cases h1 : 128 ≤ a.toNat <;> by_cases h2 : 128 ≤ m.toNat <;>
    by_cases h3 : 128 ≤ (a.toNat + m.toNat + carry p) % 256 <;>
    simp only [h1, h2, h3, decide_true, decide_false, if_true, if_false] <;> symm <;>
    first
      | (refine decide_eq_true ?_; omega)
      | (refine decide_eq_false ?_; omega)

/-- Everything `AddCore` does to the flags (spec/42_arithmetic.md R200). -/
theorem addFlags_spec (a m p : Byte) :
    flag (addFlags a m p) bitC = decide (255 < a.toNat + m.toNat + carry p) ∧
    flag (addFlags a m p) bitV =
      decide (a.toInt + m.toInt + (carry p : Int) < -128 ∨ 127 < a.toInt + m.toInt + (carry p : Int)) ∧
    ZeroNegative (addResult a m p) (addFlags a m p) ∧ SameBut [bitC, bitZ, bitV, bitN] p (addFlags a m p) := by
  have h := setZN_spec (addResult a m p)
    (putBit (putBit p bitV (addOverflow a m (addResult a m p))) bitC (decide (255 < addSum a m p)))
  refine ⟨?_, ?_, h.1, ?_⟩
  · refine (h.2 bitC (by decide)).trans ?_
    rw [flag_putBit _ (by decide), if_pos rfl, addSum, flag_toNat]
  · refine (h.2 bitV (by decide)).trans ?_
    rw [flag_putBit _ (by decide), if_neg (by decide), flag_putBit _ (by decide), if_pos rfl, addOverflow_eq]
  · exact sameBut_mono (sameBut_trans (sameBut_trans (sameBut_putBit p (i := bitV) (by decide) _)
      (sameBut_putBit _ (i := bitC) (by decide) _)) h.2) (by decide)

/-- Everything `CompareCore` does (spec/42_arithmetic.md R203). -/
theorem compareFlags_spec (r m p : Byte) :
    flag (compareFlags r m p) bitC = decide (m.toNat ≤ r.toNat) ∧ flag (compareFlags r m p) bitZ = decide (r = m) ∧
    flag (compareFlags r m p) bitN = decide (128 ≤ (256 + r.toNat - m.toNat) % 256) ∧
    SameBut [bitC, bitZ, bitN] p (compareFlags r m p) := by
  refine ⟨?_, ?_, ?_, ?_⟩
  · rw [compareFlags, flag_putBit _ (by decide), if_neg (by decide), flag_putBit _ (by decide), if_neg (by decide),
      flag_putBit _ (by decide), if_pos rfl]
    rfl
  · rw [compareFlags, flag_putBit _ (by decide), if_neg (by decide), flag_putBit _ (by decide), if_pos rfl]
    rfl
  · rw [compareFlags, flag_putBit _ (by decide), if_pos rfl, getLsbD_seven, BitVec.toNat_sub]
    have := m.isLt
    congr 2
    show (2 ^ 8 - m.toNat + r.toNat) % 2 ^ 8 = _
    omega
  · exact sameBut_mono (sameBut_trans (sameBut_trans (sameBut_putBit p (i := bitC) (by decide) _)
      (sameBut_putBit _ (i := bitZ) (by decide) _)) (sameBut_putBit _ (i := bitN) (by decide) _)) (by decide)

/-- Everything BIT does to the flags (spec/41_logical.md R193). -/
theorem bitFlags_spec (a m p : Byte) :
    flag (bitFlags a m p) bitN = m.getLsbD 7 ∧ flag (bitFlags a m p) bitV = m.getLsbD 6 ∧
    flag (bitFlags a m p) bitZ = decide (a &&& m = 0) ∧ SameBut [bitZ, bitV, bitN] p (bitFlags a m p) := by
  refine ⟨?_, ?_, ?_, ?_⟩
  · rw [bitFlags, flag_putBit _ (by decide), if_neg (by decide), flag_putBit _ (by decide), if_neg (by decide),
      flag_putBit _ (by decide), if_pos rfl]
  · rw [bitFlags, flag_putBit _ (by decide), if_neg (by decide), flag_putBit _ (by decide), if_pos rfl]
  · rw [bitFlags, flag_putBit _ (by decide), if_pos rfl]
    rfl
  · exact sameBut_mono (sameBut_trans (sameBut_trans (sameBut_putBit p (i := bitN) (by decide) _)
      (sameBut_putBit _ (i := bitV) (by decide) _)) (sameBut_putBit _ (i := bitZ) (by decide) _)) (by decide)

end Sys2Proof.Machine
end

