-- ==== Sys2Proof/Laws/Ops.lean ====
section
/-! SUPPORT. The stack, trap entry and trap return in closed form: the stack page is RAM, the vectors are cartridge space. -/

namespace Sys2Proof.Machine

/-! The stack page (spec/10_state.md R22). -/

theorem stackAddr_toNat (sp : Byte) : (stackAddr sp).toNat = 256 + sp.toNat := by
  simp only [stackAddr, zext, BitVec.toNat_add, BitVec.toNat_setWidth]
  have := sp.isLt
  show (256 + sp.toNat % 2 ^ 16) % 2 ^ 16 = _
  omega

theorem region_stackAddr (sp : Byte) : region (stackAddr sp) = .ram :=
  region_ram_of_lt (by rw [stackAddr_toNat]; have := sp.isLt; omega)

theorem ramIndex_stackAddr (sp : Byte) : ramIndex (stackAddr sp) = 256 + sp.toNat := by
  rw [ramIndex_eq, stackAddr_toNat]
  have := sp.isLt; omega

/-- The state after `Push(v)`. -/
def State.pushed (s : State) (v : Byte) : State :=
  (s.setRam (s.ram.write (256 + s.sp.toNat) v)).setSp (s.sp - 1)

/-- `Push(v)` always completes (R280). -/
theorem push_run (v : Byte) (s : State) : push v s = .ok () (s.pushed v) := by
  simp only [push, get_bind]
  rw [bind_ok (memWrite_ram (region_stackAddr s.sp) v s), modify_run, ramIndex_stackAddr]
  rfl

/-- `Pull()` always answers (R281). -/
theorem pull_run (s : State) : pull s = .ok (s.ram.read (256 + (s.sp + 1).toNat)) (s.setSp (s.sp + 1)) := by
  simp only [pull, modify_bind, get_bind]
  rw [memRead_ram (region_stackAddr _)]
  simp only [State.ramByte, ramIndex_stackAddr]
  rfl

/-- A word pushed: high byte, then low byte (R288). -/
theorem pushWord_run (v : Word) (s : State) :
    pushWord v s = .ok () ((s.pushed (hiByte v)).pushed (loByte v)) := by
  rw [pushWord, bind_ok (push_run _ _), push_run]

/-- A word pulled: low byte, then high byte (R289). -/
theorem pullWord_run (s : State) :
    pullWord s = .ok (join (s.ram.read (256 + (s.sp + 1 + 1).toNat)) (s.ram.read (256 + (s.sp + 1).toNat)))
      ((s.setSp (s.sp + 1)).setSp (s.sp + 1 + 1)) := by
  rw [pullWord, bind_ok (pull_run _), bind_ok (pull_run _), pure_run]
  rfl

/-- The state after the three pushes of a trap entry, `I` set. -/
def State.trapFrame (s : State) (ret : Word) (b : Bool) : State :=
  (((s.pushed (hiByte ret)).pushed (loByte ret)).pushed (packP s.p b)).putFlag bitI true

/-- TRAP ENTRY in closed form, for a vector in the cartridge space of an attached cartridge (R292, R309). -/
theorem enterTrap_run {vector ret : Word} (b : Bool) {s : State} {c : Cart} (hc : s.cart = some c)
    (h0 : region vector = .cart) (h1 : region (vector + 1) = .cart) :
    enterTrap vector ret b s =
      .ok () ((s.trapFrame ret b).setPc (join (c.read (vector + 1)) (c.read vector))) := by
  refine (bind_ok (pushWord_run _ _)).trans ((bind_ok (push_run _ _)).trans ?_)
  exact bind_ok (read16_cart h0 h1
    (s := (((s.pushed (hiByte ret)).pushed (loByte ret)).pushed (packP s.p b)).putFlag bitI true) hc)

/-- With no cartridge trap entry faults at the vector, its pushes and `I` done (R292, R303). -/
theorem enterTrap_unattached {vector ret : Word} (b : Bool) {s : State} (hc : s.cart = none)
    (h0 : region vector = .cart) :
    enterTrap vector ret b s = .error (.busContractViolation vector) (s.trapFrame ret b) := by
  refine (bind_ok (pushWord_run _ _)).trans ((bind_ok (push_run _ _)).trans ?_)
  refine (bind_ok (modify_run _ _)).trans ?_
  exact bind_error (bind_error (cartRead_unattached h0 (s := s.trapFrame ret b) hc))

/-- TRAP RETURN in closed form (R290, R310). -/
theorem returnFromTrap_run (s : State) :
    returnFromTrap s =
      .ok () ((((((s.setSp (s.sp + 1)).setP (unpackP (s.ram.read (256 + (s.sp + 1).toNat)))).setSp (s.sp + 1 + 1)).setSp
        (s.sp + 1 + 1 + 1))).setPc
        (join (s.ram.read (256 + (s.sp + 1 + 1 + 1).toNat)) (s.ram.read (256 + (s.sp + 1 + 1).toNat)))) := by
  rw [returnFromTrap, bind_ok (pull_run _), modify_bind, bind_ok (pullWord_run _)]
  rfl

/-! The vectors are cartridge space (spec/20_memory.md R59). -/

theorem region_brkVector : region brkVector = .cart ∧ region (brkVector + 1) = .cart := by decide
theorem region_nmiVector : region nmiVector = .cart ∧ region (nmiVector + 1) = .cart := by decide
theorem region_resetVector : region resetVector = .cart ∧ region (resetVector + 1) = .cart := by decide

/-- `Reset()` in closed form (spec/70_reset_and_hazards.md R331). -/
theorem resetCpu_run {s : State} {c : Cart} (hc : s.cart = some c) :
    resetCpu s = .ok () (((((s.setPc (join (c.read (resetVector + 1)) (c.read resetVector))).setSp resetSp).setP
      resetP).setCyc 0).setReport none) := by
  rw [resetCpu, bind_ok (read16_cart region_resetVector.1 region_resetVector.2 hc), modify_run]

/-- A push keeps the state well-formed. -/
theorem State.pushed_wf {s : State} (hs : s.wf) (v : Byte) : (s.pushed v).wf := by
  obtain ⟨hP, ⟨⟨hr, hr'⟩, hppu, hcart⟩, hT⟩ := hs
  have := s.sp.isLt
  exact ⟨hP, ⟨⟨Memory.write_wf hr _ _, Memory.write_within hr' (by omega) _⟩, hppu, hcart⟩, hT⟩

end Sys2Proof.Machine
end

