-- ==== Sys2Proof/Laws/Operands.lean ====
section
/-! SUPPORT. Operand resolution and access: a resolver answers in every state and moves `PC` alone; what an operand read and a read-modify-write can do. -/

namespace Sys2Proof.Machine

theorem zext_toNat (v : Byte) : (zext v).toNat = v.toNat := by
  have := v.isLt
  simp only [zext, BitVec.toNat_setWidth]
  omega

theorem region_zext (v : Byte) : region (zext v) = .ram :=
  region_ram_of_lt (by rw [zext_toNat]; have := v.isLt; omega)

theorem ramIndex_zext (v : Byte) : ramIndex (zext v) = v.toNat := by
  rw [ramIndex_eq, zext_toNat]; have := v.isLt; omega

/-- A page-zero pointer is read from RAM, without any effect (R183, R184). -/
theorem zpPointer_run (z : Byte) (s : State) : zpPointer z s = .ok (s.zpWord z) s :=
  read16_ram (region_zext _) (region_zext _) s

/-- The effective address of an operand form, as R186 tabulates it. -/
def State.eaOf (s : State) : Operand → Ea
  | .acc => .acc
  | .imm v => .fetched (s.pc + 1) v
  | .zp b => .addr (zext b)
  | .zpx b => .addr (zext (b + s.x))
  | .zpy b => .addr (zext (b + s.y))
  | .abs a => .addr a
  | .absx a => .addr (a + zext s.x)
  | .absy a => .addr (a + zext s.y)
  | .indx b => .addr (s.zpWord (b + s.x))
  | .indy b => .addr (s.zpWord b + zext s.y)

/-- The width of an instruction with this operand (R151). -/
def operandWidth : Operand → Word
  | .acc => 1
  | .imm _ | .zp _ | .zpx _ | .zpy _ | .indx _ | .indy _ => 2
  | .abs _ | .absx _ | .absy _ => 3

/-- Every resolver answers in every state and moves `PC` alone. -/
theorem resolve_run (m : Operand) (s : State) :
    resolve m s = .ok (s.eaOf m) (s.setPc (s.pc + operandWidth m)) := by
  cases m with
  | indx b => exact (bind_ok (zpPointer_run _ s)).trans rfl
  | indy b => exact (bind_ok (zpPointer_run _ s)).trans rfl
  | _ => rfl

/-- An operand read changes the PPU and the draw counter at most. -/
theorem readOperand_frame {ea : Ea} {s t : State} {v : Byte} (h : readOperand ea s = .ok v t) :
    t = (s.setPpu t.ppu).setDraws t.draws := by
  cases ea with
  | addr a => exact memRead_frame h
  | _ => cases h; rfl

theorem readOperand_attached {s : State} (hs : s.attached) (ea : Ea) : ∃ v t, readOperand ea s = .ok v t := by
  cases ea with
  | addr a => exact memRead_attached hs a
  | _ => exact ⟨_, _, rfl⟩

theorem readOperand_wf {ea : Ea} {s t : State} {v : Byte} (h : readOperand ea s = .ok v t) (hs : s.wf) : t.wf := by
  cases ea with
  | addr a => exact memRead_wf h hs
  | _ => cases h; exact hs

theorem readOperand_error {ea : Ea} {s t : State} {e : Fault} (h : readOperand ea s = .error e t) :
    (∃ a, e = .busContractViolation a) ∧ s.cart = none := by
  cases ea with
  | addr a => exact ⟨⟨a, (memRead_error h).1⟩, (memRead_error h).2⟩
  | _ => cases h

/-- An operand write changes `A`, RAM and the PPU at most. -/
theorem writeOperand_frame {ea : Ea} {v : Byte} {s t : State} (h : writeOperand ea v s = .ok () t) :
    t = ((s.setA t.a).setRam t.ram).setPpu t.ppu := by
  cases ea with
  | acc => cases h; rfl
  | addr a => exact (memWrite_frame h).trans (by rw [memWrite_frame h]; rfl)
  | fetched a w => exact (memWrite_frame h).trans (by rw [memWrite_frame h]; rfl)

theorem writeOperand_attached {s : State} (hs : s.attached) (ea : Ea) (v : Byte) :
    ∃ t, writeOperand ea v s = .ok () t := by
  cases ea with
  | acc => exact ⟨_, rfl⟩
  | addr a => exact memWrite_attached hs a v
  | fetched a w => exact memWrite_attached hs a v

theorem writeOperand_wf {ea : Ea} {v : Byte} {s t : State} (h : writeOperand ea v s = .ok () t) (hs : s.wf) : t.wf := by
  cases ea with
  | acc => cases h; exact hs
  | addr a => exact memWrite_wf h hs
  | fetched a w => exact memWrite_wf h hs

theorem writeOperand_error {ea : Ea} {v : Byte} {s t : State} {e : Fault} (h : writeOperand ea v s = .error e t) :
    (∃ a, e = .busContractViolation a) ∧ s.cart = none := by
  cases ea with
  | acc => cases h
  | addr a => exact ⟨⟨a, (memWrite_error h).1⟩, (memWrite_error h).2⟩
  | fetched a w => exact ⟨⟨a, (memWrite_error h).1⟩, (memWrite_error h).2⟩

/-- The operand of an instruction that only reads it: the resolver moves `PC`, the read does the rest. -/
theorem operandByte_run (m : Operand) (s : State) :
    operandByte m s = readOperand (s.eaOf m) (s.setPc (s.pc + operandWidth m)) :=
  bind_ok (resolve_run m s)

/-- An instruction that reads its operand and changes registers answers exactly if the operand read does. -/
theorem withOperand_run {m : Operand} {f : Byte → State → State} {s t : State} {v : Byte}
    (h : operandByte m s = .ok v t) : withOperand m f s = .ok () (f v t) :=
  bind_ok h

theorem withOperand_eq_ok {m : Operand} {f : Byte → State → State} {s t : State} :
    withOperand m f s = .ok () t ↔ ∃ v u, operandByte m s = .ok v u ∧ t = f v u := by
  constructor
  · intro h
    obtain ⟨v, u, h1, h2⟩ := bind_eq_ok.mp h
    cases h2
    exact ⟨v, u, h1, rfl⟩
  · rintro ⟨v, u, h1, rfl⟩
    exact withOperand_run h1

/-- A store answers exactly if its operand write does. -/
theorem storeOperand_run (m : Operand) (r : State → Byte) (s : State) :
    storeOperand m r s =
      writeOperand (s.eaOf m) (r (s.setPc (s.pc + operandWidth m))) (s.setPc (s.pc + operandWidth m)) :=
  bind_ok (resolve_run m s)

/-- A read-modify-write in its steps: the operand read, the early flags, the write, `SetZN`. -/
theorem readModifyWrite_eq_ok {m : Operand} {result : Byte → Byte → Byte} {before : Byte → State → State}
    {s t : State} :
    readModifyWrite m result before s = .ok () t ↔
      ∃ v u w, operandByte m s = .ok v u ∧
        writeOperand (s.eaOf m) (result u.p v) (before v u) = .ok () w ∧ t = w.putZN (result u.p v) := by
  rw [operandByte_run]
  constructor
  · intro h
    have h' := (bind_ok (resolve_run m s)).symm.trans h
    obtain ⟨v, u, h1, h2⟩ := bind_eq_ok.mp h'
    have h2' : (writeOperand (s.eaOf m) (result u.p v) >>= fun _ => modify fun q => q.putZN (result u.p v))
        (before v u) = .ok () t := h2
    obtain ⟨_, w, h3, h4⟩ := bind_eq_ok.mp h2'
    cases h4
    exact ⟨v, u, w, h1, h3, rfl⟩
  · rintro ⟨v, u, w, h1, h3, rfl⟩
    refine (bind_ok (resolve_run m s)).trans ((bind_ok h1).trans ?_)
    exact bind_ok h3

/-- A branch in closed form (R250). -/
theorem branch_run (i : Nat) (want : Bool) (offset : Byte) (s : State) :
    branch i want offset s =
      .ok () (s.setPc (if flag s.p i = want then relTarget s.pc offset else s.pc + 2)) := by
  simp only [branch, get_bind, advance, modify_bind]
  split <;> rfl

/-- An implied instruction in closed form (R173). -/
theorem implied_run (f : State → State) (s : State) : implied f s = .ok () (f (s.setPc (s.pc + 1))) := rfl

end Sys2Proof.Machine
end

