-- ==== Sys2Proof/Laws/Meaning.lean ====
section
/-! SUPPORT. exec is the outcome of the meaning; the fetch, said once. -/

namespace Sys2Proof.Machine

/-- `exec` runs the computation `meaning` gives, for every instruction. -/
theorem exec_eq_outcome (i : Instr) (s : State) : exec i s = outcome (meaning i) s := by
  cases i <;> rfl

/-- No instruction is refused. -/
theorem exec_ne_refused (i : Instr) (s : State) (r : Refusal) : exec i s ≠ .refused r := by
  rw [exec_eq_outcome]; exact outcome_ne_refused

/-- The operand fetch changes the PPU and the draw counter at most. -/
theorem fetchOperands_frame {pc0 : Word} {n : Nat} {s t : State} {b : Byte × Byte}
    (h : fetchOperands pc0 n s = .ok b t) : t = (s.setPpu t.ppu).setDraws t.draws := by
  match n, h with
  | 0, h => cases h; rfl
  | 1, h =>
    obtain ⟨b1, u, h1, h⟩ := bind_eq_ok.mp h
    cases h
    exact memRead_frame h1
  | _ + 2, h =>
    obtain ⟨b1, u, h1, h⟩ := bind_eq_ok.mp h
    obtain ⟨b2, w, h2, h⟩ := bind_eq_ok.mp h
    cases h
    rw [memRead_frame h2, memRead_frame h1]; rfl

theorem fetchOperands_attached {s : State} (hs : s.attached) (pc0 : Word) (n : Nat) :
    ∃ b t, fetchOperands pc0 n s = .ok b t := by
  match n with
  | 0 => exact ⟨_, _, rfl⟩
  | 1 =>
    obtain ⟨b1, u, h1⟩ := memRead_attached hs (pc0 + 1)
    exact ⟨_, _, bind_ok h1⟩
  | _ + 2 =>
    obtain ⟨b1, u, h1⟩ := memRead_attached hs (pc0 + 1)
    have hu : u.attached := by rw [memRead_frame h1]; exact hs
    obtain ⟨b2, w, h2⟩ := memRead_attached hu (pc0 + 2)
    exact ⟨_, _, (bind_ok h1).trans (bind_ok h2)⟩

theorem fetchOperands_wf {pc0 : Word} {n : Nat} {s t : State} {b : Byte × Byte}
    (h : fetchOperands pc0 n s = .ok b t) (hs : s.wf) : t.wf := by
  match n, h with
  | 0, h => cases h; exact hs
  | 1, h =>
    obtain ⟨b1, u, h1, h⟩ := bind_eq_ok.mp h
    cases h
    exact memRead_wf h1 hs
  | _ + 2, h =>
    obtain ⟨b1, u, h1, h⟩ := bind_eq_ok.mp h
    obtain ⟨b2, w, h2, h⟩ := bind_eq_ok.mp h
    cases h
    exact memRead_wf h2 (memRead_wf h1 hs)

/-- Everything a fetch can do when it answers: an illegal byte latches nothing; a legal one latches `prevPC` and `OP`
before its operand bytes are read (spec/30_encoding.md R150). -/
theorem fetch_cases {s t : State} {i : Instr} (h : fetch s = .ok i t) :
    ∃ op u, memRead s.pc s = .ok op u ∧
      (((dispatch op).isIllegal = true ∧ i = .illegal op ∧ t = u) ∨
        ((dispatch op).isIllegal = false ∧ ∃ b,
          fetchOperands s.pc (operandCount op) (u.latchOpcode s.pc op) = .ok b t ∧ i = instrOf op b.1 b.2)) := by
  have h' : (memRead s.pc >>= fun op =>
      if (dispatch op).isIllegal then pure (.illegal op)
      else do
        modify fun s' => s'.latchOpcode s.pc op
        let b ← fetchOperands s.pc (operandCount op)
        pure (instrOf op b.1 b.2) : Exec Instr) s = .ok i t := h
  obtain ⟨op, u, h1, h2⟩ := bind_eq_ok.mp h'
  refine ⟨op, u, h1, ?_⟩
  by_cases hi : (dispatch op).isIllegal = true
  · simp only [hi, if_true] at h2
    cases h2
    exact .inl ⟨hi, rfl, rfl⟩
  · simp only [hi] at h2
    have h3 : (fetchOperands s.pc (operandCount op) >>= fun b => pure (instrOf op b.1 b.2) : Exec Instr)
        (u.latchOpcode s.pc op) = .ok i t := h2
    obtain ⟨b, w, h4, h5⟩ := bind_eq_ok.mp h3
    cases h5
    exact .inr ⟨by simpa using hi, b, h4, rfl⟩

/-- With a cartridge attached every fetch answers. -/
theorem fetch_attached {s : State} (hs : s.attached) : ∃ i t, fetch s = .ok i t := by
  obtain ⟨op, u, h1⟩ := memRead_attached hs s.pc
  have hu : (u.latchOpcode s.pc op).attached := by rw [memRead_frame h1]; exact hs
  obtain ⟨b, w, h2⟩ := fetchOperands_attached hu s.pc (operandCount op)
  by_cases hi : (dispatch op).isIllegal = true
  · exact ⟨_, _, (bind_ok h1).trans (by simp only [hi, if_true]; rfl)⟩
  · exact ⟨_, _, (bind_ok h1).trans (by simp only [hi]; exact bind_ok h2)⟩

end Sys2Proof.Machine
end

