-- ==== Sys2Proof/Laws/Claims.lean ====
section
/-! SUPPORT. The model's operand access and fetch said in the words of Safety.lean, where addresses are numbers. -/

namespace Sys2Proof.Machine

open Sys2Proof.Claims

theorem wordOf_toNat (n : Nat) : (wordOf n).toNat = n % 65536 := BitVec.toNat_ofNat n 16

theorem byteOf_toNat (n : Nat) : (byteOf n).toNat = n % 256 := BitVec.toNat_ofNat n 8

theorem wordOf_of_toNat (w : Word) : wordOf w.toNat = w := BitVec.eq_of_toNat_eq (by
  rw [wordOf_toNat]; have := w.isLt; omega)

theorem byteOf_of_toNat (b : Byte) : byteOf b.toNat = b := BitVec.eq_of_toNat_eq (by
  rw [byteOf_toNat]; have := b.isLt; omega)

/-- A word is a number's word if it is that number modulo 65536. -/
theorem eq_wordOf {w : Word} {n : Nat} (h : w.toNat = n % 65536) : w = wordOf n :=
  BitVec.eq_of_toNat_eq (by rw [h, wordOf_toNat])

/-- A byte is a number's byte if it is that number modulo 256. -/
theorem eq_byteOf {b : Byte} {n : Nat} (h : b.toNat = n % 256) : b = byteOf n :=
  BitVec.eq_of_toNat_eq (by rw [h, byteOf_toNat])

theorem word_add_toNat (a b : Word) : (a + b).toNat = (a.toNat + b.toNat) % 65536 := BitVec.toNat_add a b

theorem byte_add_toNat (a b : Byte) : (a + b).toNat = (a.toNat + b.toNat) % 256 := BitVec.toNat_add a b

theorem byte_sub_toNat (a b : Byte) : (a - b).toNat = (256 - b.toNat + a.toNat) % 256 := BitVec.toNat_sub a b

/-- Two bytes side by side (spec/20_memory.md R60). -/
theorem join_toNat (hi lo : Byte) : (join hi lo).toNat = 256 * hi.toNat + lo.toNat := by
  have := lo.isLt
  simp only [join, BitVec.toNat_append]
  rw [← Nat.shiftLeft_add_eq_or_of_lt (by simpa using this), Nat.shiftLeft_eq]
  omega

theorem join_eq (hi lo : Byte) : join hi lo = wordOfBytes hi lo :=
  eq_wordOf (by rw [join_toNat]; have := hi.isLt; have := lo.isLt; omega)

theorem hiByte_toNat (w : Word) : (hiByte w).toNat = w.toNat / 256 := by
  have := w.isLt
  simp only [hiByte, BitVec.extractLsb'_toNat, Nat.shiftRight_eq_div_pow]
  omega

theorem loByte_toNat (w : Word) : (loByte w).toNat = w.toNat % 256 := by
  simp only [loByte, BitVec.toNat_setWidth]

theorem hiByte_eq (w : Word) : hiByte w = byteOf (w.toNat / 256) :=
  eq_byteOf (by rw [hiByte_toNat]; have := w.isLt; omega)

theorem loByte_eq (w : Word) : loByte w = byteOf w.toNat := eq_byteOf (loByte_toNat w)

/-- `PC` moved by a constant. -/
theorem past_eq (s : State) (n : Nat) : past s n = s.setPc (s.pc + BitVec.ofNat 16 n) := by
  rw [past]
  congr 1
  refine (eq_wordOf ?_).symm
  rw [word_add_toNat, BitVec.toNat_ofNat]
  omega

theorem past_one (s : State) : past s 1 = s.setPc (s.pc + 1) := past_eq s 1

theorem past_two (s : State) : past s 2 = s.setPc (s.pc + 2) := past_eq s 2

theorem past_length (s : State) (m : Operand) : past s (length m) = s.setPc (s.pc + operandWidth m) := by
  cases m <;> exact past_eq s _

/-- The word a page-zero pointer holds, as a number (spec/40_addressing_modes.md R183). -/
theorem zpWord_toNat (s : State) (z : Byte) : (s.zpWord z).toNat = pointer s z.toNat := by
  have h1 : (z + 1).toNat = (z.toNat + 1) % 256 := byte_add_toNat z 1
  simp only [State.zpWord, join_toNat, State.ramByte, ramIndex_zext, h1, pointer]

/-- The effective address of every memory operand (spec/40_addressing_modes.md R186). -/
theorem eaOf_address {s : State} {m : Operand} {a : Nat} (h : address s m = some a) :
    a < 65536 ∧ s.eaOf m = .addr (wordOf a) := by
  have hp : ∀ z, pointer s z < 65536 := fun z => by
    have h1 := (s.ram.read ((z + 1) % 256)).isLt
    have h2 := (s.ram.read z).isLt
    unfold pointer; omega
  cases m with
  | acc => cases h
  | imm b => cases h
  | zp b =>
    cases h
    have := b.isLt
    exact ⟨by omega, congrArg Ea.addr (eq_wordOf (by rw [zext_toNat]; omega))⟩
  | zpx b =>
    cases h
    exact ⟨by omega, congrArg Ea.addr (eq_wordOf (by rw [zext_toNat, byte_add_toNat]; omega))⟩
  | zpy b =>
    cases h
    exact ⟨by omega, congrArg Ea.addr (eq_wordOf (by rw [zext_toNat, byte_add_toNat]; omega))⟩
  | abs w => cases h; exact ⟨w.isLt, congrArg Ea.addr (wordOf_of_toNat w).symm⟩
  | absx w =>
    cases h
    exact ⟨by omega, congrArg Ea.addr (eq_wordOf (by rw [word_add_toNat, zext_toNat]; omega))⟩
  | absy w =>
    cases h
    exact ⟨by omega, congrArg Ea.addr (eq_wordOf (by rw [word_add_toNat, zext_toNat]; omega))⟩
  | indx b =>
    cases h
    refine ⟨hp _, congrArg Ea.addr (eq_wordOf ?_)⟩
    rw [zpWord_toNat, byte_add_toNat, Nat.mod_eq_of_lt (hp _)]
  | indy b =>
    cases h
    refine ⟨by omega, congrArg Ea.addr (eq_wordOf ?_)⟩
    rw [word_add_toNat, zpWord_toNat, zext_toNat]
    omega

/-- The resolvers move `PC` by the instruction's length, and give the address `address` computes. -/
theorem resolve_address {s : State} {m : Operand} {a : Nat} (h : address s m = some a) :
    resolve m s = .ok (.addr (wordOf a)) (past s (length m)) := by
  rw [resolve_run, (eaOf_address h).2, past_length]

/-- `Reads` is the operand read of the meanings. -/
theorem reads_iff (s : State) (m : Operand) (v : Byte) (u : State) : Reads s m v u ↔ operandByte m s = .ok v u := by
  rw [operandByte_run, ← past_length]
  cases h : address s m with
  | some a =>
    rw [(eaOf_address h).2]
    simp only [Reads, h]
    rfl
  | none =>
    simp only [Reads, h]
    cases m with
    | acc =>
      constructor
      · rintro ⟨rfl, rfl⟩; rfl
      · intro h; cases h; exact ⟨rfl, rfl⟩
    | imm b =>
      constructor
      · rintro ⟨rfl, rfl⟩; rfl
      · intro h; cases h; exact ⟨rfl, rfl⟩
    | _ => cases h

/-- `Writes` is the operand write of the meanings, for every form an instruction writes through. -/
theorem writes_iff {s : State} {m : Operand} (hm : ∀ b, m ≠ .imm b) (r : Byte) (u w : State) :
    Writes s m r u w ↔ writeOperand (s.eaOf m) r u = .ok () w := by
  cases h : address s m with
  | some a =>
    rw [(eaOf_address h).2]
    simp only [Writes, h]
    rfl
  | none =>
    simp only [Writes, h]
    cases m with
    | acc =>
      constructor
      · rintro rfl; rfl
      · intro h; cases h; rfl
    | imm b => exact absurd rfl (hm b)
    | _ => cases h

/-- A write of a VRAM cell does not look at `P`. -/
theorem writeVram_setP {cpu addr : Word} {v : Byte} {s t : State} {k : Unit} (h : writeVram cpu addr v s = .ok k t) (p : Byte) :
    writeVram cpu addr v (s.setP p) = .ok () (t.setP p) := by
  have hc : vramCell (s.setP p) addr = vramCell s addr := rfl
  simp only [writeVram] at h ⊢
  rw [hc]
  split at h <;> cases h
  rfl

/-- A bus write does not look at `P`. -/
theorem memWrite_setP {a : Word} {v : Byte} {s t : State} (h : memWrite a v s = .ok () t) (p : Byte) :
    memWrite a v (s.setP p) = .ok () (t.setP p) := by
  cases ha : region a with
  | ram => rw [memWrite_ram ha] at h ⊢; cases h; rfl
  | hole => rw [memWrite_hole ha] at h ⊢; cases h; rfl
  | cart =>
    simp only [memWrite, ha, cartWrite, State.setP_cart] at h ⊢
    split at h <;> cases h
    rfl
  | ppu =>
    simp only [memWrite, ha, ppuWriteRegister, modifyPpu, modify_bind] at h ⊢
    cases hs : slotOf a <;> simp only [hs] at h ⊢
    case vramData =>
      simp only [get_bind] at h
      obtain ⟨_, w, h1, h2⟩ := bind_eq_ok.mp h
      cases h2
      exact bind_ok (writeVram_setP h1 p)
    all_goals (cases h; rfl)

/-- An operand write does not look at `P`. -/
theorem writeOperand_setP {ea : Ea} {v : Byte} {s t : State} (h : writeOperand ea v s = .ok () t) (p : Byte) :
    writeOperand ea v (s.setP p) = .ok () (t.setP p) := by
  cases ea with
  | acc => cases h; rfl
  | addr a => exact memWrite_setP h p
  | fetched a w => exact memWrite_setP h p

/-- An operand read leaves `P`, `A` and the other registers. -/
theorem reads_frame {s : State} {m : Operand} {v : Byte} {u : State} (h : Reads s m v u) :
    u = ((past s (length m)).setPpu u.ppu).setDraws u.draws := by
  rw [reads_iff, operandByte_run, ← past_length] at h
  exact readOperand_frame h

/-- An instruction that reads its operand and changes registers, in closed form. -/
theorem withOperand_reads {m : Operand} {s u : State} {v : Byte} (h : Reads s m v u) (f : Byte → State → State) :
    withOperand m f s = .ok () (f v u) :=
  withOperand_run ((reads_iff s m v u).mp h)

/-- A read-modify-write whose early update is of `P` alone, in closed form. -/
theorem readModifyWrite_reads {m : Operand} (hm : ∀ b, m ≠ .imm b) {s u w : State} {v : Byte} (h : Reads s m v u)
    {result : Byte → Byte → Byte} {p' : Byte} {before : Byte → State → State} (hb : before v u = u.setP p')
    (hw : Writes s m (result u.p v) u w) :
    readModifyWrite m result before s = .ok () ((w.setP p').putZN (result u.p v)) :=
  readModifyWrite_eq_ok.mpr ⟨v, u, w.setP p', (reads_iff s m v u).mp h,
    by rw [hb]; exact writeOperand_setP ((writes_iff hm _ _ _).mp hw) p', rfl⟩

/-- The branch target in signed arithmetic (spec/40_addressing_modes.md R185). -/
theorem relTarget_eq (p : Word) (d : Byte) : relTarget p d = branchTarget p d := by
  refine BitVec.eq_of_toInt_eq ?_
  have hp : p.toInt = (p.toNat : Int) - 65536 * (if 2 * p.toNat < 65536 then 0 else 1) := by
    rw [BitVec.toInt_eq_toNat_cond]; split <;> omega
  have h2 : (2 : Word).toInt = 2 := by decide
  simp only [relTarget, branchTarget, sext, BitVec.toInt_add, BitVec.toInt_ofInt]
  rw [BitVec.toInt_signExtend_of_le (by decide), h2, hp, Int.bmod_add_bmod]
  rw [← Int.emod_bmod, ← Int.emod_bmod ((p.toNat : Int) + 2 + d.toInt)]
  congr 1
  split <;> omega

/-! Stack pointers as numbers. -/

theorem byte_sub_one (b : Byte) : b - 1 = byteOf (b.toNat + 255) :=
  eq_byteOf (by rw [byte_sub_toNat]; show (255 + _) % 256 = _; omega)

theorem byte_sub_two (b : Byte) : b - 1 - 1 = byteOf (b.toNat + 254) :=
  eq_byteOf (by rw [byte_sub_toNat, byte_sub_toNat]; show (255 + (255 + _) % 256) % 256 = _; omega)

theorem byte_sub_three (b : Byte) : b - 1 - 1 - 1 = byteOf (b.toNat + 253) :=
  eq_byteOf (by
    rw [byte_sub_toNat, byte_sub_toNat, byte_sub_toNat]; show (255 + (255 + (255 + _) % 256) % 256) % 256 = _; omega)

theorem byte_add_one (b : Byte) : b + 1 = byteOf (b.toNat + 1) := eq_byteOf (byte_add_toNat b 1)

theorem byte_add_two (b : Byte) : b + 1 + 1 = byteOf (b.toNat + 2) :=
  eq_byteOf (by rw [byte_add_toNat, byte_add_toNat]; show ((_ + 1) % 256 + 1) % 256 = _; omega)

theorem byte_add_three (b : Byte) : b + 1 + 1 + 1 = byteOf (b.toNat + 3) :=
  eq_byteOf (by
    rw [byte_add_toNat, byte_add_toNat, byte_add_toNat]; show (((_ + 1) % 256 + 1) % 256 + 1) % 256 = _; omega)

/-- The first of two cells for one index is the one looked up. -/
theorem lookup_cell (i k : Nat) (v : Byte) (cs : List (Nat × Byte)) :
    ((k, v) :: cs).lookup i = if i = k then some v else cs.lookup i := by
  rw [List.lookup]
  by_cases h : i = k
  · simp only [h, beq_self_eq_true, if_true]
  · simp only [beq_eq_false_iff_ne.mpr h, if_neg h]

theorem stored_nil (m : Memory) : Stored m m [] := fun _ => rfl

/-- A further byte written. -/
theorem stored_write {m m' : Memory} {cs : List (Nat × Byte)} (h : Stored m m' cs) (hw : m'.wf) (i : Nat) (v : Byte) :
    Stored m (m'.write i v) ((i, v) :: cs) := by
  intro j
  rw [Memory.read_write _ _ _ _ hw, lookup_cell]
  split
  · rfl
  · exact h j

/-- Two lists of cells that look up alike store alike. -/
theorem stored_congr {m m' : Memory} {cs ds : List (Nat × Byte)} (h : Stored m m' cs) (hl : ∀ i, cs.lookup i = ds.lookup i) :
    Stored m m' ds := fun i => by rw [h i, hl i]

theorem stored_pushed {s : State} (hr : s.ram.wf) (v : Byte) : Stored s.ram (s.pushed v).ram [(slot s.sp, v)] :=
  stored_write (stored_nil _) hr _ _

theorem pushed_ram_wf {s : State} (hr : s.ram.wf) (v : Byte) : (s.pushed v).ram.wf := Memory.write_wf hr _ _

/-- The two bytes of a pushed word, at every stack pointer. -/
theorem stored_pushedWord {s : State} (hr : s.ram.wf) (w : Word) :
    Stored s.ram ((s.pushed (hiByte w)).pushed (loByte w)).ram [(slot s.sp, hiByte w), (slot (s.sp - 1), loByte w)] := by
  refine stored_congr (stored_write (stored_pushed hr (hiByte w)) (pushed_ram_wf hr _) (slot (s.sp - 1)) (loByte w)) fun i => ?_
  have h1 : (s.sp - 1).toNat = (255 + s.sp.toNat) % 256 := byte_sub_toNat _ 1
  have := s.sp.isLt
  simp only [lookup_cell, slot, h1]
  split <;> split <;> first | rfl | omega

/-- The three bytes of a trap frame, at every stack pointer. -/
theorem stored_trapFrame {s : State} (hr : s.ram.wf) (ret : Word) (b : Bool) :
    Stored s.ram (s.trapFrame ret b).ram
      [(slot s.sp, hiByte ret), (slot (s.sp - 1), loByte ret), (slot (s.sp - 1 - 1), packP s.p b)] := by
  refine stored_congr (stored_write (stored_pushedWord hr ret) (pushed_ram_wf (pushed_ram_wf hr _) _) (slot (s.sp - 1 - 1))
    (packP s.p b)) fun i => ?_
  have h1 : (s.sp - 1).toNat = (255 + s.sp.toNat) % 256 := byte_sub_toNat _ 1
  have h2 : (s.sp - 1 - 1).toNat = (255 + (s.sp - 1).toNat) % 256 := byte_sub_toNat _ 1
  have := s.sp.isLt
  simp only [lookup_cell, slot, h1, h2]
  split <;> split <;> (try split) <;> first | rfl | omega

/-- The address of JMP indirect's high byte, as a number (spec/40_addressing_modes.md R182). -/
theorem indirectHigh_eq (b : Bool) (a : Word) :
    indirectHigh b a = if b then wordOf (256 * (a.toNat / 256) + (a.toNat + 1) % 256) else wordOf (a.toNat + 1) := by
  have := a.isLt
  cases b
  · exact eq_wordOf (word_add_toNat a 1)
  · refine eq_wordOf ?_
    show (join (hiByte a) (loByte a + 1)).toNat = _
    rw [join_toNat, hiByte_toNat, byte_add_toNat, loByte_toNat]
    show 256 * (a.toNat / 256) + (a.toNat % 256 + 1) % 256 = _
    omega

end Sys2Proof.Machine
end

