-- ==== Sys2Proof/Laws/PerInstr.lean ====
section
/-! SUPPORT. One fact per instruction about its encoding: the opcode byte R157 gives calls for exactly the operand bytes it has. -/

namespace Sys2Proof.Laws.Encoding

/-- A well-formed instruction is its opcode byte followed by as many operand bytes as the opcode map's cell for that byte
calls for (spec/30_encoding.md R151). -/
def Statement (i : Instr) : Prop :=
  WellFormed i = true → ∃ op, encode i = op :: operandBytesOf i ∧ operandCount op = (operandBytesOf i).length

/-- The 105 bytes of R154 are the cells of the opcode map with no instruction. -/
theorem illegal_cell : ∀ op : Byte, illegalOpcodes.contains op.toNat = (dispatch op).isIllegal := by decide

/-- A cell with no instruction calls for no operand byte. -/
theorem illegal_count (op : Byte) (h : (dispatch op).isIllegal = true) : operandCount op = 0 := by
  unfold operandCount
  cases hd : dispatch op <;> rw [hd] at h <;> first | rfl | cases h

theorem adc (m : Operand) : Statement (.adc m) := by
  intro h
  cases m <;> first | exact ⟨_, rfl, rfl⟩ | cases h

theorem and (m : Operand) : Statement (.and m) := by
  intro h
  cases m <;> first | exact ⟨_, rfl, rfl⟩ | cases h

theorem asl (m : Operand) : Statement (.asl m) := by
  intro h
  cases m <;> first | exact ⟨_, rfl, rfl⟩ | cases h

theorem bcc (offset : Byte) : Statement (.bcc offset) := fun _ => ⟨_, rfl, rfl⟩

theorem bcs (offset : Byte) : Statement (.bcs offset) := fun _ => ⟨_, rfl, rfl⟩

theorem beq (offset : Byte) : Statement (.beq offset) := fun _ => ⟨_, rfl, rfl⟩

theorem bit (m : Operand) : Statement (.bit m) := by
  intro h
  cases m <;> first | exact ⟨_, rfl, rfl⟩ | cases h

theorem bmi (offset : Byte) : Statement (.bmi offset) := fun _ => ⟨_, rfl, rfl⟩

theorem bne (offset : Byte) : Statement (.bne offset) := fun _ => ⟨_, rfl, rfl⟩

theorem bpl (offset : Byte) : Statement (.bpl offset) := fun _ => ⟨_, rfl, rfl⟩

theorem brk : Statement .brk := fun _ => ⟨_, rfl, rfl⟩

theorem bvc (offset : Byte) : Statement (.bvc offset) := fun _ => ⟨_, rfl, rfl⟩

theorem bvs (offset : Byte) : Statement (.bvs offset) := fun _ => ⟨_, rfl, rfl⟩

theorem clc : Statement .clc := fun _ => ⟨_, rfl, rfl⟩

theorem cld : Statement .cld := fun _ => ⟨_, rfl, rfl⟩

theorem cli : Statement .cli := fun _ => ⟨_, rfl, rfl⟩

theorem clv : Statement .clv := fun _ => ⟨_, rfl, rfl⟩

theorem cmp (m : Operand) : Statement (.cmp m) := by
  intro h
  cases m <;> first | exact ⟨_, rfl, rfl⟩ | cases h

theorem cpx (m : Operand) : Statement (.cpx m) := by
  intro h
  cases m <;> first | exact ⟨_, rfl, rfl⟩ | cases h

theorem cpy (m : Operand) : Statement (.cpy m) := by
  intro h
  cases m <;> first | exact ⟨_, rfl, rfl⟩ | cases h

theorem dec (m : Operand) : Statement (.dec m) := by
  intro h
  cases m <;> first | exact ⟨_, rfl, rfl⟩ | cases h

theorem dex : Statement .dex := fun _ => ⟨_, rfl, rfl⟩

theorem dey : Statement .dey := fun _ => ⟨_, rfl, rfl⟩

theorem eor (m : Operand) : Statement (.eor m) := by
  intro h
  cases m <;> first | exact ⟨_, rfl, rfl⟩ | cases h

theorem inc (m : Operand) : Statement (.inc m) := by
  intro h
  cases m <;> first | exact ⟨_, rfl, rfl⟩ | cases h

theorem inx : Statement .inx := fun _ => ⟨_, rfl, rfl⟩

theorem iny : Statement .iny := fun _ => ⟨_, rfl, rfl⟩

theorem jmp (target : JumpTarget) : Statement (.jmp target) := by
  intro _
  cases target <;> exact ⟨_, rfl, rfl⟩

theorem jsr (target : Word) : Statement (.jsr target) := fun _ => ⟨_, rfl, rfl⟩

theorem lda (m : Operand) : Statement (.lda m) := by
  intro h
  cases m <;> first | exact ⟨_, rfl, rfl⟩ | cases h

theorem ldx (m : Operand) : Statement (.ldx m) := by
  intro h
  cases m <;> first | exact ⟨_, rfl, rfl⟩ | cases h

theorem ldy (m : Operand) : Statement (.ldy m) := by
  intro h
  cases m <;> first | exact ⟨_, rfl, rfl⟩ | cases h

theorem lsr (m : Operand) : Statement (.lsr m) := by
  intro h
  cases m <;> first | exact ⟨_, rfl, rfl⟩ | cases h

theorem nop : Statement .nop := fun _ => ⟨_, rfl, rfl⟩

theorem ora (m : Operand) : Statement (.ora m) := by
  intro h
  cases m <;> first | exact ⟨_, rfl, rfl⟩ | cases h

theorem pha : Statement .pha := fun _ => ⟨_, rfl, rfl⟩

theorem php : Statement .php := fun _ => ⟨_, rfl, rfl⟩

theorem pla : Statement .pla := fun _ => ⟨_, rfl, rfl⟩

theorem plp : Statement .plp := fun _ => ⟨_, rfl, rfl⟩

theorem rol (m : Operand) : Statement (.rol m) := by
  intro h
  cases m <;> first | exact ⟨_, rfl, rfl⟩ | cases h

theorem ror (m : Operand) : Statement (.ror m) := by
  intro h
  cases m <;> first | exact ⟨_, rfl, rfl⟩ | cases h

theorem rti : Statement .rti := fun _ => ⟨_, rfl, rfl⟩

theorem rts : Statement .rts := fun _ => ⟨_, rfl, rfl⟩

theorem sbc (m : Operand) : Statement (.sbc m) := by
  intro h
  cases m <;> first | exact ⟨_, rfl, rfl⟩ | cases h

theorem sec : Statement .sec := fun _ => ⟨_, rfl, rfl⟩

theorem sed : Statement .sed := fun _ => ⟨_, rfl, rfl⟩

theorem sei : Statement .sei := fun _ => ⟨_, rfl, rfl⟩

theorem sta (m : Operand) : Statement (.sta m) := by
  intro h
  cases m <;> first | exact ⟨_, rfl, rfl⟩ | cases h

theorem stx (m : Operand) : Statement (.stx m) := by
  intro h
  cases m <;> first | exact ⟨_, rfl, rfl⟩ | cases h

theorem sty (m : Operand) : Statement (.sty m) := by
  intro h
  cases m <;> first | exact ⟨_, rfl, rfl⟩ | cases h

theorem tax : Statement .tax := fun _ => ⟨_, rfl, rfl⟩

theorem tay : Statement .tay := fun _ => ⟨_, rfl, rfl⟩

theorem tsx : Statement .tsx := fun _ => ⟨_, rfl, rfl⟩

theorem txa : Statement .txa := fun _ => ⟨_, rfl, rfl⟩

theorem txs : Statement .txs := fun _ => ⟨_, rfl, rfl⟩

theorem tya : Statement .tya := fun _ => ⟨_, rfl, rfl⟩

theorem illegal (opcode : Byte) : Statement (.illegal opcode) := by
  intro h
  refine ⟨opcode, rfl, illegal_count opcode ?_⟩
  rw [← illegal_cell]
  simpa [WellFormed, Instr.formOk, Instr.operand?, Instr.opcodeOk] using h

end Sys2Proof.Laws.Encoding
end

