-- ==== Sys2Proof/Laws/Stopped.lean ====
section
/-! SUPPORT. The stopped machine: when a recorded fault stops it, and what a faulting computation leaves (spec/60_exceptions.md R302, R303). -/

namespace Sys2Proof.Machine

open Sys2Proof.Claims

theorem stops_iff {policy : IllegalPolicy} {f : Fault} :
    f.stops policy = true ↔ ((∃ op pc, f = .unimplementedOpcode op pc) → policy = .halt) := by
  cases f <;> simp [Fault.stops]

/-- The fault that stops the machine, in the words of Safety.lean. -/
theorem stoppedBy_eq_some {s : State} {f : Fault} : s.stoppedBy = some f ↔ Stopped s f := by
  simp only [State.stoppedBy, Option.filter_eq_some_iff, stops_iff, Stopped]

theorem stoppedBy_eq_none {s : State} : s.stoppedBy = none ↔ Running s := by
  rw [Option.eq_none_iff_forall_ne_some]
  exact forall_congr' fun f => not_congr stoppedBy_eq_some

/-- A machine that runs is not stopped, and one that is not stopped runs. -/
theorem stopped_or_running (s : State) : (∃ f, Stopped s f) ∨ Running s := by
  cases h : s.stoppedBy with
  | none => exact .inr (stoppedBy_eq_none.mp h)
  | some f => exact .inl ⟨f, stoppedBy_eq_some.mp h⟩

/-- A machine with no recorded fault runs. -/
theorem running_of_report {s : State} (h : s.report = none) : Running s := fun f hs => by
  rw [hs.1] at h; cases h

/-- Being stopped is a matter of the recorded fault and the policy. -/
theorem stopped_congr {s t : State} {f : Fault} (h : Stopped s f) (hr : t.report = s.report) (hp : t.params = s.params) :
    Stopped t f := ⟨hr.trans h.1, hp ▸ h.2⟩

theorem leaves_ok {x : Exec Unit} {s t : State} (h : x s = .ok () t) : leaves x s = none := by simp only [leaves, h]

theorem leaves_error {x : Exec Unit} {s t : State} {f : Fault} (h : x s = .error f t) :
    leaves x s = some (t.setReport (some f)) := by simp only [leaves, h]

/-- A stopped machine takes no interrupts. -/
theorem takesInterrupts_of_stopped {s : State} {f : Fault} (h : Stopped s f) : s.takesInterrupts = false := by
  simp [State.takesInterrupts, stoppedBy_eq_some.mpr h]

/-- A running machine takes interrupts if it has the inputs. -/
theorem takesInterrupts_of_running {s : State} (h : Running s) : s.takesInterrupts = s.params.hwInterruptInputs := by
  simp [State.takesInterrupts, stoppedBy_eq_none.mpr h]

theorem irqEntry_ignored {s : State} (h : s.takesInterrupts = false ∨ flag s.p bitI = true) : irqEntry s = .ok () s := by
  unfold irqEntry
  rcases h with h | h <;> simp [h]

theorem irqEntry_taken {s : State} (h : s.takesInterrupts = true) (hi : flag s.p bitI = false) :
    irqEntry s = interruptEntry brkVector s := by
  simp [irqEntry, h, hi]

theorem nmiEntry_ignored {s : State} (h : s.takesInterrupts = false) : nmiEntry s = .ok () s := by simp [nmiEntry, h]

theorem nmiEntry_taken {s : State} (h : s.takesInterrupts = true) : nmiEntry s = interruptEntry nmiVector s := by
  simp [nmiEntry, h]

/-- An `irq` that completes changed nothing or entered its handler. -/
theorem irq_eq_next {s t : State} (h : irq s = .next t) : t = s ∨ interruptEntry brkVector s = .ok () t := by
  unfold irq at h
  rw [outcome_eq_next] at h
  unfold irqEntry at h
  split at h
  · exact .inr h
  · cases h; exact .inl rfl

/-- An `nmi` that completes changed nothing or entered its handler. -/
theorem nmi_eq_next {s t : State} (h : nmi s = .next t) : t = s ∨ interruptEntry nmiVector s = .ok () t := by
  unfold nmi at h
  rw [outcome_eq_next] at h
  unfold nmiEntry at h
  split at h
  · exact .inr h
  · cases h; exact .inl rfl

/-- A stopped machine ignores the interrupts. -/
theorem irq_nmi_of_stopped {s : State} {f : Fault} (h : Stopped s f) : irq s = .next s ∧ nmi s = .next s :=
  ⟨outcome_ok (irqEntry_ignored (.inl (takesInterrupts_of_stopped h))), outcome_ok (nmiEntry_ignored (takesInterrupts_of_stopped h))⟩

end Sys2Proof.Machine
end

