-- ==== Sys2Proof/Laws/Tick.lean ====
section
/-! SUPPORT. The tick: a fetch in the words of Safety.lean, and the step around exec. -/

namespace Sys2Proof.Machine

open Sys2Proof.Claims

/-- The bytes R154 lists are the cells with no instruction. -/
theorem isIllegal_iff (op : Byte) : (dispatch op).isIllegal = true ↔ op.toNat ∈ illegalOpcodes := by
  rw [← Sys2Proof.Laws.Encoding.illegal_cell, List.contains_iff_mem]

theorem isIllegal_false {op : Byte} (h : op.toNat ∉ illegalOpcodes) : (dispatch op).isIllegal = false := by
  cases hd : (dispatch op).isIllegal
  · rfl
  · exact absurd ((isIllegal_iff op).mp hd) h

theorem word_add_two (w : Word) : w + 1 + 1 = w + 2 :=
  BitVec.eq_of_toNat_eq (by
    rw [word_add_toNat, word_add_toNat, word_add_toNat]; show ((_ + 1) % 65536 + 1) % 65536 = (_ + 2) % 65536; omega)

/-- Operand bytes fetched one by one are the operand bytes of the fetch, when they are all the instruction has. -/
theorem fetchOperands_of_fetchesBytes {s u : State} {pc0 : Word} {op : Byte} {bs : List Byte} {i : Instr}
    (h : FetchesBytes s (pc0 + 1) bs u) (hd : decode (op :: bs) = .ok (i, [])) :
    ∃ b : Byte × Byte, fetchOperands pc0 (operandCount op) s = .ok b u ∧ i = instrOf op b.1 b.2 := by
  simp only [decode] at hd
  split at hd
  · rename_i r hn
    cases hd
    cases h
    exact ⟨(0, 0), by rw [hn]; rfl, rfl⟩
  · rename_i b1 r hn
    cases hd
    obtain ⟨w, h1, rfl⟩ := h
    exact ⟨(_, 0), by rw [hn]; exact bind_ok h1, rfl⟩
  · rename_i b1 b2 r hn
    cases hd
    obtain ⟨w, h1, x, h2, rfl⟩ := h
    rw [word_add_two] at h2
    exact ⟨(_, _), by rw [hn]; exact (bind_ok h1).trans (bind_ok h2), rfl⟩
  · cases hd

/-- A legal instruction whose bytes are fetched is what the fetch answers (spec/30_encoding.md R150). -/
theorem fetch_of_fetches {s u : State} {op : Byte} {bs : List Byte} {i : Instr} (h : Fetches s op bs u)
    (hl : op.toNat ∉ illegalOpcodes) (hd : decode (op :: bs) = .ok (i, [])) : fetch s = .ok i u := by
  obtain ⟨w, h1, h2⟩ := h
  obtain ⟨b, h3, rfl⟩ := fetchOperands_of_fetchesBytes h2 hd
  refine (bind_ok h1).trans ?_
  simp only [isIllegal_false hl]
  exact bind_ok h3

/-- An illegal byte is fetched and nothing else (spec/60_exceptions.md R301). -/
theorem fetch_of_illegal {s w : State} {op : Byte} (h : memRead s.pc s = .ok op w) (hl : op.toNat ∈ illegalOpcodes) :
    fetch s = .ok (.illegal op) w := by
  refine (bind_ok h).trans ?_
  simp only [(isIllegal_iff op).mpr hl, if_true]
  rfl

/-- A stopped machine's tick is the fault that stopped it. -/
theorem step_of_stopped {s : State} {f : Fault} (h : Stopped s f) : step s = .fault f := by
  simp only [step, tick, stoppedBy_eq_some.mpr h]

/-- A stopped machine's tick leaves it as it is. -/
theorem tickLeaves_of_stopped {s : State} {f : Fault} (h : Stopped s f) : tickLeaves s = some s := by
  simp only [tickLeaves, stoppedBy_eq_some.mpr h]

/-- A fetch that faults is the fault of the step. -/
theorem step_of_fetch_error {s u : State} {f : Fault} (hr : Running s) (h : fetch s = .error f u) : step s = .fault f := by
  simp only [step, tick, stoppedBy_eq_none.mpr hr, h]

/-- A step is exec of the fetched instruction, its cost added. -/
theorem step_of_fetch {s u : State} {i : Instr} (hr : Running s) (h : fetch s = .ok i u) : step s = charge i u (exec i u) := by
  simp only [step, tick, stoppedBy_eq_none.mpr hr, h]

/-- A machine whose tick completes was not stopped. -/
theorem running_of_next {s t : State} (h : step s = .next t) : Running s := fun f hs => by
  rw [step_of_stopped hs] at h; cases h

/-- A step that answers a next state fetched an instruction and executed it. -/
theorem step_eq_next {s t : State} (h : step s = .next t) :
    ∃ i u w, fetch s = .ok i u ∧ exec i u = .next w ∧ t = w.setCyc (w.cyc + tickCost i u) := by
  have hr := running_of_next h
  cases hf : fetch s with
  | error f u => rw [step_of_fetch_error hr hf] at h; cases h
  | ok i u =>
    rw [step_of_fetch hr hf] at h
    cases he : exec i u with
    | next w => rw [he] at h; cases h; exact ⟨i, u, w, rfl, he, rfl⟩
    | fault f => rw [he] at h; cases h
    | refused r => rw [he] at h; cases h

/-- A fetch changes the PPU, the draw counter, `prevPC` and `OP` at most. -/
theorem fetch_frame {s u : State} {i : Instr} (h : fetch s = .ok i u) :
    u = (((s.setPpu u.ppu).setDraws u.draws).setPrevPC u.prevPC).setOp u.op := by
  obtain ⟨op, w, h1, ⟨-, -, rfl⟩ | ⟨-, b, h2, -⟩⟩ := fetch_cases h
  · rw [memRead_frame h1]; rfl
  · rw [fetchOperands_frame h2, memRead_frame h1]; rfl

/-- A fetch keeps the state well-formed. -/
theorem fetch_wf {s u : State} {i : Instr} (h : fetch s = .ok i u) (hs : s.wf) : u.wf := by
  obtain ⟨op, w, h1, ⟨-, -, rfl⟩ | ⟨-, b, h2, -⟩⟩ := fetch_cases h
  · exact memRead_wf h1 hs
  · have hw : w.wf := memRead_wf h1 hs
    exact fetchOperands_wf h2 hw

end Sys2Proof.Machine
end

