-- ==== Sys2Proof/Laws/Faults.lean ====
section
/-! SUPPORT. Faults: what a failing access leaves, and what a tick that fails there leaves (spec/60_exceptions.md R301, R303). -/

namespace Sys2Proof.Machine

open Sys2Proof.Claims

/-- A read that faults has changed nothing. -/
theorem memRead_error_state {a : Word} {s t : State} {e : Fault} (h : memRead a s = .error e t) : t = s := by
  cases ha : region a <;> simp only [memRead, ha] at h
  case ppu =>
    cases hsl : slotOf a <;> simp only [ppuReadRegister, hsl] at h
    case status =>
      rcases bind_eq_error.mp h with h | ⟨_, _, _, h⟩
      · simp only [statusByte] at h
        split at h <;> cases h
      · cases h
    case vramData =>
      simp only [get_bind] at h
      rcases bind_eq_error.mp h with h | ⟨_, _, _, h⟩
      · simp only [readVram] at h
        split at h <;> cases h
        rfl
      · cases h
    all_goals cases h
  case cart =>
    simp only [cartRead] at h
    split at h <;> cases h
    rfl
  all_goals cases h

/-- An operand read that faults has moved `PC` and changed nothing else. -/
theorem operandByte_error {m : Operand} {s w : State} {a : Nat} {e : Fault} (ha : address s m = some a)
    (h : memRead (wordOf a) (past s (length m)) = .error e w) : operandByte m s = .error e (past s (length m)) := by
  rw [operandByte_run, (eaOf_address ha).2, ← past_length]
  exact memRead_error_state h ▸ h

theorem withOperand_error {m : Operand} {f : Byte → State → State} {s t : State} {e : Fault}
    (h : operandByte m s = .error e t) : withOperand m f s = .error e t := bind_error h

/-- A read-modify-write stops at its operand read. -/
theorem readModifyWrite_error_read {m : Operand} {result : Byte → Byte → Byte} {before : Byte → State → State}
    {s t : State} {e : Fault} (h : operandByte m s = .error e t) : readModifyWrite m result before s = .error e t := by
  rw [operandByte_run] at h
  exact (bind_ok (resolve_run m s)).trans (bind_error h)

/-- A read-modify-write stops at its operand write, the early flags written. -/
theorem readModifyWrite_error_write {m : Operand} {result : Byte → Byte → Byte} {before : Byte → State → State}
    {s u w : State} {v : Byte} {e : Fault} (h : operandByte m s = .ok v u)
    (hw : writeOperand (s.eaOf m) (result u.p v) (before v u) = .error e w) :
    readModifyWrite m result before s = .error e w := by
  rw [operandByte_run] at h
  have h2 : (writeOperand (s.eaOf m) (result u.p v) >>= fun _ => modify fun q => q.putZN (result u.p v))
      (before v u) = .error e w := bind_error hw
  exact (bind_ok (resolve_run m s)).trans ((bind_ok h).trans h2)

/-- A failing read of the opcode is the fault of the fetch. -/
theorem fetch_error_opcode {s w : State} {f : Fault} (h : memRead s.pc s = .error f w) : fetch s = .error f w := by
  have h' : (memRead s.pc >>= fun op =>
      if (dispatch op).isIllegal then pure (.illegal op)
      else do
        modify fun s' => s'.latchOpcode s.pc op
        let b ← fetchOperands s.pc (operandCount op)
        pure (instrOf op b.1 b.2) : Exec Instr) s = .error f w := bind_error h
  exact h'

/-- A failing read of an operand byte is the fault of the fetch, the bytes before it read. -/
theorem fetch_error_operand {s u : State} {op : Byte} {bs : List Byte} {f : Fault} (h : FetchFails s op bs f u) :
    fetch s = .error f u := by
  obtain ⟨hd, ⟨w, h1, h2⟩, x, h3⟩ := h
  have hx := memRead_error_state h3
  subst hx
  have hl : (dispatch op).isIllegal = false := by
    cases hi : (dispatch op).isIllegal
    · rfl
    · have hn : operandCount op = 0 := by
        simp only [operandCount]
        cases hq : dispatch op <;> rw [hq] at hi <;> first | rfl | cases hi
      simp only [decode, hn] at hd
      cases hd
  refine (bind_ok h1).trans ?_
  simp only [hl]
  have hf : fetchOperands s.pc (operandCount op) (w.latchOpcode s.pc op) = .error f x := by
    match hn : operandCount op, bs, hd, h2, h3 with
    | 0, _, hd, _, _ => simp only [decode, hn] at hd; cases hd
    | 1, [], _, h2, h3 =>
      cases h2
      rw [show wordOf (s.pc.toNat + 1 + ([] : List Byte).length) = s.pc + 1 from (eq_wordOf (word_add_toNat s.pc 1)).symm] at h3
      exact bind_error h3
    | 1, b :: r, hd, _, _ => simp only [decode, hn] at hd; cases hd
    | k + 2, [], _, h2, h3 =>
      cases h2
      rw [show wordOf (s.pc.toNat + 1 + ([] : List Byte).length) = s.pc + 1 from (eq_wordOf (word_add_toNat s.pc 1)).symm] at h3
      exact bind_error h3
    | k + 2, [b], _, h2, h3 =>
      obtain ⟨y, h4, rfl⟩ := h2
      rw [show wordOf (s.pc.toNat + 1 + [b].length) = s.pc + 2 from (eq_wordOf (word_add_toNat s.pc 2)).symm] at h3
      exact (bind_ok h4).trans (bind_error h3)
    | 2, b :: c :: r, hd, _, _ => simp only [decode, hn] at hd; cases hd
    | k + 3, _, _, _, _ =>
      simp only [operandCount] at hn
      cases hq : dispatch op <;> simp [hq, Entry.operandBytes] at hn
  have h' : (fetchOperands s.pc (operandCount op) >>= fun b => pure (instrOf op b.1 b.2) : Exec Instr)
      (w.latchOpcode s.pc op) = .error f x := bind_error hf
  exact h'

/-- A tick whose fetch faults. -/
theorem aborts_of_fetch {s t : State} {f : Fault} (hr : Running s) (h : fetch s = .error f t) :
    Aborts s f (t.afterFailedFetch s.pc f) :=
  ⟨step_of_fetch_error hr h, by simp only [tickLeaves, stoppedBy_eq_none.mpr hr, h]⟩

/-- A tick whose instruction faults. -/
theorem aborts_of_meaning {s u t : State} {i : Instr} {f : Fault} (hr : Running s) (h : fetch s = .ok i u) (hm : meaning i u = .error f t) :
    Aborts s f t := by
  refine ⟨?_, by simp only [tickLeaves, stoppedBy_eq_none.mpr hr, h, leaves, hm]⟩
  rw [step_of_fetch hr h, exec_eq_outcome, outcome_error hm]
  rfl

/-- A tick that completes leaves no faulting state. -/
theorem tickLeaves_of_next {s t : State} (h : step s = .next t) : tickLeaves s = none := by
  obtain ⟨i, u, w, hf, he, -⟩ := step_eq_next h
  rw [exec_eq_outcome, outcome_eq_next] at he
  simp only [tickLeaves, stoppedBy_eq_none.mpr (running_of_next h), hf, leaves, he]

/-- The tick of a running machine that faults did so in its fetch or in its instruction. -/
theorem step_eq_fault {s : State} {f : Fault} (hr : Running s) (h : step s = .fault f) :
    (∃ t, fetch s = .error f t) ∨ ∃ i u t, fetch s = .ok i u ∧ meaning i u = .error f t := by
  cases hf : fetch s with
  | error g t => rw [step_of_fetch_error hr hf] at h; cases h; exact .inl ⟨t, rfl⟩
  | ok i u =>
    rw [step_of_fetch hr hf] at h
    cases he : exec i u with
    | next w => rw [he] at h; cases h
    | refused r => rw [he] at h; cases h
    | fault g =>
      rw [he] at h; cases h
      rw [exec_eq_outcome, outcome_eq_fault] at he
      obtain ⟨t, ht⟩ := he
      exact .inr ⟨i, u, t, rfl, ht⟩

end Sys2Proof.Machine
end

