-- ==== Sys2Proof/Laws/Instr.lean ====
section
/-! SUPPORT. One equation per instruction: exactly when exec answers a next state, and which one. -/

namespace Sys2Proof.Machine

open Sys2Proof.Claims

/-- An instruction that reads its operand and changes registers. -/
theorem outcome_withOperand {m : Operand} {f : Byte → State → State} {s t : State} :
    outcome (withOperand m f) s = .next t ↔ ∃ v u, Reads s m v u ∧ t = f v u := by
  rw [outcome_eq_next, withOperand_eq_ok]
  simp only [reads_iff]

/-- A store. -/
theorem outcome_storeOperand {m : Operand} {r : State → Byte} {s t : State} :
    outcome (storeOperand m r) s = .next t ↔
      writeOperand (s.eaOf m) (r (past s (length m))) (past s (length m)) = .ok () t := by
  rw [outcome_eq_next, storeOperand_run, past_length]

/-- A read-modify-write. -/
theorem outcome_readModifyWrite {m : Operand} {result : Byte → Byte → Byte} {before : Byte → State → State}
    {s t : State} :
    outcome (readModifyWrite m result before) s = .next t ↔
      ∃ v u w, Reads s m v u ∧ writeOperand (s.eaOf m) (result u.p v) (before v u) = .ok () w ∧
        t = w.putZN (result u.p v) := by
  rw [outcome_eq_next, readModifyWrite_eq_ok]
  simp only [reads_iff]

/-- An implied instruction. -/
theorem outcome_implied (f : State → State) (s : State) : outcome (implied f) s = .next (f (past s 1)) := by
  rw [past_one]; exact outcome_ok (implied_run f s)

/-- A branch. -/
theorem outcome_branch (i : Nat) (want : Bool) (d : Byte) (s : State) :
    outcome (branch i want d) s = .next (s.setPc (if flag s.p i = want then branchTarget s.pc d else s.pc + 2)) := by
  rw [← relTarget_eq]; exact outcome_ok (branch_run i want d s)

/-! Instructions that read an operand. -/

theorem exec_ora {m : Operand} {s t : State} :
    exec (.ora m) s = .next t ↔ ∃ v u, Reads s m v u ∧ t = u.loadA (u.a ||| v) := outcome_withOperand

theorem exec_and {m : Operand} {s t : State} :
    exec (.and m) s = .next t ↔ ∃ v u, Reads s m v u ∧ t = u.loadA (u.a &&& v) := outcome_withOperand

theorem exec_eor {m : Operand} {s t : State} :
    exec (.eor m) s = .next t ↔ ∃ v u, Reads s m v u ∧ t = u.loadA (u.a ^^^ v) := outcome_withOperand

theorem exec_bit {m : Operand} {s t : State} :
    exec (.bit m) s = .next t ↔ ∃ v u, Reads s m v u ∧ t = u.setP (bitFlags u.a v u.p) := outcome_withOperand

theorem exec_adc {m : Operand} {s t : State} :
    exec (.adc m) s = .next t ↔ ∃ v u, Reads s m v u ∧ t = u.addCore v := outcome_withOperand

theorem exec_sbc {m : Operand} {s t : State} :
    exec (.sbc m) s = .next t ↔ ∃ v u, Reads s m v u ∧ t = u.addCore (v ^^^ 0xFF) := outcome_withOperand

theorem exec_cmp {m : Operand} {s t : State} :
    exec (.cmp m) s = .next t ↔ ∃ v u, Reads s m v u ∧ t = u.setP (compareFlags u.a v u.p) := outcome_withOperand

theorem exec_cpx {m : Operand} {s t : State} :
    exec (.cpx m) s = .next t ↔ ∃ v u, Reads s m v u ∧ t = u.setP (compareFlags u.x v u.p) := outcome_withOperand

theorem exec_cpy {m : Operand} {s t : State} :
    exec (.cpy m) s = .next t ↔ ∃ v u, Reads s m v u ∧ t = u.setP (compareFlags u.y v u.p) := outcome_withOperand

theorem exec_lda {m : Operand} {s t : State} :
    exec (.lda m) s = .next t ↔ ∃ v u, Reads s m v u ∧ t = u.loadA v := outcome_withOperand

theorem exec_ldx {m : Operand} {s t : State} :
    exec (.ldx m) s = .next t ↔ ∃ v u, Reads s m v u ∧ t = u.loadX v := outcome_withOperand

theorem exec_ldy {m : Operand} {s t : State} :
    exec (.ldy m) s = .next t ↔ ∃ v u, Reads s m v u ∧ t = u.loadY v := outcome_withOperand

/-! Stores. -/

theorem exec_sta {m : Operand} {s t : State} :
    exec (.sta m) s = .next t ↔ writeOperand (s.eaOf m) s.a (past s (length m)) = .ok () t := outcome_storeOperand

theorem exec_stx {m : Operand} {s t : State} :
    exec (.stx m) s = .next t ↔ writeOperand (s.eaOf m) s.x (past s (length m)) = .ok () t := outcome_storeOperand

theorem exec_sty {m : Operand} {s t : State} :
    exec (.sty m) s = .next t ↔ writeOperand (s.eaOf m) s.y (past s (length m)) = .ok () t := outcome_storeOperand

/-! Read-modify-write. -/

theorem exec_asl {m : Operand} {s t : State} :
    exec (.asl m) s = .next t ↔ ∃ v u w, Reads s m v u ∧ writeOperand (s.eaOf m) (aslResult v) (u.putFlag bitC (v.getLsbD 7)) = .ok () w ∧
      t = w.putZN (aslResult v) := outcome_readModifyWrite

theorem exec_lsr {m : Operand} {s t : State} :
    exec (.lsr m) s = .next t ↔ ∃ v u w, Reads s m v u ∧ writeOperand (s.eaOf m) (lsrResult v) (u.putFlag bitC (v.getLsbD 0)) = .ok () w ∧
      t = w.putZN (lsrResult v) := outcome_readModifyWrite

theorem exec_rol {m : Operand} {s t : State} :
    exec (.rol m) s = .next t ↔ ∃ v u w, Reads s m v u ∧ writeOperand (s.eaOf m) (rolResult (flag u.p bitC) v) (u.putFlag bitC (v.getLsbD 7)) = .ok () w ∧
      t = w.putZN (rolResult (flag u.p bitC) v) := outcome_readModifyWrite

theorem exec_ror {m : Operand} {s t : State} :
    exec (.ror m) s = .next t ↔ ∃ v u w, Reads s m v u ∧ writeOperand (s.eaOf m) (rorResult (flag u.p bitC) v) (u.putFlag bitC (v.getLsbD 0)) = .ok () w ∧
      t = w.putZN (rorResult (flag u.p bitC) v) := outcome_readModifyWrite

theorem exec_inc {m : Operand} {s t : State} :
    exec (.inc m) s = .next t ↔ ∃ v u w, Reads s m v u ∧ writeOperand (s.eaOf m) (v + 1) (u) = .ok () w ∧
      t = w.putZN (v + 1) := outcome_readModifyWrite

theorem exec_dec {m : Operand} {s t : State} :
    exec (.dec m) s = .next t ↔ ∃ v u w, Reads s m v u ∧ writeOperand (s.eaOf m) (v - 1) (u) = .ok () w ∧
      t = w.putZN (v - 1) := outcome_readModifyWrite

/-! Implied instructions. -/

theorem exec_inx (s : State) : exec .inx s = .next ((past s 1).loadX (s.x + 1)) := outcome_implied (fun t => t.loadX (t.x + 1)) s

theorem exec_iny (s : State) : exec .iny s = .next ((past s 1).loadY (s.y + 1)) := outcome_implied (fun t => t.loadY (t.y + 1)) s

theorem exec_dex (s : State) : exec .dex s = .next ((past s 1).loadX (s.x - 1)) := outcome_implied (fun t => t.loadX (t.x - 1)) s

theorem exec_dey (s : State) : exec .dey s = .next ((past s 1).loadY (s.y - 1)) := outcome_implied (fun t => t.loadY (t.y - 1)) s

theorem exec_tax (s : State) : exec .tax s = .next ((past s 1).loadX s.a) := outcome_implied (fun t => t.loadX t.a) s

theorem exec_tay (s : State) : exec .tay s = .next ((past s 1).loadY s.a) := outcome_implied (fun t => t.loadY t.a) s

theorem exec_txa (s : State) : exec .txa s = .next ((past s 1).loadA s.x) := outcome_implied (fun t => t.loadA t.x) s

theorem exec_tya (s : State) : exec .tya s = .next ((past s 1).loadA s.y) := outcome_implied (fun t => t.loadA t.y) s

theorem exec_tsx (s : State) : exec .tsx s = .next ((past s 1).loadX s.sp) := outcome_implied (fun t => t.loadX t.sp) s

theorem exec_txs (s : State) : exec .txs s = .next ((past s 1).setSp s.x) := outcome_implied (fun t => t.setSp t.x) s

theorem exec_clc (s : State) : exec .clc s = .next ((past s 1).putFlag bitC false) := outcome_implied (fun t => t.putFlag bitC false) s

theorem exec_sec (s : State) : exec .sec s = .next ((past s 1).putFlag bitC true) := outcome_implied (fun t => t.putFlag bitC true) s

theorem exec_cli (s : State) : exec .cli s = .next ((past s 1).putFlag bitI false) := outcome_implied (fun t => t.putFlag bitI false) s

theorem exec_sei (s : State) : exec .sei s = .next ((past s 1).putFlag bitI true) := outcome_implied (fun t => t.putFlag bitI true) s

theorem exec_clv (s : State) : exec .clv s = .next ((past s 1).putFlag bitV false) := outcome_implied (fun t => t.putFlag bitV false) s

theorem exec_cld (s : State) : exec .cld s = .next ((past s 1).putFlag bitD false) := outcome_implied (fun t => t.putFlag bitD false) s

theorem exec_sed (s : State) : exec .sed s = .next ((past s 1).putFlag bitD true) := outcome_implied (fun t => t.putFlag bitD true) s

theorem exec_nop (s : State) : exec .nop s = .next (past s 1) := outcome_implied id s

/-! Branches. -/

theorem exec_bpl (d : Byte) (s : State) :
    exec (.bpl d) s = .next (s.setPc (if flag s.p bitN = false then branchTarget s.pc d else s.pc + 2)) := outcome_branch _ _ d s

theorem exec_bmi (d : Byte) (s : State) :
    exec (.bmi d) s = .next (s.setPc (if flag s.p bitN = true then branchTarget s.pc d else s.pc + 2)) := outcome_branch _ _ d s

theorem exec_bvc (d : Byte) (s : State) :
    exec (.bvc d) s = .next (s.setPc (if flag s.p bitV = false then branchTarget s.pc d else s.pc + 2)) := outcome_branch _ _ d s

theorem exec_bvs (d : Byte) (s : State) :
    exec (.bvs d) s = .next (s.setPc (if flag s.p bitV = true then branchTarget s.pc d else s.pc + 2)) := outcome_branch _ _ d s

theorem exec_bcc (d : Byte) (s : State) :
    exec (.bcc d) s = .next (s.setPc (if flag s.p bitC = false then branchTarget s.pc d else s.pc + 2)) := outcome_branch _ _ d s

theorem exec_bcs (d : Byte) (s : State) :
    exec (.bcs d) s = .next (s.setPc (if flag s.p bitC = true then branchTarget s.pc d else s.pc + 2)) := outcome_branch _ _ d s

theorem exec_bne (d : Byte) (s : State) :
    exec (.bne d) s = .next (s.setPc (if flag s.p bitZ = false then branchTarget s.pc d else s.pc + 2)) := outcome_branch _ _ d s

theorem exec_beq (d : Byte) (s : State) :
    exec (.beq d) s = .next (s.setPc (if flag s.p bitZ = true then branchTarget s.pc d else s.pc + 2)) := outcome_branch _ _ d s

/-! Stack, jumps, traps. -/

theorem exec_pha (s : State) : exec .pha s = .next ((past s 1).pushed s.a) := by
  rw [past_one]; exact outcome_ok (push_run s.a (s.setPc (s.pc + 1)))

theorem exec_php (s : State) : exec .php s = .next ((past s 1).pushed (packP s.p true)) := by
  rw [past_one]; exact outcome_ok (push_run (packP s.p true) (s.setPc (s.pc + 1)))

theorem exec_pla (s : State) :
    exec .pla s = .next (((past s 1).setSp (s.sp + 1)).loadA (s.ram.read (slot (s.sp + 1)))) := by
  rw [past_one]; exact outcome_ok (bind_ok (pull_run (s.setPc (s.pc + 1))))

theorem exec_plp (s : State) :
    exec .plp s = .next (((past s 1).setSp (s.sp + 1)).setP (unpackP (s.ram.read (slot (s.sp + 1))))) := by
  rw [past_one]; exact outcome_ok (bind_ok (pull_run (s.setPc (s.pc + 1))))

theorem exec_jmp_abs (a : Word) (s : State) : exec (.jmp (.abs a)) s = .next (s.setPc a) := rfl

theorem exec_jmp_ind {p : Word} {s t : State} :
    exec (.jmp (.ind p)) s = .next t ↔
      ∃ a u, read16 p (indirectHigh s.params.jmpIndirectPageWrap p) s = .ok a u ∧ t = u.setPc a := by
  show outcome (Sem.jmp (.ind p)) s = .next t ↔ _
  rw [outcome_eq_next]
  constructor
  · intro h
    obtain ⟨a, w, h1, h2⟩ := bind_eq_ok.mp h
    have h1' : (read16 p (indirectHigh s.params.jmpIndirectPageWrap p) >>= fun target => do
        advance 3
        pure target) s = .ok a w := h1
    obtain ⟨b, u, h3, h4⟩ := bind_eq_ok.mp h1'
    cases h4
    cases h2
    exact ⟨_, u, h3, rfl⟩
  · rintro ⟨a, u, h, rfl⟩
    have h4 : resolveJump (.ind p) s = .ok a (u.setPc (u.pc + 3)) := bind_ok h
    exact (bind_ok h4).trans rfl

theorem exec_jsr (a : Word) (s : State) :
    exec (.jsr a) s = .next ((((s.setPc a).pushed (hiByte (s.pc + 2))).pushed (loByte (s.pc + 2)))) := by
  have h : s.pc + 3 - 1 = s.pc + 2 := BitVec.eq_of_toNat_eq (by
    rw [BitVec.toNat_sub, word_add_toNat, word_add_toNat]
    show (65535 + (_ + 3) % 65536) % 65536 = (_ + 2) % 65536; omega)
  rw [← h]
  exact outcome_ok (bind_ok (pushWord_run (s.pc + 3 - 1) (s.setPc (s.pc + 3))))

theorem exec_rts (s : State) :
    exec .rts s = .next ((s.setSp (s.sp + 1 + 1)).setPc
      (join (s.ram.read (slot (s.sp + 1 + 1))) (s.ram.read (slot (s.sp + 1))) + 1)) :=
  outcome_ok (bind_ok (pullWord_run (s.setPc (s.pc + 1))))

theorem exec_rti (s : State) :
    exec .rti s = .next (((s.setSp (s.sp + 1 + 1 + 1)).setP (unpackP (s.ram.read (slot (s.sp + 1))))).setPc
      (join (s.ram.read (slot (s.sp + 1 + 1 + 1))) (s.ram.read (slot (s.sp + 1 + 1))))) :=
  outcome_ok (returnFromTrap_run (s.setPc (s.pc + 1)))

theorem exec_brk {s : State} {c : Cart} (hc : s.cart = some c) :
    exec .brk s = .next (((past s 1).trapFrame (s.pc + 2) true).setPc (join (c.read 0xFFFF) (c.read 0xFFFE))) := by
  have h : s.pc + 1 + 1 = s.pc + 2 := BitVec.eq_of_toNat_eq (by
    rw [word_add_toNat, word_add_toNat, word_add_toNat]
    show ((_ + 1) % 65536 + 1) % 65536 = (_ + 2) % 65536; omega)
  rw [past_one, ← h]
  exact outcome_ok (enterTrap_run (ret := s.pc + 1 + 1) true (s := s.setPc (s.pc + 1)) hc region_brkVector.1
    region_brkVector.2)

theorem exec_brk_unattached {s : State} (hc : s.cart = none) : exec .brk s = .fault (.busContractViolation 0xFFFE) :=
  outcome_error (enterTrap_unattached (ret := s.pc + 1 + 1) true (s := s.setPc (s.pc + 1)) hc region_brkVector.1)

/-- BRK completes with a cartridge, and only then. -/
theorem exec_brk_next {s t : State} (h : exec .brk s = .next t) :
    ∃ c, s.cart = some c ∧
      t = ((past s 1).trapFrame (s.pc + 2) true).setPc (join (c.read 0xFFFF) (c.read 0xFFFE)) := by
  cases hc : s.cart with
  | none => rw [exec_brk_unattached hc] at h; cases h
  | some c => rw [exec_brk hc] at h; cases h; exact ⟨c, rfl, rfl⟩

theorem exec_illegal (op : Byte) (s : State) :
    exec (.illegal op) s = match s.params.illegalOpcodePolicy with
      | .halt => .fault (.unimplementedOpcode op s.pc)
      | .skip => .next ((s.setReport (some (.unimplementedOpcode op s.pc))).setPc (s.pc + 1))
      | .nop => .next (((((s.setReport (some (.unimplementedOpcode op s.pc))).setPrevPC s.pc).setOp op).setPc
          (s.pc + 1)).setCyc (s.cyc + 2)) := by
  show outcome (Sem.illegal op) s = _
  simp only [outcome, Sem.illegal]
  cases s.params.illegalOpcodePolicy <;> rfl

end Sys2Proof.Machine
end

