-- ==== Sys2Proof/Laws/Window.lean ====
section
/-! SUPPORT. The PPU window by address number: slots, VRAM cells, the two-write address. -/

namespace Sys2Proof.Machine

open Sys2Proof.Claims

/-- The low bits of a word are its remainder. -/
theorem and_low_toNat (w : Word) (k : Nat) (h : BitVec.ofNat 16 (2 ^ k - 1) = m) (hk : 2 ^ k - 1 < 65536) :
    (w &&& m).toNat = w.toNat % 2 ^ k := by
  subst h
  rw [BitVec.toNat_and, BitVec.toNat_ofNat, Nat.mod_eq_of_lt hk]
  exact Nat.and_two_pow_sub_one_eq_mod w.toNat k

/-- The register slot of an address is its remainder modulo 8 (spec/20_memory.md R55). -/
theorem slotOf_eq (a : Word) :
    slotOf a = match a.toNat % 8 with
      | 0 => .control | 1 => .mask | 2 => .status | 3 => .oamAddress | 4 => .oamData | 5 => .scroll | 6 => .vramAddress
      | _ => .vramData := by
  have h := and_low_toNat (m := 7) a 3 rfl (by decide)
  have h' : (a &&& 7).toNat = a.toNat % 8 := h
  simp only [slotOf, h'] <;> rfl

theorem region_window {a : Word} (h : InWindow a.toNat) : region a = .ppu := by
  have h1 : ¬ a < 0x2000 := by simp [BitVec.lt_def]; exact h.1
  have h2 : a < 0x4000 := by simp [BitVec.lt_def]; exact h.2
  rw [region, if_neg h1, if_pos h2]

/-- Only the window is the window (spec/20_memory.md R50). -/
theorem region_ne_ppu {a : Word} (h : ¬ InWindow a.toNat) : region a ≠ .ppu := by
  by_cases h1 : a.toNat < 0x2000
  · rw [region_ram_of_lt h1]; decide
  · have h2 : ¬ a < 0x4000 := by simp [BitVec.lt_def]; exact Nat.le_of_not_lt fun k => h ⟨by omega, k⟩
    have h1' : ¬ a < 0x2000 := by simp [BitVec.lt_def]; omega
    rw [region, if_neg h1', if_neg h2]
    split <;> decide

theorem memRead_window {a : Word} (h : InWindow a.toNat) : memRead a = ppuReadRegister a := by
  simp [memRead, region_window h]

theorem memWrite_window {a : Word} (h : InWindow a.toNat) (v : Byte) : memWrite a v = ppuWriteRegister a v := by
  simp [memWrite, region_window h]

/-- A cell written reads back, and no other cell changes. -/
theorem Ppu.readCell_writeCell {u : Ppu} (hu : u.memoriesWf) (c d : VramCell) (v : Byte) :
    (u.writeCell c v).readCell d = if d = c then v else u.readCell d := by
  obtain ⟨⟨h1, -⟩, ⟨h2, -⟩, ⟨h3, -⟩, -⟩ := hu
  cases c with
  | pattern i =>
    cases d with
    | pattern j => simp only [VramCell.pattern.injEq]; exact Memory.read_write _ _ _ _ h2
    | nametable j => rfl
    | palette j => rfl
  | nametable i =>
    cases d with
    | nametable j => simp only [VramCell.nametable.injEq]; exact Memory.read_write _ _ _ _ h1
    | pattern j => rfl
    | palette j => rfl
  | palette i =>
    cases d with
    | palette j => simp only [VramCell.palette.injEq]; exact Memory.read_write _ _ _ _ h3
    | pattern j => rfl
    | nametable j => rfl

/-- `v` after a transfer (spec/22_ppu_interface.md R115). -/
theorem Ppu.step_eq (u : Ppu) : u.v + u.step = wordOf (u.v.toNat + (if u.ctrl.getLsbD 2 then 32 else 1)) := by
  refine eq_wordOf ?_
  rw [word_add_toNat, Ppu.step]
  cases u.ctrl.getLsbD 2 <;> rfl

/-- The first address write, in numbers (spec/22_ppu_interface.md R121). -/
theorem firstWrite_eq (t : Word) (v : Byte) :
    (zext (v &&& 0x3F) <<< 8) ||| (t &&& 0x00FF) = wordOf (256 * (v.toNat % 64) + t.toNat % 256) := by
  refine eq_wordOf ?_
  have e1 : (zext (v &&& 0x3F)).toNat = v.toNat % 64 := by
    rw [zext_toNat, BitVec.toNat_and]; exact Nat.and_two_pow_sub_one_eq_mod v.toNat 6
  have e2 : (t &&& 0x00FF).toNat = t.toNat % 256 := and_low_toNat t 8 rfl (by decide)
  have e3 : (v.toNat % 64) <<< 8 % 2 ^ 16 = (v.toNat % 64) <<< 8 :=
    Nat.mod_eq_of_lt (by rw [Nat.shiftLeft_eq]; omega)
  rw [BitVec.toNat_or, BitVec.toNat_shiftLeft, e1, e2, e3, ← Nat.shiftLeft_add_eq_or_of_lt (by omega), Nat.shiftLeft_eq]
  omega

/-- The second address write, in numbers (spec/22_ppu_interface.md R122). -/
theorem secondWrite_eq (t : Word) (v : Byte) :
    (t &&& 0xFF00) ||| zext v = wordOf (256 * (t.toNat / 256) + v.toNat) := by
  refine eq_wordOf ?_
  have hv := v.isLt
  have ht := t.isLt
  have e1 : (t &&& (0xFF00 : Word)).toNat = (t.toNat / 2 ^ 8) <<< 8 := by
    have h : t &&& (0xFF00 : Word) = (t >>> 8) <<< 8 := by
      refine BitVec.eq_of_getLsbD_eq fun i hi => ?_
      obtain rfl | rfl | rfl | rfl | rfl | rfl | rfl | rfl | rfl | rfl | rfl | rfl | rfl | rfl | rfl | rfl :
          i = 0 ∨ i = 1 ∨ i = 2 ∨ i = 3 ∨ i = 4 ∨ i = 5 ∨ i = 6 ∨ i = 7 ∨ i = 8 ∨ i = 9 ∨ i = 10 ∨ i = 11 ∨ i = 12 ∨
          i = 13 ∨ i = 14 ∨ i = 15 := by omega
      all_goals simp
    rw [h, BitVec.toNat_shiftLeft, BitVec.toNat_ushiftRight, Nat.shiftRight_eq_div_pow]
    exact Nat.mod_eq_of_lt (by rw [Nat.shiftLeft_eq]; omega)
  rw [BitVec.toNat_or, e1, zext_toNat, ← Nat.shiftLeft_add_eq_or_of_lt (by omega), Nat.shiftLeft_eq]
  omega

end Sys2Proof.Machine
end

