-- ==== Sys2Proof/Tests/Slice0.lean ====
section
/-! SUPPORT. The model's own tests: expected values are the spec's worked examples and test vectors (spec/95_test_vectors.md) or its encodings. -/

namespace Sys2Proof.Tests

open Sys2Proof.Machine

/-! WellFormed refuses an ill-formed term for each of its checks: every instruction with an operand, in a form R157 does
not give it, and `illegal` with a legal byte. -/

theorem test_illformed_adc : WellFormed (.adc (.acc)) = false := by decide
theorem test_illformed_and : WellFormed (.and (.zpy 0)) = false := by decide
theorem test_illformed_asl : WellFormed (.asl (.imm 0)) = false := by decide
theorem test_illformed_bit : WellFormed (.bit (.imm 0)) = false := by decide
theorem test_illformed_cmp : WellFormed (.cmp (.acc)) = false := by decide
theorem test_illformed_cpx : WellFormed (.cpx (.zpx 0)) = false := by decide
theorem test_illformed_cpy : WellFormed (.cpy (.absx 0)) = false := by decide
theorem test_illformed_dec : WellFormed (.dec (.acc)) = false := by decide
theorem test_illformed_eor : WellFormed (.eor (.zpy 0)) = false := by decide
theorem test_illformed_inc : WellFormed (.inc (.imm 0)) = false := by decide
theorem test_illformed_lda : WellFormed (.lda (.acc)) = false := by decide
theorem test_illformed_ldx : WellFormed (.ldx (.zpx 0)) = false := by decide
theorem test_illformed_ldy : WellFormed (.ldy (.zpy 0)) = false := by decide
theorem test_illformed_lsr : WellFormed (.lsr (.absy 0)) = false := by decide
theorem test_illformed_ora : WellFormed (.ora (.acc)) = false := by decide
theorem test_illformed_rol : WellFormed (.rol (.indx 0)) = false := by decide
theorem test_illformed_ror : WellFormed (.ror (.indy 0)) = false := by decide
theorem test_illformed_sbc : WellFormed (.sbc (.zpy 0)) = false := by decide
theorem test_illformed_sta : WellFormed (.sta (.imm 0)) = false := by decide
theorem test_illformed_stx : WellFormed (.stx (.zpx 0)) = false := by decide
theorem test_illformed_sty : WellFormed (.sty (.zpy 0)) = false := by decide
theorem test_illformed_illegal : WellFormed (.illegal 0xEA) = false := by decide

/-! Decoding: for each constructor one instruction, its bytes written out from the encoding the spec gives it (R157, R158). -/

theorem test_decode_adc : decode [0x6D, 0x34, 0x12] = .ok (.adc (.abs 0x1234), []) := by rfl
theorem test_decode_and : decode [0x29, 0x0F] = .ok (.and (.imm 0x0F), []) := by rfl
theorem test_decode_asl : decode [0x0A] = .ok (.asl .acc, []) := by rfl
theorem test_decode_bcc : decode [0x90, 0xFB] = .ok (.bcc 0xFB, []) := by rfl
theorem test_decode_bcs : decode [0xB0, 0x00] = .ok (.bcs 0x00, []) := by rfl
theorem test_decode_beq : decode [0xF0, 0x7F] = .ok (.beq 0x7F, []) := by rfl
theorem test_decode_bit : decode [0x2C, 0x02, 0x20] = .ok (.bit (.abs 0x2002), []) := by rfl
theorem test_decode_bmi : decode [0x30, 0xFE] = .ok (.bmi 0xFE, []) := by rfl
theorem test_decode_bne : decode [0xD0, 0xF9] = .ok (.bne 0xF9, []) := by rfl
theorem test_decode_bpl : decode [0x10, 0x80] = .ok (.bpl 0x80, []) := by rfl
theorem test_decode_brk : decode [0x00] = .ok (.brk, []) := by rfl
theorem test_decode_bvc : decode [0x50, 0x05] = .ok (.bvc 0x05, []) := by rfl
theorem test_decode_bvs : decode [0x70, 0x10] = .ok (.bvs 0x10, []) := by rfl
theorem test_decode_clc : decode [0x18] = .ok (.clc, []) := by rfl
theorem test_decode_cld : decode [0xD8] = .ok (.cld, []) := by rfl
theorem test_decode_cli : decode [0x58] = .ok (.cli, []) := by rfl
theorem test_decode_clv : decode [0xB8] = .ok (.clv, []) := by rfl
theorem test_decode_cmp : decode [0xD1, 0x86] = .ok (.cmp (.indy 0x86), []) := by rfl
theorem test_decode_cpx : decode [0xE4, 0x10] = .ok (.cpx (.zp 0x10), []) := by rfl
theorem test_decode_cpy : decode [0xC0, 0x01] = .ok (.cpy (.imm 0x01), []) := by rfl
theorem test_decode_dec : decode [0xDE, 0xF0, 0x12] = .ok (.dec (.absx 0x12F0), []) := by rfl
theorem test_decode_dex : decode [0xCA] = .ok (.dex, []) := by rfl
theorem test_decode_dey : decode [0x88] = .ok (.dey, []) := by rfl
theorem test_decode_eor : decode [0x41, 0x20] = .ok (.eor (.indx 0x20), []) := by rfl
theorem test_decode_inc : decode [0xF6, 0xF0] = .ok (.inc (.zpx 0xF0), []) := by rfl
theorem test_decode_inx : decode [0xE8] = .ok (.inx, []) := by rfl
theorem test_decode_iny : decode [0xC8] = .ok (.iny, []) := by rfl
theorem test_decode_jmp : decode [0x6C, 0xFF, 0x02] = .ok (.jmp (.ind 0x02FF), []) := by rfl
theorem test_decode_jsr : decode [0x20, 0x00, 0x80] = .ok (.jsr 0x8000, []) := by rfl
theorem test_decode_lda : decode [0xB9, 0xFF, 0x00] = .ok (.lda (.absy 0x00FF), []) := by rfl
theorem test_decode_ldx : decode [0xB6, 0xFF] = .ok (.ldx (.zpy 0xFF), []) := by rfl
theorem test_decode_ldy : decode [0xBC, 0x34, 0x12] = .ok (.ldy (.absx 0x1234), []) := by rfl
theorem test_decode_lsr : decode [0x46, 0x10] = .ok (.lsr (.zp 0x10), []) := by rfl
theorem test_decode_nop : decode [0xEA] = .ok (.nop, []) := by rfl
theorem test_decode_ora : decode [0x11, 0x86] = .ok (.ora (.indy 0x86), []) := by rfl
theorem test_decode_pha : decode [0x48] = .ok (.pha, []) := by rfl
theorem test_decode_php : decode [0x08] = .ok (.php, []) := by rfl
theorem test_decode_pla : decode [0x68] = .ok (.pla, []) := by rfl
theorem test_decode_plp : decode [0x28] = .ok (.plp, []) := by rfl
theorem test_decode_rol : decode [0x2E, 0x00, 0x03] = .ok (.rol (.abs 0x0300), []) := by rfl
theorem test_decode_ror : decode [0x76, 0xF0] = .ok (.ror (.zpx 0xF0), []) := by rfl
theorem test_decode_rti : decode [0x40] = .ok (.rti, []) := by rfl
theorem test_decode_rts : decode [0x60] = .ok (.rts, []) := by rfl
theorem test_decode_sbc : decode [0xF9, 0x34, 0x12] = .ok (.sbc (.absy 0x1234), []) := by rfl
theorem test_decode_sec : decode [0x38] = .ok (.sec, []) := by rfl
theorem test_decode_sed : decode [0xF8] = .ok (.sed, []) := by rfl
theorem test_decode_sei : decode [0x78] = .ok (.sei, []) := by rfl
theorem test_decode_sta : decode [0x91, 0x86] = .ok (.sta (.indy 0x86), []) := by rfl
theorem test_decode_stx : decode [0x96, 0x10] = .ok (.stx (.zpy 0x10), []) := by rfl
theorem test_decode_sty : decode [0x8C, 0x06, 0x20] = .ok (.sty (.abs 0x2006), []) := by rfl
theorem test_decode_tax : decode [0xAA] = .ok (.tax, []) := by rfl
theorem test_decode_tay : decode [0xA8] = .ok (.tay, []) := by rfl
theorem test_decode_tsx : decode [0xBA] = .ok (.tsx, []) := by rfl
theorem test_decode_txa : decode [0x8A] = .ok (.txa, []) := by rfl
theorem test_decode_txs : decode [0x9A] = .ok (.txs, []) := by rfl
theorem test_decode_tya : decode [0x98] = .ok (.tya, []) := by rfl
theorem test_decode_illegal : decode [0x02] = .ok (.illegal 0x02, []) := by rfl
theorem test_decode_empty : decode [] = .error .noOpcode := by rfl
theorem test_decode_short : decode [0xAD, 0x34] = .error .missingOperand := by rfl
theorem test_decodeTableWord : decodeTableWord 24 0x123DF6 = some (.inc (.zpx 0x3D)) := by rfl

/-! One step each. -/

/-- A one-bank cartridge that holds these bytes at 0x8000, `PC` there, everything else as after reset. -/
def prog (bytes : List Byte) : State := State.reset.placeInstruction bytes

/-- What a step leaves, seen through `f`; none if it does not complete. -/
def after {α : Type} (s : State) (f : State → α) : Option α :=
  match step s with
  | .next t => some (f t)
  | .fault _ => none
  | .refused _ => none

/-- The fault a step ends in. -/
def faultOf (s : State) : Option Fault :=
  match step s with
  | .next _ => none
  | .fault f => some f
  | .refused _ => none

/-- T1. -/
theorem test_ora : after { prog [0x09, 0x80] with a := 0x01 } (fun t => (t.a, t.p, t.pc)) = some (0x81, 0xA4, 0x8002) := by decide

/-- T2. -/
theorem test_and : after { prog [0x25, 0x10] with a := 0xF0, ram := [(0x10, 0x0F)] } (fun t => (t.a, t.p, t.cyc)) = some (0x00, 0x26, 3) := by decide

/-- T3: page crossed, RAM mirror. -/
theorem test_eor : after { prog [0x5D, 0xF0, 0x12] with a := 0xFF, x := 0x20, ram := [(0x310, 0xFF)] } (fun t => (t.a, t.p, t.pc)) = some (0x00, 0x26, 0x8003) := by decide

/-- T4. -/
theorem test_bit : after { prog [0x24, 0x10] with a := 0x3F, ram := [(0x10, 0xC0)] } (fun t => (t.a, t.p)) = some (0x3F, 0xE6) := by decide

/-- T6. -/
theorem test_and_indy : after { prog [0x31, 0x86] with a := 0xFF, y := 0x10, ram := [(0x86, 0xF8), (0x87, 0x02), (0x308, 0x5A)] } (fun t => (t.a, t.p, t.cyc)) = some (0x5A, 0x24, 5) := by decide

/-- T7: the source example, signed overflow. -/
theorem test_adc : after { prog [0x69, 0x50] with a := 0x50 } (fun t => (t.a, t.p)) = some (0xA0, 0xE4) := by decide

/-- T11: D is ignored. -/
theorem test_adc_decimal : after { prog [0x69, 0x09] with a := 0x09, p := 0x2C } (fun t => (t.a, t.p)) = some (0x12, 0x2C) := by decide

/-- T13. -/
theorem test_sbc : after { prog [0xE9, 0xB0] with a := 0x50, p := 0x25 } (fun t => (t.a, t.p)) = some (0xA0, 0xE4) := by decide

/-- T14. -/
theorem test_sbc_borrow : after { prog [0xE9, 0x00] with a := 0x00 } (fun t => (t.a, t.p)) = some (0xFF, 0xA4) := by decide

/-- T17. -/
theorem test_cmp : after { prog [0xC9, 0x10] with a := 0x05 } (fun t => (t.a, t.p)) = some (0x05, 0xA4) := by decide

/-- T18. -/
theorem test_cmp_keeps_v : after { prog [0xC9, 0x00] with a := 0xFF, p := 0x64 } (fun t => (t.p)) = some (0xE5) := by decide

/-- T19. -/
theorem test_cpx : after { prog [0xE4, 0x10] with x := 0x08, ram := [(0x10, 0x08)] } (fun t => (t.x, t.p)) = some (0x08, 0x27) := by decide

/-- T20. -/
theorem test_cpy : after { prog [0xC0, 0x01] with y := 0x00 } (fun t => (t.p)) = some (0xA4) := by decide

/-- T21. -/
theorem test_asl : after { prog [0x0A] with a := 0x81 } (fun t => (t.a, t.p, t.pc)) = some (0x02, 0x25, 0x8001) := by decide

/-- T22. -/
theorem test_asl_memory : after { prog [0x06, 0x10] with a := 0x55, ram := [(0x10, 0x80)] } (fun t => (t.a, t.p, t.ram)) = some (0x55, 0x27, []) := by decide

/-- T23. -/
theorem test_lsr : after { prog [0x46, 0x10] with ram := [(0x10, 0x01)] } (fun t => (t.p, t.ram)) = some (0x27, []) := by decide

/-- T24. -/
theorem test_rol : after { prog [0x2E, 0x00, 0x03] with p := 0x25, ram := [(0x300, 0x80)] } (fun t => (t.p, t.ram)) = some (0x25, [(0x300, 0x01)]) := by decide

/-- T25: zero-page,X wraps. -/
theorem test_ror : after { prog [0x76, 0xF0] with x := 0x20, p := 0x25, ram := [(0x10, 0x02)] } (fun t => (t.p, t.ram)) = some (0xA4, [(0x10, 0x81)]) := by decide

/-- T27. -/
theorem test_inc : after { prog [0xE6, 0x10] with ram := [(0x10, 0xFF)] } (fun t => (t.p, t.ram)) = some (0x26, []) := by decide

/-- T28. -/
theorem test_dec : after { prog [0xCE, 0x00, 0x03] with ram := [] } (fun t => (t.p, t.ram)) = some (0xA4, [(0x300, 0xFF)]) := by decide

/-- T29. -/
theorem test_inx : after { prog [0xE8] with x := 0xFF } (fun t => (t.x, t.p)) = some (0x00, 0x26) := by decide

/-- R223. -/
theorem test_iny : after { prog [0xC8] with y := 0x00 } (fun t => (t.y, t.p)) = some (0x01, 0x24) := by decide

/-- R224. -/
theorem test_dex : after { prog [0xCA] with x := 0x01 } (fun t => (t.x, t.p)) = some (0x00, 0x26) := by decide

/-- T30. -/
theorem test_dey : after { prog [0x88] with y := 0x00 } (fun t => (t.y, t.p)) = some (0xFF, 0xA4) := by decide

/-- T33: the pointer wraps in page zero. -/
theorem test_lda_indx : after { prog [0xA1, 0xFF] with ram := [(0x00, 0x02), (0xFF, 0x34), (0x100, 0x07), (0x234, 0x77)] } (fun t => (t.a, t.p)) = some (0x77, 0x24) := by decide

/-- T35: 16-bit wrap. -/
theorem test_lda_wraps : after { prog [0xBD, 0xF0, 0xFF] with x := 0x20, ram := [(0x10, 0x66)] } (fun t => (t.a)) = some (0x66) := by decide

/-- T36. -/
theorem test_ldx : after { prog [0xB6, 0xFF] with y := 0x02, ram := [(0x01, 0x80)] } (fun t => (t.x, t.p)) = some (0x80, 0xA4) := by decide

/-- T37: RAM mirror. -/
theorem test_ldy : after { prog [0xAC, 0x10, 0x08] with ram := [(0x10, 0x7F)] } (fun t => (t.y, t.p)) = some (0x7F, 0x24) := by decide

/-- T38. -/
theorem test_sta : after { prog [0x8D, 0xFF, 0x1F] with a := 0xAB } (fun t => (t.ram, t.p)) = some ([(0x7FF, 0xAB)], 0x24) := by decide

/-- T39: a write to ROM is discarded. -/
theorem test_sta_rom : after { prog [0x8D, 0x00, 0x80] with a := 0x00 } (fun t => (t.ram, t.cart)) = some ([], (prog [0x8D, 0x00, 0x80]).cart) := by decide

/-- T40. -/
theorem test_stx : after { prog [0x96, 0x10] with x := 0x5A, y := 0xF8 } (fun t => (t.ram)) = some ([(0x08, 0x5A)]) := by decide

/-- R231: a first write to PPU slot 6. -/
theorem test_sty : after { prog [0x8C, 0x06, 0x20] with y := 0x3F } (fun t => (t.ppu.t, t.ppu.w, t.ppu.ioLatch)) = some (0x3F00, true, 0x3F) := by decide

/-- T42. -/
theorem test_lda_hole : after { prog [0xAD, 0x16, 0x40] with a := 0x55 } (fun t => (t.a, t.p)) = some (0x00, 0x26) := by decide

/-- T43. -/
theorem test_tax : after { prog [0xAA] with a := 0x80 } (fun t => (t.x, t.p)) = some (0x80, 0xA4) := by decide

/-- R233. -/
theorem test_tay : after { prog [0xA8] with a := 0x90 } (fun t => (t.y, t.p)) = some (0x90, 0xA4) := by decide

/-- R234. -/
theorem test_txa : after { prog [0x8A] with x := 0x7F } (fun t => (t.a, t.p)) = some (0x7F, 0x24) := by decide

/-- R235. -/
theorem test_tya : after { prog [0x98] with y := 0xFF } (fun t => (t.a, t.p)) = some (0xFF, 0xA4) := by decide

/-- T44. -/
theorem test_tsx : after { prog [0xBA] with sp := 0x00, x := 0x55 } (fun t => (t.x, t.p)) = some (0x00, 0x26) := by decide

/-- T45: no flag. -/
theorem test_txs : after { prog [0x9A] with x := 0x00, p := 0xA4 } (fun t => (t.sp, t.p)) = some (0x00, 0xA4) := by decide

/-- R257, R185: 0x8000 + 2 - 5. -/
theorem test_bne : after { prog [0xD0, 0xFB] with p := 0x24 } (fun t => (t.pc)) = some (0x7FFD) := by decide

/-- R258, R250: p + 129. -/
theorem test_beq : after { prog [0xF0, 0x7F] with p := 0x26 } (fun t => (t.pc, t.cyc)) = some (0x8081, 2) := by decide

/-- T49. -/
theorem test_bpl : after { prog [0x10, 0x80] with p := 0x24 } (fun t => (t.pc)) = some (0x7F82) := by decide

/-- T50. -/
theorem test_bcs : after { prog [0xB0, 0x00] with p := 0x25 } (fun t => (t.pc)) = some (0x8002) := by decide

/-- T51. -/
theorem test_bmi : after { prog [0x30, 0xFE] with p := 0xA4 } (fun t => (t.pc)) = some (0x8000) := by decide

/-- R255: not taken. -/
theorem test_bcc : after { prog [0x90, 0x10] with p := 0x25 } (fun t => (t.pc)) = some (0x8002) := by decide

/-- R253: not taken. -/
theorem test_bvc : after { prog [0x50, 0x10] with p := 0x64 } (fun t => (t.pc)) = some (0x8002) := by decide

/-- R254. -/
theorem test_bvs : after { prog [0x70, 0x10] with p := 0x64 } (fun t => (t.pc)) = some (0x8012) := by decide

/-- T53. -/
theorem test_sec : after (prog [0x38]) (fun t => (t.p)) = some (0x25) := by decide

/-- T54. -/
theorem test_cli : after (prog [0x58]) (fun t => (t.p)) = some (0x20) := by decide

/-- T55. -/
theorem test_sed : after (prog [0xF8]) (fun t => (t.p)) = some (0x2C) := by decide

/-- T56. -/
theorem test_clv : after { prog [0xB8] with p := 0xE5 } (fun t => (t.p)) = some (0xA5) := by decide

/-- R260. -/
theorem test_clc : after { prog [0x18] with p := 0x25 } (fun t => (t.p)) = some (0x24) := by decide

/-- R263. -/
theorem test_sei : after { prog [0x78] with p := 0x20 } (fun t => (t.p)) = some (0x24) := by decide

/-- R265. -/
theorem test_cld : after { prog [0xD8] with p := 0x2C } (fun t => (t.p)) = some (0x24) := by decide

/-- T57. -/
theorem test_nop : after { prog [0xEA] with p := 0xE5 } (fun t => (t.pc, t.p, t.op, t.prevPC, t.cyc)) = some (0x8001, 0xE5, 0xEA, 0x8000, 2) := by decide

/-- T58: SP wraps. -/
theorem test_pha : after { prog [0x48] with a := 0x42, sp := 0x00 } (fun t => (t.sp, t.ram)) = some (0xFF, [(0x100, 0x42)]) := by decide

/-- T59. -/
theorem test_pla : after { prog [0x68] with sp := 0xFF, ram := [(0x100, 0x80)] } (fun t => (t.a, t.sp, t.p)) = some (0x80, 0x00, 0xA4) := by decide

/-- T60. -/
theorem test_php : after (prog [0x08]) (fun t => (t.sp, t.ram, t.p)) = some (0xFC, [(0x1FD, 0x34)], 0x24) := by decide

/-- T61. -/
theorem test_plp : after { prog [0x28] with sp := 0xFC, ram := [(0x1FD, 0xFF)] } (fun t => (t.sp, t.p)) = some (0xFD, 0xEF) := by decide

/-- T63. -/
theorem test_jmp : after (prog [0x4C, 0x34, 0x12]) (fun t => (t.pc, t.cyc)) = some (0x1234, 3) := by decide

/-- T64: the page wrap. -/
theorem test_jmp_ind : after { prog [0x6C, 0xFF, 0x02] with ram := [(0x200, 0x12), (0x2FF, 0x34), (0x300, 0x56)] } (fun t => (t.pc)) = some (0x1234) := by decide

/-- T70: the stack wraps inside the frame. -/
theorem test_jsr : after { prog [0x20, 0x34, 0x12] with sp := 0x00 } (fun t => (t.pc, t.sp, t.ram)) = some (0x1234, 0xFE, [(0x100, 0x80), (0x1FF, 0x02)]) := by decide

/-- T67. -/
theorem test_rts : after { prog [0x60] with sp := 0xFB, ram := [(0x1FC, 0x02), (0x1FD, 0xC0)] } (fun t => (t.pc, t.sp)) = some (0xC003, 0xFD) := by decide

/-- R292 with `P = 0x21` at 0x8000; the blank cartridge's BRK vector is 0x0000. -/
theorem test_brk : after { prog [0x00] with p := 0x21 } (fun t => (t.pc, t.sp, t.p, t.cyc)) =
    some (0x0000, 0xFA, 0x25, 7) := by decide

/-- T68, its frame. -/
theorem test_brk_frame : after { prog [0x00] with p := 0x21 } (fun t => (t.ram.read 0x1FB, t.ram.read 0x1FC, t.ram.read 0x1FD)) =
    some (0x31, 0x02, 0x80) := by decide

/-- T69. -/
theorem test_rti : after { prog [0x40] with sp := 0xFA, p := 0x25, ram := [(0x1FB, 0x31), (0x1FC, 0x12), (0x1FD, 0x80)] } (fun t => (t.pc, t.p, t.sp)) = some (0x8012, 0x21, 0xFD) := by decide

/-- T71, T73. -/
theorem test_illegal_halt : faultOf (prog [0x02]) = some (.unimplementedOpcode 0x02 0x8000) := by decide

/-- T75. -/
theorem test_illegal_nop : after { prog [0x02] with params := { defaultParams with illegalOpcodePolicy := .nop } }
    (fun t => (t.pc, t.cyc, t.op, t.prevPC)) = some (0x8001, 2, 0x02, 0x8000) := by decide

/-- T74. -/
theorem test_illegal_skip : after { prog [0x02] with params := { defaultParams with illegalOpcodePolicy := .skip } }
    (fun t => (t.pc, t.cyc, t.op, t.prevPC)) = some (0x8001, 0, 0x00, 0x0000) := by decide

/-- T64 with `JMP_INDIRECT_PAGE_WRAP = false`. -/
theorem test_jmp_ind_no_wrap :
    after { prog [0x6C, 0xFF, 0x02] with ram := [(0x200, 0x12), (0x2FF, 0x34), (0x300, 0x56)], params := { defaultParams with jmpIndirectPageWrap := false } } (fun t => t.pc) = some 0x5634 := by decide

/-- T49 with `CYCLE_PENALTIES = on`: taken, into another page. -/
theorem test_branch_penalty :
    after { prog [0x10, 0x80] with params := { defaultParams with cyclePenalties := true } } (fun t => t.cyc) = some 4 := by decide

/-- T3 with `CYCLE_PENALTIES = on`. -/
theorem test_page_penalty :
    after { prog [0x5D, 0xF0, 0x12] with x := 0x20, params := { defaultParams with cyclePenalties := true } } (fun t => t.cyc) = some 5 := by decide

/-- Z4: the state a contract violation leaves, `PC` advanced and the opcode latched. -/
theorem test_violation_leaves :
    (tickLeaves { State.reset with pc := 0x0200, a := 0x77, ram := [(0x200, 0xAD), (0x202, 0x80)] }).map
      (fun t => (t.pc, t.op, t.prevPC)) = some (0x0203, 0xAD, 0x0200) := by decide

/-- Z4: the counter stands still and the fault is recorded. -/
theorem test_violation_recorded :
    (tickLeaves { State.reset with pc := 0x0200, a := 0x77, ram := [(0x200, 0xAD), (0x202, 0x80)] }).map
      (fun t => (t.a, t.cyc, t.report)) = some (0x77, 0, some (.busContractViolation 0x8000)) := by decide

/-- Z4, then another tick: the machine is stopped (R303), although the bytes at 0x0203 are in RAM. -/
theorem test_violation_stops :
    (tickLeaves { State.reset with pc := 0x0200, a := 0x77, ram := [(0x200, 0xAD), (0x202, 0x80)] }).bind faultOf =
      some (.busContractViolation 0x8000) := by decide

/-- R302: under `halt` the next tick is the same fault, although the byte at `PC` is another one by then; after `skip` the machine
runs on. -/
theorem test_halt_stops :
    ((tickLeaves (prog [0x02])).map fun t => faultOf (t.setCart (some blankCart))) =
      some (some (.unimplementedOpcode 0x02 0x8000)) ∧
    (match step { prog [0x02, 0xEA] with params := { defaultParams with illegalOpcodePolicy := .skip } } with
      | .next t => after t fun u => u.pc
      | .fault _ => none
      | .refused _ => none) = some 0x8002 := by decide

/-- No cartridge, `PC` in the PPU window, whose write-only slots read as `op`, and slot 7 at a nametable address. -/
def inWindow (pc : Word) (op : Byte) : State :=
  { State.reset with pc := pc }.setPpu { Ppu.powerOn with ioLatch := op, v := 0x2000 }

/-- R174, R303: LDA # fetched from a write-only slot, its operand from slot 7 at a nametable address with no cartridge. -/
theorem test_violation_immediate :
    (tickLeaves (inWindow 0x2006 0xA9)).map
      (fun t => (t.pc, t.op, t.report)) = some (0x2008, 0xA9, some (.busContractViolation 0x2007)) := by decide

/-! Memory, the bus and the PPU window. -/

/-- What a computation answers. -/
def answer {α : Type} (x : Exec α) (s : State) : Option α :=
  match x s with
  | .ok v _ => some v
  | .error _ _ => none

/-- M1: the four RAM mirrors. -/
theorem test_ram_mirrors :
    answer (do memWrite 0x0000 0x11; let a ← memRead 0x0800; let b ← memRead 0x1800; pure (a, b)) State.reset =
    some (0x11, 0x11) := by decide

/-- `v` set through slots 2 and 6, as spec/95_test_vectors.md 3.3 does it. -/
def setV (addr : Word) : Exec Unit := do
  let _ ← memRead 0x2002
  memWrite 0x2006 (hiByte addr)
  memWrite 0x2006 (loByte addr)

/-- V1: with Horizontal mirroring windows 0 and 2 share a table, 1 and 3 the other. -/
theorem test_nametable_horizontal :
    answer (do setV 0x2000; memWrite 0x2007 0xA0; setV 0x2C00; memWrite 0x2007 0xAC
               setV 0x2800; let a ← memRead 0x2007; setV 0x2400; let b ← memRead 0x2007; pure (a, b)) (prog []) =
    some (0xA0, 0xAC) := by decide

/-- V4: the palette mirror. -/
theorem test_palette_mirror :
    answer (do setV 0x3F10; memWrite 0x2007 0x2D; setV 0x3F00; memRead 0x2007) State.reset = some 0x2D := by decide

/-- Steps 11 and 12 of spec/22_ppu_interface.md 4: the step of 32, and a write-only slot read through a mirror. -/
theorem test_increment_and_latch :
    answer (do setV 0x3F01; memWrite 0x2000 0x04; memWrite 0x2007 0x55; let s ← get; let b ← memRead 0x3FF8
               pure (s.ppu.v, b)) State.reset = some (0x3F21, 0x55) := by decide

/-- V9: an OAM write moves `oamaddr`, a read does not. -/
theorem test_oam :
    answer (do memWrite 0x2003 0xFF; memWrite 0x2004 0x5A; let b ← memRead 0x2004; let s ← get
               pure (b, s.ppu.oamAddr, s.ppu.oam)) State.reset = some (0x00, 0x00, [(255, 0x5A)]) := by decide

/-- V11: the nametables need a cartridge. -/
theorem test_nametable_unattached :
    (match (do setV 0x2000; memRead 0x2007) State.reset with
      | .ok _ _ => none
      | .error f _ => some f) = some (.busContractViolation 0x2007) := by decide

/-! The host's operations. -/

/-- Z1: reset keeps the registers it does not name. -/
theorem test_reset :
    (match hostReset { prog [] with a := 0x12, x := 0x34, sp := 0x10, p := 0xE7, cyc := 999, pc := 0 } with
      | .next t => some (t.pc, t.sp, t.p, t.cyc, t.a, t.x)
      | .fault _ => none
      | .refused _ => none) = some (0x8000, 0xFD, 0x24, 0, 0x12, 0x34) := by decide

/-- Z3: no cartridge, no reset. -/
theorem test_reset_unattached :
    (match hostReset State.reset with
      | .next _ => none
      | .fault f => some f
      | .refused _ => none) = some (.busContractViolation 0xFFFC) := by decide

/-- R307 with the interrupt inputs present: `P` is pushed with bit 4 clear, 7 cycles. -/
theorem test_irq :
    (match irq { prog [] with p := 0x21, params := { defaultParams with hwInterruptInputs := true } } with
      | .next t => some (t.sp, t.p, t.ram, t.cyc)
      | .fault _ => none
      | .refused _ => none) = some (0xFA, 0x25, [(0x1FB, 0x21), (0x1FD, 0x80)], 7) := by decide

/-- R302, R331: in the machine an illegal byte has stopped an `nmi` does nothing, and a reset lets it run. -/
theorem test_stopped_nmi_reset :
    let s := { prog [0x02] with report := some (.unimplementedOpcode 0x02 0x8000), params := { defaultParams with hwInterruptInputs := true } }
    nmi s = .next s ∧ (match hostReset s with
      | .next t => some (t.pc, t.stoppedBy)
      | .fault _ => none
      | .refused _ => none) = some (0x8000, none) := ⟨rfl, rfl⟩

/-- L3, L6, L7, and the mapper check after the length check (R88). -/
theorem test_load_errors :
    (match parseImage [0x4D, 0x45, 0x53, 0x1A] with | .error e => some e | .ok _ => none) = some .invalidHeader ∧
    (match parseImage [0x4E, 0x45, 0x53] with | .error e => some e | .ok _ => none) = some .invalidHeader ∧
    (match parseImage [0x4E, 0x45, 0x53, 0x1A, 1, 1, 0, 0, 0, 0] with | .error e => some e | .ok _ => none) =
      some .truncatedRom ∧
    (match parseImage [0x4E, 0x45, 0x53, 0x1A, 0, 0, 0x10, 0x40, 0, 0, 0, 0, 0, 0, 0, 0] with
      | .error e => some e | .ok _ => none) = some (.unsupportedMapper 0x41) := by decide

/-- The first step after reset, an instruction placed: `TAX`. -/
theorem test_first_step : after (State.reset.withFetchWord 8 0xAA) (fun t => (t.pc, t.op)) = some (0x8001, 0xAA) := by decide

/-- With nothing placed the first step reads 0x00, BRK, and its vector has no cartridge behind it (log entry 11). -/
theorem test_reset_alone : faultOf State.reset = some (.busContractViolation 0xFFFE) := by decide

/-- The state after reset is well-formed. -/
theorem test_reset_wf : State.reset.wf := by decide

/-! Witnesses: for every statement of Certificates/Slice0/Obligations.lean with hypotheses, values that meet them together. -/

open Sys2Proof.Claims

/-- A state with the cartridge of `prog` and no program, two RAM bytes and a carry. -/
def wit : State := { prog [] with ram := [(0x10, 0x81), (0x80, 0x30)], p := 0x25, x := 0x70, a := 0x40 }

/-- What an instruction leaves; the state itself if it does not complete. -/
def run (i : Instr) (s : State) : State :=
  match exec i s with
  | .next t => t
  | .fault _ => s
  | .refused _ => s

/-- What a step leaves; the state itself if it does not complete. -/
def stepped (s : State) : State :=
  match step s with
  | .next t => t
  | .fault _ => s
  | .refused _ => s

/-- The machine an illegal byte has stopped, and the one a contract violation has. -/
def halted : State := wit.setReport (some (.unimplementedOpcode 0x02 0x8000))
def violated : State := State.reset.setReport (some (.busContractViolation 0x8000))

theorem test_witness_Running : Running wit ∧ Running State.reset ∧ Running (prog [0xA5, 0x10]) ∧ Running (prog [0x02]) ∧
    Running (prog [0xEA]) ∧ Running (State.reset.setPc 0x8000) ∧ Running (inWindow 0x2006 0xA9) ∧ Running (inWindow 0x2005 0xAD) :=
  ⟨running_of_report rfl, running_of_report rfl, running_of_report rfl, running_of_report rfl, running_of_report rfl,
    running_of_report rfl, running_of_report rfl, running_of_report rfl⟩

theorem test_witness_Stopped : Stopped halted (.unimplementedOpcode 0x02 0x8000) ∧ Stopped violated (.busContractViolation 0x8000) :=
  ⟨⟨rfl, fun _ => rfl⟩, rfl, fun ⟨_, _, h⟩ => nomatch h⟩

theorem test_wit_wf : wit.wf ∧ wit.attached := by decide

theorem test_witness_DecodeEncodeRoundTrip : WellFormed (.adc (.indy 0xFF)) = true ∧ WellFormed (.illegal 0xFF) = true ∧
    WellFormed (.jmp (.ind 0xFFFF)) = true := by decide

theorem test_witness_DecodedIsEncoded : decode [0xBE, 0xFF, 0xFF, 0x00] = .ok (.ldx (.absy 0xFFFF), [0x00]) := by rfl

/-- LDA $10 fetched and run; that the states of these witnesses run, or are stopped, is `test_witness_Running` and
`test_witness_Stopped`. -/
theorem test_witness_StepRunsDecodedInstruction :
    Fetches (prog [0xA5, 0x10]) 0xA5 [0x10] (((prog [0xA5, 0x10]).setPrevPC 0x8000).setOp 0xA5) ∧
    (0xA5 : Byte).toNat ∉ illegalOpcodes ∧ decode [0xA5, 0x10] = .ok (.lda (.zp 0x10), []) ∧
    exec (.lda (.zp 0x10)) (((prog [0xA5, 0x10]).setPrevPC 0x8000).setOp 0xA5) =
      .next (run (.lda (.zp 0x10)) (((prog [0xA5, 0x10]).setPrevPC 0x8000).setOp 0xA5)) :=
  ⟨⟨_, rfl, _, rfl, rfl⟩, by decide, rfl, rfl⟩

/-- The fault clause: BRK fetched from RAM with no cartridge. -/
theorem test_witness_StepRunsDecodedInstruction_fault :
    Fetches State.reset 0x00 [] (((State.reset).setPrevPC 0).setOp 0) ∧ (0 : Byte).toNat ∉ illegalOpcodes ∧
    decode [0x00] = .ok (.brk, []) ∧
    exec .brk (((State.reset).setPrevPC 0).setOp 0) = .fault (.busContractViolation 0xFFFE) :=
  ⟨⟨_, rfl, rfl⟩, by decide, rfl, rfl⟩

/-- The illegal clause. -/
theorem test_witness_StepRunsDecodedInstruction_illegal :
    memRead (prog [0x02]).pc (prog [0x02]) = .ok 0x02 (prog [0x02]) ∧ (0x02 : Byte).toNat ∈ illegalOpcodes :=
  ⟨rfl, by decide⟩

/-- A taken branch across a page, with the penalties on. -/
theorem test_witness_TickRecordsAndCounts :
    let s := { prog [0xD0, 0xFB] with params := { defaultParams with cyclePenalties := true } }
    Fetches s 0xD0 [0xFB] ((s.setPrevPC 0x8000).setOp 0xD0) ∧ (0xD0 : Byte).toNat ∉ illegalOpcodes ∧
    decode [0xD0, 0xFB] = .ok (.bne 0xFB, []) ∧ step s = .next (stepped s) :=
  ⟨⟨_, rfl, _, rfl, rfl⟩, by decide, rfl, rfl⟩

theorem test_witness_CycleTableByClass : WellFormed (.asl (.absx 0)) = true ∧ opcodeOf (.asl (.absx 0)) = some 0x1E ∧
    (0x1E : Byte).toNat ∉ illegalOpcodes := by decide

/-- A three-byte instruction whose end wraps past the top of memory. -/
theorem test_witness_PcMovesPastInstruction : WellFormed (.bit (.abs 0x0010)) = true ∧ setsPc (.bit (.abs 0x0010)) = false ∧
    exec (.bit (.abs 0x0010)) (wit.setPc 0xFFFE) = .next (run (.bit (.abs 0x0010)) (wit.setPc 0xFFFE)) :=
  ⟨rfl, rfl, rfl⟩

theorem test_witness_AttachedStepCompletes :
    ((prog [0xEA]).attached ∧ Running (prog [0xEA])) ∧ (prog [0x02]).attached ∧ Running (prog [0x02]) :=
  ⟨⟨by decide, running_of_report rfl⟩, by decide, running_of_report rfl⟩

theorem test_witness_FaultsOfATick :
    step (prog [0x02]) = .fault (.unimplementedOpcode 0x02 0x8000) ∧
    step State.reset = .fault (.busContractViolation 0xFFFE) ∧
    step halted = .fault (.unimplementedOpcode 0x02 0x8000) := ⟨rfl, rfl, rfl⟩

theorem test_witness_AttachedInstructionsComplete :
    wit.attached ∧ ((∃ op, Instr.nop = .illegal op) → wit.params.illegalOpcodePolicy ≠ .halt) :=
  ⟨by decide, fun ⟨_, h⟩ => nomatch h⟩

theorem test_witness_IllegalOpcodes :
    wit.params.illegalOpcodePolicy = .halt ∧
    ({ wit with params := { defaultParams with illegalOpcodePolicy := .skip } }).params.illegalOpcodePolicy = .skip ∧
    ({ wit with params := { defaultParams with illegalOpcodePolicy := .nop } }).params.illegalOpcodePolicy = .nop := by decide

theorem test_witness_StepKeepsInvariant : (prog [0x48]).wf ∧ step (prog [0x48]) = .next (stepped (prog [0x48])) :=
  ⟨by decide, rfl⟩

theorem test_witness_HostOperationsKeepInvariant : wit.wf ∧
    hostReset wit = .next ((((wit.setPc 0x8000).setSp 0xFD).setP 0x24).setCyc 0) ∧ irq wit = .next wit ∧ nmi wit = .next wit :=
  ⟨test_wit_wf.1, rfl, rfl, rfl⟩

theorem test_witness_StatusBitsFixed : statusLegal wit.p ∧ exec .plp wit = .next (run .plp wit) ∧
    hostReset wit = .next ((((wit.setPc 0x8000).setSp 0xFD).setP 0x24).setCyc 0) ∧ irq wit = .next wit ∧ nmi wit = .next wit :=
  ⟨by decide, rfl, rfl, rfl, rfl⟩

theorem test_witness_FlagsWrittenOnly : statusLegal wit.p ∧
    exec (.adc (.indx 0x10)) wit = .next (run (.adc (.indx 0x10)) wit) := ⟨by decide, rfl⟩

theorem test_witness_RegistersWrittenOnly : WellFormed (.lsr (.zp 0x10)) = true ∧
    exec (.lsr (.zp 0x10)) wit = .next (run (.lsr (.zp 0x10)) wit) ∧
    writesA (.lsr (.zp 0x10)) = false ∧ writesX (.lsr (.zp 0x10)) = false ∧ writesY (.lsr (.zp 0x10)) = false ∧
    writesSp (.lsr (.zp 0x10)) = false := ⟨rfl, rfl, rfl, rfl, rfl, rfl⟩

theorem test_witness_StepKeepsCartridge : step (prog [0x8D, 0x00, 0x80]) = .next (stepped (prog [0x8D, 0x00, 0x80])) := rfl

/-- A store in RAM; the address 0x0810 next to its mirror, and cartridge space, are outside it. -/
theorem test_witness_MemoryFrame : WellFormed (.sta (.zp 0x11)) = true ∧ wit.wf ∧
    exec (.sta (.zp 0x11)) wit = .next (run (.sta (.zp 0x11)) wit) ∧
    storedTo wit (.sta (.zp 0x11)) = [0x11] ∧ readFrom wit (.sta (.zp 0x11)) = [] ∧
    (¬ InWindow 0x11 ∧ ¬ InWindow 0x0810 ∧ ¬ SameRamByte 0x11 0x0810 ∧ ¬ SameRamByte 0x11 0xFFFF) ∧
    memRead 0x0810 wit = .ok 0x81 wit ∧ memRead 0xFFFD wit = .ok 0x80 wit :=
  ⟨rfl, test_wit_wf.1, rfl, rfl, rfl, by simp only [InWindow, SameRamByte]; decide, rfl, rfl⟩

theorem test_witness_RamAndMirrors : (0x1FFF : Word).toNat < 0x2000 ∧ wit.ram.wf := by decide

theorem test_witness_HoleAndCartridgeSpace :
    (0x4000 ≤ (0x4000 : Word).toNat ∧ (0x401F : Word).toNat < 0x4020) ∧
    (0x4020 ≤ (0x4020 : Word).toNat ∧ 0x4020 ≤ (0xFFFF : Word).toNat ∧ wit.attached ∧ State.reset.cart = none) := by decide

theorem test_witness_PrgMirroring : wit.cart = some (blankCart) ∧ blankCart.prgBanks = 1 ∧ 0x4020 ≤ (0x4020 : Word).toNat ∧
    ({ blankCart with prgBanks := 2 } : Cart).prgBanks = 2 := by decide

/-- For VramAddressWrites, StatusAccess, VramDataPort, PlainSlots, OamData and VramReadAfterWrite: the lowest and the highest
address of each slot of the PPU window, and the addresses just outside it. -/
theorem test_witness_window :
    (∀ k < 8, InWindow (0x2000 + k) ∧ (0x2000 + k) % 8 = k ∧ InWindow (0x3FF8 + k) ∧ (0x3FF8 + k) % 8 = k) ∧
    ¬ InWindow 0x1FFF ∧ ¬ InWindow 0x4000 := by simp only [InWindow]; decide

theorem test_witness_VramAddressWrites : wit.ppu.w = false ∧ (wit.setPpu { wit.ppu with w := true }).ppu.w = true := by decide

theorem test_witness_StatusAccess : wit.params.ppuStatusSource = .held ∧
    ({ wit with params := { defaultParams with ppuStatusSource := .perRead } }).params.ppuStatusSource = .perRead := by decide

theorem test_witness_VramDataPort : vramCell wit wit.ppu.v = some (.pattern 0) ∧ wit.ppu.memoriesWf ∧
    vramCell (wit.setPpu { wit.ppu with v := 0x3F1C }) 0x3F1C = some (.palette 0x0C) := by decide

theorem test_witness_OamData : wit.ppu.oam.wf := by decide

/-- The last pattern address, the first and the last nametable address, and the first palette address. -/
theorem test_witness_VramResolution : vramCell wit 0x1FFF = some (.pattern 0x1FFF) ∧
    vramCell wit 0x2000 = some (.nametable 0) ∧ vramCell wit 0x3EFF = some (.nametable (0x2FF + 1024)) ∧
    vramCell wit 0x3F00 = some (.palette 0) ∧ vramCell State.reset 0x2000 = none ∧ State.reset.cart = none ∧
    wit.cart = some blankCart := by decide

theorem test_witness_VramReadAfterWrite :
    let s := wit.setPpu { wit.ppu with v := 0x3F10 }
    s.ppu.memoriesWf ∧ vramCell s s.ppu.v = some (.palette 0) ∧ vramCell s 0x3F00 = some (.palette 0) ∧
    memWrite 0x2007 0x2D s = .ok () (s.setPpu { s.ppu with v := 0x3F11, ioLatch := 0x2D, pal := [(0, 0x2D)] }) :=
  ⟨by decide, by decide, by decide, rfl⟩

theorem test_witness_EffectiveAddresses : address wit (.indx 0x10) = some 0x30 ∧ address wit (.absx 0xFFFF) = some 0x6F := by decide

theorem test_witness_OperandAccess : wit.attached ∧ Reads wit (.zp 0x10) 0x81 (past wit 2) ∧
    Writes wit (.zp 0x80) 0x00 wit (wit.setRam [(0x10, 0x81)]) ∧ Reads wit .acc 0x40 (past wit 1) ∧
    Writes wit .acc 0x41 wit (wit.setA 0x41) :=
  ⟨by decide, rfl, rfl, ⟨rfl, rfl⟩, rfl⟩

/-- For LogicalOperations, AddWithCarry, SubtractWithBorrow, Compares and Loads: a memory operand and an immediate one. -/
theorem test_witness_Reads : Reads wit (.zpx 0xA0) 0x81 (past wit 2) ∧ Reads wit (.imm 0xFF) 0xFF (past wit 2) ∧
    Reads wit (.absy 0x0810) 0x81 (past wit 3) := ⟨rfl, ⟨rfl, rfl⟩, rfl⟩

theorem test_witness_BitTest : Reads wit (.abs 0x0010) 0x81 (past wit 3) := rfl

theorem test_witness_Stores : address wit (.zp 0x80) = some 0x80 ∧
    memWrite (wordOf 0x80) wit.a (past wit 2) = .ok () ((past wit 2).setRam [(0x10, 0x81), (0x80, 0x40)]) ∧
    memWrite (wordOf 0x80) wit.x (past wit 2) = .ok () ((past wit 2).setRam [(0x10, 0x81), (0x80, 0x70)]) ∧
    memWrite (wordOf 0x80) wit.y (past wit 2) = .ok () ((past wit 2).setRam [(0x10, 0x81)]) := ⟨rfl, rfl, rfl, rfl⟩

/-- The byte 0x81 with the carry set: shifted left 0x02, right 0x40, rotated left 0x03, right 0xC0. -/
theorem test_witness_ShiftsAndRotates : (Operand.zp 0x10).form ∈ shiftForms ∧ Reads wit (.zp 0x10) 0x81 (past wit 2) ∧
    (∀ r : Byte, ∃ w, Writes wit (.zp 0x10) r (past wit 2) w) ∧ 0x02 = 2 * 0x81 % 256 ∧ 0x40 = 0x81 / 2 ∧
    0x03 = (2 * 0x81 + carry wit.p) % 256 ∧ 0xC0 = 0x81 / 2 + 128 * carry wit.p :=
  ⟨by decide, rfl, fun _ => ⟨_, rfl⟩, by decide, by decide, by decide, by decide⟩

/-- INC of 0x81 gives 0x82, DEC 0x80. -/
theorem test_witness_MemoryIncrements : (Operand.zpx 0xA0).form ∈ stepForms ∧ Reads wit (.zpx 0xA0) 0x81 (past wit 2) ∧
    (∀ r : Byte, ∃ w, Writes wit (.zpx 0xA0) r (past wit 2) w) ∧ 0x82 = (0x81 + 1) % 256 ∧ 0x80 = (0x81 + 255) % 256 :=
  ⟨by decide, rfl, fun _ => ⟨_, rfl⟩, by decide, by decide⟩

theorem test_witness_Pushes : (wit.setSp 0x00).ram.wf := by decide

/-- JMP through a pointer at the end of a page, with the wrap and without it. -/
theorem test_witness_Jumps : memRead 0x00FF wit = .ok 0x00 wit ∧ wit.params.jmpIndirectPageWrap = true ∧
    memRead (wordOf (256 * (0xFF / 256) + (0xFF + 1) % 256)) wit = .ok 0x00 wit ∧
    memRead (wordOf (0xFF + 1)) { wit with params := { defaultParams with jmpIndirectPageWrap := false } } =
      .ok 0x00 { wit with params := { defaultParams with jmpIndirectPageWrap := false } } := ⟨rfl, rfl, rfl, rfl⟩

theorem test_witness_Subroutines : (wit.setSp 0x00).ram.wf := by decide

theorem test_witness_SoftwareTrap : wit.ram.wf ∧ memRead 0xFFFE wit = .ok 0x00 wit ∧ memRead 0xFFFF wit = .ok 0x00 wit ∧
    State.reset.cart = none := ⟨by decide, rfl, rfl, rfl⟩

/-- At a stack pointer whose pushes wrap. -/
theorem test_witness_StackRoundTrips :
    let s := wit.setSp 0x01
    (s.ram.wf ∧ statusLegal s.p) ∧ exec .pha s = .next (run .pha s) ∧ exec .php s = .next (run .php s) ∧
    exec (.jsr 0x1234) s = .next (run (.jsr 0x1234) s) ∧ exec .brk s = .next (run .brk s) :=
  ⟨by decide, rfl, rfl, rfl, rfl⟩

theorem test_witness_ResetOperation : memRead 0xFFFC wit = .ok 0x00 wit ∧ memRead 0xFFFD wit = .ok 0x80 wit ∧ wit.attached ∧
    State.reset.cart = none := ⟨rfl, rfl, by decide, rfl⟩

/-- An image of `n` zero bytes after this header, which declares `prg` banks and mapper 0x10 * `hi`. -/
def image (prg hi : Byte) (n : Nat) : List Byte :=
  [0x4E, 0x45, 0x53, 0x1A, prg, 0, 0, hi, 0, 0, 0, 0, 0, 0, 0, 0] ++ List.replicate n 0

theorem image_length (prg hi : Byte) (n : Nat) : (image prg hi n).length = 16 + n := by
  simp only [image, List.length_append, List.length_replicate, List.length_cons, List.length_nil]

theorem image_magic (prg hi : Byte) (n : Nat) : (image prg hi n).take 4 = [0x4E, 0x45, 0x53, 0x1A] := rfl

/-- Not an image; one byte short of the declared length; the declared length with mapper 0x10; no PRG bank at all. -/
theorem test_witness_LoadErrors :
    ([0x4D, 0x45, 0x53, 0x1A] : List Byte).take 4 ≠ [0x4E, 0x45, 0x53, 0x1A] ∧
    (image 1 0 16383).length < 16 + 1 * 16384 ∧
    (16 + 1 * 16384 ≤ (image 1 0x10 16384).length ∧ (0x10 : Byte).toNat / 16 * 16 + 0 / 16 ≠ 0) ∧ 16 ≤ (image 0 0 0).length := by
  simp only [image_length]; decide

theorem test_witness_LoadAttaches (n : Nat) (hn : n = 16384) :
    (image 1 0 n).take 4 = [0x4E, 0x45, 0x53, 0x1A] ∧ 16 + 1 * 16384 + 0 * 8192 ≤ (image 1 0 n).length ∧
    ((image 1 0 n).getD 4 0).toNat = 1 ∧ ((image 1 0 n).getD 5 0).toNat = 0 ∧
    ((image 1 0 n).getD 6 0).toNat / 16 = 0 ∧ ((image 1 0 n).getD 7 0).toNat / 16 = 0 :=
  ⟨image_magic 1 0 n, by rw [image_length]; omega, by simp [image], by simp [image], by simp [image], by simp [image]⟩

/-- An image of the declared length loads. -/
theorem test_image_loads (n : Nat) (hn : n = 16384) : parseImage (image 1 0 n) = .ok (cartOf (image 1 0 n)) := by
  have hd : declaredSize (image 1 0 n) = 16 + 16384 := by
    simp [declaredSize, prgStart, trainerSize, prgSize, chrSize, headerTrainer, imageByte, image, headerSize, prgBankSize,
      chrBankSize]
  have hl : ¬ ((image 1 0 n).length < headerSize ∨ (image 1 0 n).length < declaredSize (image 1 0 n)) := by
    rw [image_length, hd, headerSize]; omega
  exact (if_neg (not_not_intro (image_magic 1 0 n))).trans ((if_neg hl).trans
    (by simp [headerMapperId, selectMapper, imageByte, image]))

theorem test_witness_OptionalInterrupts :
    let s := { wit with p := 0x21, params := { defaultParams with hwInterruptInputs := true } }
    (s.ram.wf ∧ s.params.hwInterruptInputs = true ∧ Running s ∧ flag s.p bitI = false ∧ flag (s.setP 0x25).p bitI = true ∧
      wit.params.hwInterruptInputs = false) ∧
    memRead 0xFFFE s = .ok 0x00 s ∧ memRead 0xFFFF s = .ok 0x00 s ∧ memRead 0xFFFA s = .ok 0x00 s ∧
    memRead 0xFFFB s = .ok 0x00 s :=
  ⟨⟨by decide, rfl, running_of_report rfl, by decide, by decide, rfl⟩, rfl, rfl, rfl, rfl⟩

/-- Its clauses with no cartridge, and of a stopped machine. -/
theorem test_witness_OptionalInterrupts_unattached :
    let s := { State.reset with p := 0x20, params := { defaultParams with hwInterruptInputs := true } }
    s.params.hwInterruptInputs = true ∧ Running s ∧ s.cart = none ∧ flag s.p bitI = false ∧ ∃ f, Stopped halted f :=
  ⟨rfl, running_of_report rfl, rfl, by decide, _, test_witness_Stopped.1⟩

/-- A sequence of events in a stopped machine with a cartridge, and its reset; an attachment, then the reset, of one with none. -/
theorem test_witness_StoppedUntilReset (n : Nat) (hn : n = 16384) :
    Stopped halted (.unimplementedOpcode 0x02 0x8000) ∧ halted.attached ∧ (∃ t, hostReset halted = .next t) ∧
    Stopped violated (.busContractViolation 0x8000) ∧ violated.cart = none ∧
    [HostEvent.tick, .attach (image 1 0 n), .irq, .nmi, .tick].length = 5 ∧ ∃ u, attach (image 1 0 n) violated = .ok u :=
  ⟨test_witness_Stopped.1, by decide, ⟨_, rfl⟩, test_witness_Stopped.2, rfl, rfl, _, by rw [attach, test_image_loads n hn]⟩

/-- The fetch-fault clauses: an opcode in cartridge space with no cartridge; the first operand byte of LDA #, and the second of
LDA abs, at slot 7 with no cartridge. -/
theorem test_witness_StepRunsDecodedInstruction_fetch :
    memRead (State.reset.setPc 0x8000).pc (State.reset.setPc 0x8000) =
      .error (.busContractViolation 0x8000) (State.reset.setPc 0x8000) ∧
    FetchFails (inWindow 0x2006 0xA9) 0xA9 [] (.busContractViolation 0x2007)
      (((inWindow 0x2006 0xA9).setPrevPC 0x2006).setOp 0xA9) ∧
    FetchFails (inWindow 0x2005 0xAD) 0xAD [0xAD] (.busContractViolation 0x2007)
      (((inWindow 0x2005 0xAD).setPrevPC 0x2005).setOp 0xAD) :=
  ⟨rfl, ⟨rfl, ⟨_, rfl, rfl⟩, _, rfl⟩, ⟨rfl, ⟨_, rfl, _, rfl, rfl⟩, _, rfl⟩⟩

/-- The clauses of FaultingTickLeaves that are not those of StepRunsDecodedInstruction: a tick that completes, one that faults, and
an illegal byte under `halt`; of the two fetches above that fail, one has an immediate operand and one has not. -/
theorem test_witness_FaultingTickLeaves :
    step (prog [0xEA]) = .next (stepped (prog [0xEA])) ∧ step State.reset = .fault (.busContractViolation 0xFFFE) ∧
    memRead (prog [0x02]).pc (prog [0x02]) = .ok 0x02 (prog [0x02]) ∧ (0x02 : Byte).toNat ∈ illegalOpcodes ∧
    (prog [0x02]).params.illegalOpcodePolicy = .halt ∧ 0xA9 ∈ immediateOpcodes ∧ 0xAD ∉ immediateOpcodes :=
  ⟨rfl, rfl, rfl, by decide, rfl, by decide, by decide⟩

/-- An instruction at 0x0200 in RAM, with no cartridge and `v` at the last pattern address. -/
def unattached (b0 b1 b2 : Byte) : State :=
  { State.reset with pc := 0x0200, ram := [(0x200, b0), (0x201, b1), (0x202, b2)] }.setPpu { Ppu.powerOn with v := 0x1FFF }

theorem test_unattached_runs (b0 b1 b2 : Byte) : Running (unattached b0 b1 b2) := running_of_report rfl

/-- That instruction fetched. -/
def fetched (b0 b1 b2 : Byte) : State := ((unattached b0 b1 b2).setPrevPC 0x0200).setOp b0

/-- For FaultingInstructionLeaves: the fetches of the six instructions below. -/
theorem test_fetched :
    Fetches (unattached 0xAD 0x20 0x80) 0xAD [0x20, 0x80] (fetched 0xAD 0x20 0x80) ∧
    Fetches (unattached 0x8D 0x20 0x80) 0x8D [0x20, 0x80] (fetched 0x8D 0x20 0x80) ∧
    Fetches (unattached 0x4E 0x07 0x20) 0x4E [0x07, 0x20] (fetched 0x4E 0x07 0x20) ∧
    Fetches (unattached 0xEE 0x07 0x20) 0xEE [0x07, 0x20] (fetched 0xEE 0x07 0x20) ∧
    Fetches (unattached 0x6C 0x20 0x80) 0x6C [0x20, 0x80] (fetched 0x6C 0x20 0x80) ∧
    Fetches (unattached 0x6C 0x1F 0x40) 0x6C [0x1F, 0x40] (fetched 0x6C 0x1F 0x40) :=
  ⟨⟨_, rfl, _, rfl, _, rfl, rfl⟩, ⟨_, rfl, _, rfl, _, rfl, rfl⟩, ⟨_, rfl, _, rfl, _, rfl, rfl⟩, ⟨_, rfl, _, rfl, _, rfl, rfl⟩,
    ⟨_, rfl, _, rfl, _, rfl, rfl⟩, ⟨_, rfl, _, rfl, _, rfl, rfl⟩⟩

/-- LDA $8020, read; STA $8020, written. -/
theorem test_witness_FaultingInstructionLeaves_access :
    decode [0xAD, 0x20, 0x80] = .ok (.lda (.abs 0x8020), []) ∧ decode [0x8D, 0x20, 0x80] = .ok (.sta (.abs 0x8020), []) ∧
    (0xAD : Byte).toNat ∉ illegalOpcodes ∧ (0x8D : Byte).toNat ∉ illegalOpcodes ∧
    memRead (wordOf 0x8020) (past (fetched 0xAD 0x20 0x80) 3) =
      .error (.busContractViolation 0x8020) (past (fetched 0xAD 0x20 0x80) 3) ∧
    memWrite (wordOf 0x8020) (fetched 0x8D 0x20 0x80).a (past (fetched 0x8D 0x20 0x80) 3) =
      .error (.busContractViolation 0x8020) (past (fetched 0x8D 0x20 0x80) 3) :=
  ⟨rfl, rfl, by decide, by decide, rfl, rfl⟩

/-- LSR $2007 and INC $2007: the read at the last pattern address moves `v` to a nametable address, where the write fails. -/
theorem test_witness_FaultingInstructionLeaves_modify :
    (decode [0x4E, 0x07, 0x20] = .ok (.lsr (.abs 0x2007), []) ∧ decode [0xEE, 0x07, 0x20] = .ok (.inc (.abs 0x2007), [])) ∧
    ((0x4E : Byte).toNat ∉ illegalOpcodes ∧ (0xEE : Byte).toNat ∉ illegalOpcodes) ∧
    (∃ x y w, memRead (wordOf 0x2007) (past (fetched 0x4E 0x07 0x20) 3) = .ok 0x00 x ∧
      operandModified (carry (fetched 0x4E 0x07 0x20).p) 0x00 (.lsr (.abs 0x2007)) = some (.abs 0x2007, 0, some false) ∧
      CarryWritten x y (some false) ∧ memWrite (wordOf 0x2007) (byteOf 0) y = .error (.busContractViolation 0x2007) w) ∧
    (∃ x w, memRead (wordOf 0x2007) (past (fetched 0xEE 0x07 0x20) 3) = .ok 0x00 x ∧
      operandModified (carry (fetched 0xEE 0x07 0x20).p) 0x00 (.inc (.abs 0x2007)) = some (.abs 0x2007, 1, none) ∧
      CarryWritten x x none ∧ memWrite (wordOf 0x2007) (byteOf 1) x = .error (.busContractViolation 0x2007) w) :=
  ⟨⟨rfl, rfl⟩, by decide, ⟨_, _, _, rfl, rfl, ⟨rfl, rfl, fun _ _ => rfl⟩, rfl⟩, ⟨_, _, rfl, rfl, rfl, rfl⟩⟩

/-- JMP ($8020), whose first pointer byte fails, and JMP ($401F), whose second does. -/
theorem test_witness_FaultingInstructionLeaves_jump :
    decode [0x6C, 0x20, 0x80] = .ok (.jmp (.ind 0x8020), []) ∧ decode [0x6C, 0x1F, 0x40] = .ok (.jmp (.ind 0x401F), []) ∧
    (0x6C : Byte).toNat ∉ illegalOpcodes ∧
    memRead 0x8020 (fetched 0x6C 0x20 0x80) = .error (.busContractViolation 0x8020) (fetched 0x6C 0x20 0x80) ∧
    memRead 0x401F (fetched 0x6C 0x1F 0x40) = .ok 0x00 (fetched 0x6C 0x1F 0x40) ∧
    memRead (if (fetched 0x6C 0x1F 0x40).params.jmpIndirectPageWrap then wordOf (256 * (0x401F / 256) + (0x401F + 1) % 256)
      else wordOf (0x401F + 1)) (fetched 0x6C 0x1F 0x40) = .error (.busContractViolation 0x4020) (fetched 0x6C 0x1F 0x40) :=
  ⟨rfl, rfl, by decide, rfl, rfl, rfl⟩

/-- BRK, with no cartridge. -/
theorem test_witness_FaultingInstructionLeaves_trap :
    Fetches State.reset 0x00 [] ((State.reset.setPrevPC 0).setOp 0) ∧ (0x00 : Byte).toNat ∉ illegalOpcodes ∧
    decode [0x00] = .ok (.brk, []) ∧ ((State.reset.setPrevPC 0).setOp 0).cart = none ∧
    ((State.reset.setPrevPC 0).setOp 0).ram.wf := ⟨⟨_, rfl, rfl⟩, by decide, rfl, rfl, by decide⟩

/-- What a LSR leaves whose write fails: `PC` and `v` moved, the carry written, `Z` and `N` not (R211, R303). -/
theorem test_violation_modify :
    (tickLeaves { unattached 0x4E 0x07 0x20 with p := 0x25 }).map (fun t => (t.pc, t.p, t.ppu.v, t.cyc)) =
      some (0x0203, 0x24, 0x2000, 0) := by decide

/-- No cell at `v`. -/
theorem test_witness_VramDataPort_none : vramCell (inWindow 0x2006 0xA9) (inWindow 0x2006 0xA9).ppu.v = none := by decide

/-- For the attach clauses of HostOperationsKeepInvariant and StatusBitsFixed: an image that loads. -/
theorem test_witness_attach (n : Nat) (hn : n = 16384) : wit.wf ∧ ∃ t, attach (image 1 0 n) wit = .ok t :=
  ⟨test_wit_wf.1, _, by rw [attach, test_image_loads n hn]⟩

end Sys2Proof.Tests
end

/-! SUPPORT. What a completed instruction can change: one relation, composed along the instruction's operations. -/
section

namespace Sys2Proof.Laws.Encoding

/-- The facts above, for every instruction. -/
theorem statement : ∀ i : Instr, Statement i
  | .adc m => adc m | .and m => and m | .asl m => asl m | .bit m => bit m | .cmp m => cmp m | .cpx m => cpx m
  | .cpy m => cpy m | .dec m => dec m | .eor m => eor m | .inc m => inc m | .lda m => lda m | .ldx m => ldx m
  | .ldy m => ldy m | .lsr m => lsr m | .ora m => ora m | .rol m => rol m | .ror m => ror m | .sbc m => sbc m
  | .sta m => sta m | .stx m => stx m | .sty m => sty m | .bcc m => bcc m | .bcs m => bcs m | .beq m => beq m
  | .bmi m => bmi m | .bne m => bne m | .bpl m => bpl m | .bvc m => bvc m | .bvs m => bvs m | .jmp m => jmp m
  | .jsr m => jsr m | .illegal m => illegal m | .brk => brk | .clc => clc | .cld => cld | .cli => cli | .clv => clv
  | .dex => dex | .dey => dey | .inx => inx | .iny => iny | .nop => nop | .pha => pha | .php => php | .pla => pla
  | .plp => plp | .rti => rti | .rts => rts | .sec => sec | .sed => sed | .sei => sei | .tax => tax | .tay => tay
  | .tsx => tsx | .txa => txa | .txs => txs | .tya => tya

end Sys2Proof.Laws.Encoding

namespace Sys2Proof.Machine

open Sys2Proof.Claims

/-! The frame of an instruction. -/

/-- What stands between a state and a later one while `i` executes: only the registers and flags `i` writes differ (the status
byte of R25 taken for granted), an illegal opcode alone touches the latches, the counter and the report, the cartridge and the
parameters stay, and a well-formed state stays well-formed. Memories and `PC` are otherwise free. -/
structure Frame (i : Instr) (s t : State) : Prop where
  a : WellFormed i = true → writesA i = false → t.a = s.a
  x : writesX i = false → t.x = s.x
  y : writesY i = false → t.y = s.y
  sp : writesSp i = false → t.sp = s.sp
  flags : statusLegal s.p → SameBut (flagsWritten i) s.p t.p
  latches : (∀ op, i ≠ .illegal op) → t.op = s.op ∧ t.prevPC = s.prevPC ∧ t.cyc = s.cyc ∧ t.report = s.report
  cyc_le : s.cyc ≤ t.cyc
  cart : t.cart = s.cart
  params : t.params = s.params
  wf : s.wf → t.wf

/-- No instruction writes bits 5 and 4 of the status byte (spec/10_state.md R25, R33). -/
theorem fixedBits_notMem_flagsWritten (i : Instr) : bitU ∉ flagsWritten i ∧ bitB ∉ flagsWritten i := by
  cases i <;> simp [flagsWritten, bitU, bitB, bitC, bitZ, bitI, bitD, bitV, bitN]

theorem statusLegal_of_flagsWritten {i : Instr} {p q : Byte} (h : SameBut (flagsWritten i) p q) (hp : statusLegal p) :
    statusLegal q :=
  sameBut_statusLegal h (fixedBits_notMem_flagsWritten i).1 (fixedBits_notMem_flagsWritten i).2 hp

theorem sameBut_addFlags (a m p : Byte) : SameBut [bitC, bitZ, bitV, bitN] p (addFlags a m p) := by
  obtain ⟨-, -, -, h⟩ := addFlags_spec a m p
  exact h

theorem sameBut_compareFlags (r m p : Byte) : SameBut [bitC, bitZ, bitN] p (compareFlags r m p) := by
  obtain ⟨-, -, -, h⟩ := compareFlags_spec r m p
  exact h

theorem sameBut_bitFlags (a m p : Byte) : SameBut [bitZ, bitV, bitN] p (bitFlags a m p) := by
  obtain ⟨-, -, -, h⟩ := bitFlags_spec a m p
  exact h

namespace Frame

variable {i : Instr} {s t u : State} {m : Operand}

theorem refl (i : Instr) (s : State) : Frame i s s where
  a _ _ := rfl
  x _ := rfl
  y _ := rfl
  sp _ := rfl
  flags _ _ _ := rfl
  latches _ := ⟨rfl, rfl, rfl, rfl⟩
  cyc_le := Nat.le_refl _
  cart := rfl
  params := rfl
  wf := id

theorem trans (h : Frame i s u) (k : Frame i u t) : Frame i s t where
  a hw ha := (k.a hw ha).trans (h.a hw ha)
  x hx := (k.x hx).trans (h.x hx)
  y hy := (k.y hy).trans (h.y hy)
  sp hs := (k.sp hs).trans (h.sp hs)
  flags hp j hj := (k.flags (statusLegal_of_flagsWritten (h.flags hp) hp) j hj).trans (h.flags hp j hj)
  latches hi := by
    obtain ⟨h1, h2, h3, h4⟩ := h.latches hi
    obtain ⟨k1, k2, k3, k4⟩ := k.latches hi
    exact ⟨k1.trans h1, k2.trans h2, k3.trans h3, k4.trans h4⟩
  cyc_le := Nat.le_trans h.cyc_le k.cyc_le
  cart := k.cart.trans h.cart
  params := k.params.trans h.params
  wf hs := k.wf (h.wf hs)

/-! One rule per register write. -/

theorem setPc (v : Word) : Frame i s (s.setPc v) := { refl i s with }

theorem setA (h : writesA i = true) (v : Byte) : Frame i s (s.setA v) :=
  { refl i s with a := fun _ h' => nomatch h.symm.trans h' }

theorem setX (h : writesX i = true) (v : Byte) : Frame i s (s.setX v) :=
  { refl i s with x := fun h' => nomatch h.symm.trans h' }

theorem setY (h : writesY i = true) (v : Byte) : Frame i s (s.setY v) :=
  { refl i s with y := fun h' => nomatch h.symm.trans h' }

theorem setSp (h : writesSp i = true) (v : Byte) : Frame i s (s.setSp v) :=
  { refl i s with sp := fun h' => nomatch h.symm.trans h' }

theorem setP {v : Byte} (h : statusLegal s.p → SameBut (flagsWritten i) s.p v) : Frame i s (s.setP v) :=
  { refl i s with
    flags := h
    wf := fun hs => ⟨statusLegal_of_flagsWritten (h hs.1) hs.1, hs.2⟩ }

theorem putFlag {b : Nat} (hb : b < 8) (h : b ∈ flagsWritten i) (v : Bool) : Frame i s (s.putFlag b v) :=
  setP fun _ => sameBut_mono (sameBut_putBit s.p hb v) (by simpa using h)

theorem putZN (h : ∀ b ∈ [bitZ, bitN], b ∈ flagsWritten i) (v : Byte) : Frame i s (s.putZN v) :=
  setP fun _ => sameBut_mono (setZN_spec v s.p).2 h

theorem loadA (ha : writesA i = true) (hf : flagsWritten i = [bitZ, bitN]) (v : Byte) : Frame i s (s.loadA v) :=
  (setA ha v).trans (putZN (fun _ hb => hf ▸ hb) v)

theorem loadX (hx : writesX i = true) (hf : flagsWritten i = [bitZ, bitN]) (v : Byte) : Frame i s (s.loadX v) :=
  (setX hx v).trans (putZN (fun _ hb => hf ▸ hb) v)

theorem loadY (hy : writesY i = true) (hf : flagsWritten i = [bitZ, bitN]) (v : Byte) : Frame i s (s.loadY v) :=
  (setY hy v).trans (putZN (fun _ hb => hf ▸ hb) v)

theorem addCore (ha : writesA i = true) (hf : flagsWritten i = [bitC, bitZ, bitV, bitN]) (v : Byte) :
    Frame i s (s.addCore v) :=
  (setA ha _).trans (setP fun _ => hf ▸ sameBut_addFlags s.a v s.p)

/-! One rule per access to memory. -/

/-- A change of RAM, the PPU and the draw counter that keeps them well-formed. -/
theorem of_memory {r : Memory} {q : Ppu} {d : Nat} (h : t = ((s.setRam r).setPpu q).setDraws d) (hwf : s.wf → t.wf) :
    Frame i s t := by
  subst h
  exact { refl i s with wf := hwf }

theorem of_memRead {a : Word} {v : Byte} (h : memRead a s = .ok v t) : Frame i s t :=
  of_memory (r := s.ram) (memRead_frame h) (memRead_wf h)

theorem of_memWrite {a : Word} {v : Byte} (h : memWrite a v s = .ok () t) : Frame i s t :=
  of_memory ((memWrite_frame h).trans (State.setDraws_self _).symm) (memWrite_wf h)

theorem of_read16 {lo hi v : Word} (h : read16 lo hi s = .ok v t) : Frame i s t :=
  of_memory (r := s.ram) (read16_frame h) (read16_wf h)

theorem pushed (h : writesSp i = true) (v : Byte) : Frame i s (s.pushed v) :=
  { setSp h (s.sp - 1) with wf := fun hs => State.pushed_wf hs v }

theorem trapFrame (hs : writesSp i = true) (hf : bitI ∈ flagsWritten i) (ret : Word) (b : Bool) :
    Frame i s (s.trapFrame ret b) :=
  (pushed hs _).trans ((pushed hs _).trans ((pushed hs _).trans (putFlag (by decide) hf true)))

theorem of_reads {v : Byte} (h : Reads s m v u) : Frame i s u := by
  rw [reads_iff, operandByte_run] at h
  exact (setPc _).trans (of_memory (r := s.ram) (readOperand_frame h) (readOperand_wf h))

/-- An operand write changes `A` only through the accumulator form. -/
theorem of_writeOperand {v : Byte} (hA : WellFormed i = true → writesA i = false → m ≠ .acc)
    (h : writeOperand (u.eaOf m) v s = .ok () t) : Frame i s t := by
  cases m with
  | acc =>
    cases h
    exact { refl i s with a := fun hw ha => absurd rfl (hA hw ha) }
  | _ => exact of_memWrite h

/-! One rule per shape of an instruction. -/

theorem of_withOperand {f : Byte → State → State} (h : outcome (withOperand m f) s = .next t)
    (hf : ∀ v u, Frame i u (f v u)) : Frame i s t := by
  obtain ⟨v, u, hr, rfl⟩ := outcome_withOperand.mp h
  exact (of_reads hr).trans (hf v u)

theorem of_storeOperand {r : State → Byte} (h : outcome (storeOperand m r) s = .next t)
    (hA : WellFormed i = true → m ≠ .acc) : Frame i s t :=
  (setPc _).trans (of_writeOperand (fun hw _ => hA hw) (outcome_storeOperand.mp h))

theorem of_readModifyWrite {result : Byte → Byte → Byte} {before : Byte → State → State}
    (h : outcome (readModifyWrite m result before) s = .next t) (hb : ∀ v u, Frame i u (before v u))
    (hf : ∀ b ∈ [bitZ, bitN], b ∈ flagsWritten i) (hA : WellFormed i = true → writesA i = false → m ≠ .acc) :
    Frame i s t := by
  obtain ⟨v, u, w, hr, hw, rfl⟩ := outcome_readModifyWrite.mp h
  exact (of_reads hr).trans ((hb v u).trans ((of_writeOperand hA hw).trans (putZN hf _)))

theorem of_implied {f : State → State} (hi : meaning i = implied f) (h : exec i s = .next t)
    (hf : ∀ u, Frame i u (f u)) : Frame i s t := by
  rw [exec_eq_outcome, hi, outcome_implied] at h
  cases h
  exact (setPc _).trans (hf _)

theorem of_branch {b : Nat} {want : Bool} {d : Byte} (h : outcome (branch b want d) s = .next t) : Frame i s t := by
  cases (outcome_branch b want d s).symm.trans h
  exact setPc _

theorem of_illegal {op : Byte} (h : exec (.illegal op) s = .next t) : Frame (.illegal op) s t := by
  rw [exec_illegal] at h
  split at h <;> cases h
  · exact { refl (.illegal op) s with latches := fun hi => absurd rfl (hi op) }
  · exact { refl (.illegal op) s with
      latches := fun hi => absurd rfl (hi op)
      cyc_le := Nat.le_add_right _ _ }

end Frame

/-- Every instruction keeps its frame. -/
theorem exec_frame {i : Instr} {s t : State} (h : exec i s = .next t) : Frame i s t := by
  cases i with
  | ora m | and m | eor m | lda m => exact .of_withOperand h fun _ _ => .loadA rfl rfl _
  | ldx m => exact .of_withOperand h fun _ _ => .loadX rfl rfl _
  | ldy m => exact .of_withOperand h fun _ _ => .loadY rfl rfl _
  | adc m | sbc m => exact .of_withOperand h fun _ _ => .addCore rfl rfl _
  | cmp m | cpx m | cpy m => exact .of_withOperand h fun _ _ => .setP fun _ => sameBut_compareFlags _ _ _
  | bit m => exact .of_withOperand h fun _ _ => .setP fun _ => sameBut_bitFlags _ _ _
  | sta m | stx m | sty m => exact .of_storeOperand h fun hw hm => by subst hm; cases hw
  | asl m | lsr m | rol m | ror m =>
    exact .of_readModifyWrite h (fun _ _ => .putFlag (by decide) (by simp [flagsWritten]) _) (by simp [flagsWritten])
      fun _ ha hm => by subst hm; cases ha
  | inc m | dec m =>
    exact .of_readModifyWrite h (fun _ u => .refl _ u) (by simp [flagsWritten]) fun hw _ hm => by subst hm; cases hw
  | inx | dex | tax | tsx => exact .of_implied rfl h fun _ => .loadX rfl rfl _
  | iny | dey | tay => exact .of_implied rfl h fun _ => .loadY rfl rfl _
  | txa | tya => exact .of_implied rfl h fun _ => .loadA rfl rfl _
  | txs => exact .of_implied rfl h fun _ => .setSp rfl _
  | clc | sec | cli | sei | clv | cld | sed =>
    exact .of_implied rfl h fun _ => .putFlag (by decide) (by simp [flagsWritten]) _
  | nop => cases (exec_nop s).symm.trans h; exact .setPc _
  | bpl d | bmi d | bvc d | bvs d | bcc d | bcs d | bne d | beq d => exact .of_branch h
  | pha => cases (exec_pha s).symm.trans h; exact (Frame.setPc _).trans (.pushed rfl _)
  | php => cases (exec_php s).symm.trans h; exact (Frame.setPc _).trans (.pushed rfl _)
  | pla =>
    cases (exec_pla s).symm.trans h
    exact (Frame.setPc _).trans ((Frame.setSp rfl _).trans (.loadA rfl rfl _))
  | plp =>
    cases (exec_plp s).symm.trans h
    exact (Frame.setPc _).trans ((Frame.setSp rfl _).trans (.setP fun hp => unpackP_sameBut hp _))
  | jmp target =>
    cases target with
    | abs a => cases (exec_jmp_abs a s).symm.trans h; exact .setPc _
    | ind p =>
      obtain ⟨a, u, hr, rfl⟩ := exec_jmp_ind.mp h
      exact (Frame.of_read16 hr).trans (.setPc _)
  | jsr a =>
    cases (exec_jsr a s).symm.trans h
    exact (Frame.setPc _).trans ((Frame.pushed rfl _).trans (.pushed rfl _))
  | rts => cases (exec_rts s).symm.trans h; exact (Frame.setSp rfl _).trans (.setPc _)
  | rti =>
    cases (exec_rti s).symm.trans h
    exact .trans (.setSp rfl _) (.trans (.setP fun hp => unpackP_sameBut hp _) (.setPc _))
  | brk =>
    obtain ⟨c, -, rfl⟩ := exec_brk_next h
    exact (Frame.setPc _).trans ((Frame.trapFrame rfl (by simp [flagsWritten]) _ _).trans (.setPc _))
  | illegal op => exact .of_illegal h

/-! The claims about every instruction. -/

/-- Settles O17: the frame of the instruction. -/
theorem flagsWrittenOnly : Obligations.FlagsWrittenOnly := fun _ _ _ hp h => (exec_frame h).flags hp

/-- Settles O18: the frame of the instruction. -/
theorem registersWrittenOnly : Obligations.RegistersWrittenOnly := fun _ _ _ hw h =>
  have hf := exec_frame h
  ⟨hf.a hw, hf.x, hf.y, hf.sp, hf.latches, hf.cart, hf.params⟩

/-! The claims about a step: a fetch, the instruction, the count. -/

/-- Settles O13: the fetch, the instruction and the count each keep the state well-formed. -/
theorem stepKeepsInvariant : Obligations.StepKeepsInvariant := by
  intro s t hs h
  obtain ⟨i, u, w, hf, he, rfl⟩ := step_eq_next h
  exact (exec_frame he).wf (fetch_wf hf hs)

/-- Settles O19: the fetch and the instruction keep cartridge and parameters, and the tick only adds to the counter. -/
theorem stepKeepsCartridge : Obligations.StepKeepsCartridge := by
  intro s t h
  obtain ⟨i, u, w, hf, he, rfl⟩ := step_eq_next h
  have hw := exec_frame he
  rw [fetch_frame hf] at hw
  exact ⟨hw.cart, hw.params, Nat.le_add_right_of_le hw.cyc_le⟩

/-! The status byte under the host's operations. -/

/-- An interrupt entry that completes found its vector in a cartridge (spec/60_exceptions.md R307). -/
theorem interruptEntry_eq_ok {vector : Word} {s t : State} (h0 : region vector = .cart) (h1 : region (vector + 1) = .cart)
    (h : interruptEntry vector s = .ok () t) :
    ∃ c, s.cart = some c ∧
      t = ((s.trapFrame s.pc false).setPc (join (c.read (vector + 1)) (c.read vector))).setCyc (s.cyc + 7) := by
  simp only [interruptEntry, get_bind] at h
  obtain ⟨_, u, hu, hk⟩ := bind_eq_ok.mp h
  cases hc : s.cart with
  | none => rw [enterTrap_unattached false hc h0] at hu; cases hu
  | some c =>
    rw [enterTrap_run false hc h0 h1] at hu
    cases hu
    cases hk
    exact ⟨c, rfl, rfl⟩

/-- Setting one of the six flags keeps bits 5 and 4. -/
theorem statusLegal_putBit {p : Byte} (hp : statusLegal p) {b : Nat} (hb : b < 8) (hU : b ≠ bitU) (hB : b ≠ bitB) (v : Bool) :
    statusLegal (putBit p b v) :=
  sameBut_statusLegal (sameBut_putBit p hb v) (by simpa using hU.symm) (by simpa using hB.symm) hp

theorem statusLegal_of_interruptEntry {vector : Word} {s t : State} (h0 : region vector = .cart)
    (h1 : region (vector + 1) = .cart) (hp : statusLegal s.p) (h : interruptEntry vector s = .ok () t) : statusLegal t.p := by
  obtain ⟨c, -, rfl⟩ := interruptEntry_eq_ok h0 h1 h
  exact statusLegal_putBit hp (by decide) (by decide) (by decide) true

theorem statusLegal_of_hostReset {s t : State} (h : hostReset s = .next t) : statusLegal t.p := by
  obtain ⟨target, u, -, hk⟩ := bind_eq_ok.mp (outcome_eq_next.mp h)
  cases hk
  exact (by decide : statusLegal resetP)

/-- A load that succeeds attaches the cartridge the image describes (spec/21_cartridge_mapper.md R96). -/
theorem attach_eq_ok {image : List Byte} {s t : State} (h : attach image s = .ok t) :
    ∃ c, parseImage image = .ok c ∧ t = s.withCart c := by
  unfold attach at h
  split at h <;> cases h
  exact ⟨_, ‹_›, rfl⟩

/-- Settles O16: no instruction writes the two bits, nor does an interrupt entry or a load; reset sets the whole byte. -/
theorem statusBitsFixed : Obligations.StatusBitsFixed := by
  refine ⟨fun i s t hp h => statusLegal_of_flagsWritten ((exec_frame h).flags hp) hp, fun s t => statusLegal_of_hostReset,
    fun s t hp h => ?_, fun s t hp h => ?_, fun image s t hp h => ?_⟩
  · obtain rfl | h := irq_eq_next h
    · exact hp
    · exact statusLegal_of_interruptEntry region_brkVector.1 region_brkVector.2 hp h
  · obtain rfl | h := nmi_eq_next h
    · exact hp
    · exact statusLegal_of_interruptEntry region_nmiVector.1 region_nmiVector.2 hp h
  · obtain ⟨c, -, rfl⟩ := attach_eq_ok h
    exact hp

/-! `PC` past an instruction. -/

/-- The length of an operand form is the opcode byte and its operand bytes (spec/30_encoding.md R151). -/
theorem length_eq_bytes (m : Operand) : length m = m.bytes.length + 1 := by cases m <;> rfl

theorem writeOperand_pc {ea : Ea} {v : Byte} {s t : State} (h : writeOperand ea v s = .ok () t) : t.pc = s.pc := by
  rw [writeOperand_frame h]; rfl

theorem reads_pc {s u : State} {m : Operand} {v : Byte} (h : Reads s m v u) : u.pc = (past s (length m)).pc := by
  rw [reads_frame h]; rfl

theorem pc_of_withOperand {m : Operand} {f : Byte → State → State} {s t : State}
    (h : outcome (withOperand m f) s = .next t) (hf : ∀ v u, (f v u).pc = u.pc) : t.pc = (past s (m.bytes.length + 1)).pc := by
  obtain ⟨v, u, hr, rfl⟩ := outcome_withOperand.mp h
  rw [← length_eq_bytes, hf, reads_pc hr]

theorem pc_of_storeOperand {m : Operand} {r : State → Byte} {s t : State}
    (h : outcome (storeOperand m r) s = .next t) : t.pc = (past s (m.bytes.length + 1)).pc := by
  rw [← length_eq_bytes, writeOperand_pc (outcome_storeOperand.mp h)]

theorem pc_of_readModifyWrite {m : Operand} {result : Byte → Byte → Byte} {before : Byte → State → State} {s t : State}
    (h : outcome (readModifyWrite m result before) s = .next t) (hb : ∀ v u, (before v u).pc = u.pc) :
    t.pc = (past s (m.bytes.length + 1)).pc := by
  obtain ⟨v, u, w, hr, hw, rfl⟩ := outcome_readModifyWrite.mp h
  show w.pc = _
  rw [← length_eq_bytes, writeOperand_pc hw, hb, reads_pc hr]

theorem pc_of_implied {i : Instr} {f : State → State} {s t : State} (hi : meaning i = implied f) (h : exec i s = .next t)
    (hf : ∀ u, (f u).pc = u.pc) : t.pc = (past s 1).pc := by
  rw [exec_eq_outcome, hi, outcome_implied] at h
  cases h
  exact hf _

/-- An instruction that does not set `PC` moves it past its opcode byte and its operand bytes. -/
theorem exec_pc {i : Instr} {s t : State} (hp : setsPc i = false) (h : exec i s = .next t) :
    t.pc = (past s ((operandBytesOf i).length + 1)).pc := by
  cases i with
  | ora m | and m | eor m | bit m | adc m | sbc m | cmp m | cpx m | cpy m | lda m | ldx m | ldy m =>
    exact pc_of_withOperand h fun _ _ => rfl
  | sta m | stx m | sty m => exact pc_of_storeOperand h
  | asl m | lsr m | rol m | ror m | inc m | dec m => exact pc_of_readModifyWrite h fun _ _ => rfl
  | inx | iny | dex | dey | tax | tay | txa | tya | tsx | txs | clc | sec | cli | sei | clv | cld | sed =>
    refine pc_of_implied rfl h fun _ => ?_
    rfl
  | nop => cases (exec_nop s).symm.trans h; rfl
  | pha => cases (exec_pha s).symm.trans h; rfl
  | php => cases (exec_php s).symm.trans h; rfl
  | pla => cases (exec_pla s).symm.trans h; rfl
  | plp => cases (exec_plp s).symm.trans h; rfl
  | bcc | bcs | beq | bmi | bne | bpl | bvc | bvs | jmp | jsr | rts | brk | rti | illegal => cases hp

/-- The bytes of a well-formed instruction are its opcode byte and its operand bytes (spec/30_encoding.md R151). -/
theorem encode_length {i : Instr} (hw : WellFormed i = true) : (encode i).length = (operandBytesOf i).length + 1 := by
  obtain ⟨op, he, -⟩ := Laws.Encoding.statement i hw
  rw [he, List.length_cons]

/-- Settles O8: `PC` moves past the bytes the instruction has, and those are its encoding. -/
theorem pcMovesPastInstruction : Obligations.PcMovesPastInstruction := by
  intro i s t hw hp h
  rw [exec_pc hp h, encode_length hw]
  rfl

/-! The cost of a tick. -/

/-- What every cell of the opcode map has, and the empty cell, `dispatch` has for every byte. -/
theorem dispatch_forall {P : Entry → Prop} (hill : P .ill) (h : ∀ row ∈ opcodeMap, ∀ e ∈ row, P e) (op : Byte) :
    P (dispatch op) := by
  have hrow : ∀ e ∈ opcodeMap.getD (op.toNat / 16) [], P e := by
    rw [List.getD_eq_getElem?_getD]
    cases hr : opcodeMap[op.toNat / 16]? with
    | none => exact fun e he => nomatch he
    | some row => exact h row (List.mem_of_getElem? hr)
  unfold dispatch
  rw [List.getD_eq_getElem?_getD]
  cases he : (opcodeMap.getD (op.toNat / 16) [])[op.toNat % 16]? with
  | none => exact hill
  | some e => exact hrow e (List.mem_of_getElem? he)

/-- Only an empty cell of the opcode map builds an illegal instruction (spec/30_encoding.md R153, R154). -/
theorem instrOf_ne_illegal {op : Byte} (h : (dispatch op).isIllegal = false) (b1 b2 op' : Byte) :
    instrOf op b1 b2 ≠ .illegal op' := by
  refine dispatch_forall (P := fun e => e.isIllegal = false → e.build op b1 b2 ≠ .illegal op') (fun h => nomatch h) ?_ op h
  simp only [opcodeMap, opcodeRow0, opcodeRow1, opcodeRow2, opcodeRow3, opcodeRow4, opcodeRow5, opcodeRow6, opcodeRow7,
    opcodeRow8, opcodeRow9, opcodeRowA, opcodeRowB, opcodeRowC, opcodeRowD, opcodeRowE, opcodeRowF, List.forall_mem_append,
    List.forall_mem_cons, List.not_mem_nil, Entry.build, Entry.isIllegal, ne_eq, reduceCtorEq, not_false_eq_true, implies_true,
    false_implies, and_self]

theorem pageDiffers_eq (a b : Word) : pageDiffers a b = crossing a.toNat b.toNat := by
  simp only [pageDiffers, crossing, ← hiByte_toNat, BitVec.toNat_inj]

theorem pagePenalty_eq (s : State) (m : Operand) : pagePenalty s m = pageCost s m := by
  cases m <;> simp only [pagePenalty, pageCost, pageDiffers_eq, word_add_toNat, zext_toNat, zpWord_toNat]

theorem branchPenalty_eq (s : State) (b : Nat) (want : Bool) (d : Byte) :
    branchPenalty s (b, want, d) = branchCost s (flag s.p b == want) d := by
  have h2 : (s.pc + 2).toNat = (s.pc.toNat + 2) % 65536 := word_add_toNat s.pc 2
  simp only [branchPenalty, branchCost, relTarget_eq, pageDiffers_eq, h2, beq_iff_eq]

/-- The penalties of the model are those of R347 in numbers. -/
theorem penalties_eq (i : Instr) (s : State) : penalties i s = penalty s i := by
  cases i <;> simp [penalties, penalty, pagePenaltyOperand, branchTest, pagePenalty_eq, branchPenalty_eq]

/-- The cost of a legal instruction (spec/70_reset_and_hazards.md R345). -/
theorem tickCost_legal {i : Instr} (hi : ∀ op, i ≠ .illegal op) (s : State) :
    tickCost i s = s.params.cyc.getD s.op.toNat 0 + if s.params.cyclePenalties then penalty s i else 0 := by
  rw [← penalties_eq]
  cases i with
  | illegal op => exact absurd rfl (hi op)
  | _ => rfl

/-- R347 looks at the registers and at RAM alone. -/
theorem penalty_congr {s u : State} (hpc : u.pc = s.pc) (hx : u.x = s.x) (hy : u.y = s.y) (hp : u.p = s.p)
    (hram : u.ram = s.ram) (i : Instr) : penalty u i = penalty s i := by
  have hbranch : branchCost u = branchCost s := by funext taken d; simp only [branchCost, hpc]
  have hpage : pageCost u = pageCost s := by
    funext m
    cases m <;> simp only [pageCost, pointer, hx, hy, hram]
  cases i <;> simp only [penalty, hpage, hbranch, hp]

/-- The fetch of a legal instruction latches its opcode and the address it came from, and reads bytes (R150, R27). -/
theorem fetches_frame {s u : State} {op : Byte} {bs : List Byte} {i : Instr} (h : Fetches s op bs u)
    (hd : decode (op :: bs) = .ok (i, [])) :
    ∃ q d, u = (((s.setPpu q).setDraws d).setPrevPC s.pc).setOp op := by
  obtain ⟨w, h1, h2⟩ := h
  obtain ⟨b, h3, -⟩ := fetchOperands_of_fetchesBytes h2 hd
  exact ⟨u.ppu, u.draws, by rw [fetchOperands_frame h3, memRead_frame h1]; rfl⟩

/-- A legal opcode's bytes decode to no illegal instruction. -/
theorem decoded_ne_illegal {s u : State} {op : Byte} {bs : List Byte} {i : Instr} (h : Fetches s op bs u)
    (hl : op.toNat ∉ illegalOpcodes) (hd : decode (op :: bs) = .ok (i, [])) (op' : Byte) : i ≠ .illegal op' := by
  obtain ⟨w, -, h2⟩ := h
  obtain ⟨b, -, rfl⟩ := fetchOperands_of_fetchesBytes h2 hd
  exact instrOf_ne_illegal (isIllegal_false hl) _ _ _

/-- Settles O6: the fetch latches the opcode and its address, the instruction leaves both and the counter, and the tick charges
the cost. -/
theorem tickRecordsAndCounts : Obligations.TickRecordsAndCounts := by
  intro s u t op bs i hf hl hd h
  obtain ⟨j, v, w, hj, he, rfl⟩ := step_eq_next h
  cases (fetch_of_fetches hf hl hd).symm.trans hj
  have hi := decoded_ne_illegal hf hl hd
  obtain ⟨q, d, rfl⟩ := fetches_frame hf hd
  obtain ⟨hop, hprev, hcyc, -⟩ := (exec_frame he).latches hi
  refine ⟨hop, hprev, ?_⟩
  have hpen := penalty_congr (s := s) (u := (((s.setPpu q).setDraws d).setPrevPC s.pc).setOp op) rfl rfl rfl rfl rfl i
  simp [tickCost_legal hi, hpen, hcyc, Nat.add_assoc]

end Sys2Proof.Machine
end

/-! SUPPORT. The memory claims: the regions of the bus, the VRAM data port read back, completion with a cartridge attached, and
which memory an instruction can change. -/
section

namespace Sys2Proof.Machine

open Sys2Proof.Claims

/-! The regions by address number (spec/20_memory.md R50). -/

theorem region_ppu_iff (a : Word) : region a = .ppu ↔ InWindow a.toNat :=
  ⟨fun h => Classical.byContradiction fun hn => region_ne_ppu hn h, region_window⟩

/-- The decode of R50 on numbers. -/
theorem region_eq (a : Word) : region a =
    if a.toNat < 0x2000 then .ram else if a.toNat < 0x4000 then .ppu else if a.toNat < 0x4020 then .hole else .cart := rfl

theorem region_hole_iff (a : Word) : region a = .hole ↔ 0x4000 ≤ a.toNat ∧ a.toNat < 0x4020 := by
  rw [region_eq]
  repeat' split
  all_goals simp only [reduceCtorEq, true_iff, false_iff]; omega

theorem region_cart_iff (a : Word) : region a = .cart ↔ 0x4020 ≤ a.toNat := by
  rw [region_eq]
  repeat' split
  all_goals simp only [reduceCtorEq, true_iff, false_iff]; omega

/-- Settles O21: the decode, region by region. -/
theorem addressMap : Obligations.AddressMap := fun a =>
  ⟨region_ram_iff a, region_ppu_iff a, region_hole_iff a, region_cart_iff a⟩

/-- With no cartridge a write of cartridge space is a contract violation (R58). -/
theorem cartWrite_unattached {a : Word} (h : region a = .cart) (v : Byte) {s : State} (hc : s.cart = none) :
    memWrite a v s = .error (.busContractViolation a) s := by
  simp [memWrite, h, cartWrite, hc]

/-- Settles O23: the access rules of the two regions. -/
theorem holeAndCartridgeSpace : Obligations.HoleAndCartridgeSpace := by
  refine fun s a v => ⟨fun h1 h2 => ?_, fun h ha => ?_, fun h hc => ?_⟩
  · have hr := (region_hole_iff a).mpr ⟨h1, h2⟩
    exact ⟨memRead_hole hr s, memWrite_hole hr v s⟩
  · exact memWrite_cart (region_cart_of_le h) v ha
  · have hr := region_cart_of_le h
    exact ⟨cartRead_unattached hr hc, cartWrite_unattached hr v hc⟩

/-! RAM and its mirrors (spec/20_memory.md R53). -/

theorem memRead_lt {a : Word} (h : a.toNat < 0x2000) (s : State) : memRead a s = .ok (s.ram.read (a.toNat % 2048)) s := by
  rw [memRead_ram (region_ram_of_lt h), State.ramByte, ramIndex_eq]

theorem memWrite_lt {a : Word} (h : a.toNat < 0x2000) (v : Byte) (s : State) :
    memWrite a v s = .ok () (s.setRam (s.ram.write (a.toNat % 2048) v)) := by
  rw [memWrite_ram (region_ram_of_lt h), ramIndex_eq]

/-- The address one mirror up or down selects the same byte of the same region. -/
theorem mirror_toNat {a : Word} (h : a.toNat < 0x2000) :
    (a ^^^ 0x0800).toNat < 0x2000 ∧ (a ^^^ 0x0800).toNat % 2048 = a.toNat % 2048 := by
  have hx : (a ^^^ 0x0800).toNat = a.toNat ^^^ 0x0800 := BitVec.toNat_xor a 0x0800
  rw [hx]
  refine ⟨Nat.xor_lt_two_pow (n := 13) h (by decide), ?_⟩
  have hm : (a.toNat ^^^ 0x0800) % 2 ^ 11 = a.toNat % 2 ^ 11 ^^^ 0x0800 % 2 ^ 11 := Nat.xor_mod_two_pow
  exact hm.trans (Nat.xor_zero _)

/-- Settles O22: a RAM access goes by the address modulo 2048, which all mirrors share. -/
theorem ramAndMirrors : Obligations.RamAndMirrors := by
  intro s a v ha
  obtain ⟨hm, hmod⟩ := mirror_toNat ha
  refine ⟨memRead_lt ha s, by rw [memRead_lt hm, memRead_lt ha, hmod], _, memWrite_lt ha v s, rfl, fun hw b hb => ?_⟩
  rw [memRead_lt hb, State.setRam_ram, Memory.read_write _ _ _ _ hw]

/-! The VRAM data port (spec/22_ppu_interface.md R124, R125). -/

theorem slotOf_vramData {a : Word} (h : a.toNat % 8 = 7) : slotOf a = .vramData := by
  rw [slotOf_eq, h]; rfl

/-- A read of slot 7 where `v` selects a cell. -/
theorem memRead_vramData {a : Word} (ha : InWindow a.toNat) (h7 : a.toNat % 8 = 7) {s : State} {c : VramCell}
    (hc : vramCell s s.ppu.v = some c) :
    memRead a s = .ok (s.ppu.readCell c) (s.setPpu { s.ppu.advance with ioLatch := s.ppu.readCell c }) := by
  have hr : readVram a s.ppu.v s = .ok (s.ppu.readCell c) s := by simp only [readVram, hc]
  rw [memRead_window ha]
  simp only [ppuReadRegister, slotOf_vramData h7, get_bind]
  exact bind_ok hr

/-- The PPU after the byte `v` was written to the cell `c` through slot 7. -/
def Ppu.stored (u : Ppu) (c : VramCell) (v : Byte) : Ppu := ({ u with ioLatch := v }.writeCell c v).advance

/-- A write of slot 7 where `v` selects a cell. -/
theorem memWrite_vramData {a : Word} (ha : InWindow a.toNat) (h7 : a.toNat % 8 = 7) (v : Byte) {s : State} {c : VramCell}
    (hc : vramCell s s.ppu.v = some c) : memWrite a v s = .ok () (s.setPpu (s.ppu.stored c v)) := by
  have hc' : vramCell (s.setPpu { s.ppu with ioLatch := v }) s.ppu.v = some c := hc
  have hw : writeVram a s.ppu.v v (s.setPpu { s.ppu with ioLatch := v }) =
      .ok () (s.setPpu ({ s.ppu with ioLatch := v }.writeCell c v)) := by
    simp only [writeVram, hc']; rfl
  rw [memWrite_window ha]
  simp only [ppuWriteRegister, modifyPpu, slotOf_vramData h7, modify_bind, get_bind]
  exact bind_ok hw

/-- The VRAM address is no part of a cell. -/
theorem Ppu.readCell_setV (u : Ppu) (w : Word) (c : VramCell) : { u with v := w }.readCell c = u.readCell c := by
  cases c <;> rfl

/-- The I/O latch is no part of a cell. -/
theorem Ppu.readCell_setIoLatch (u : Ppu) (b : Byte) (c : VramCell) : { u with ioLatch := b }.readCell c = u.readCell c := by
  cases c <;> rfl

theorem Ppu.readCell_stored {u : Ppu} (hu : u.memoriesWf) (c d : VramCell) (v : Byte) :
    (u.stored c v).readCell d = if d = c then v else u.readCell d := by
  have hw := Ppu.readCell_writeCell (u := { u with ioLatch := v }) hu c d v
  rw [Ppu.readCell_setIoLatch] at hw
  exact (Ppu.readCell_setV _ _ d).trans hw

/-- Settles O31: the write puts the byte in the cell, and which cell an address selects no window access changes. -/
theorem vramReadAfterWrite : Obligations.VramReadAfterWrite := by
  intro s t a b v' v c ha ha7 hb hb7 hm hc hc' h
  cases (memWrite_vramData ha ha7 v hc).symm.trans h
  have hread : { s.ppu.stored c v with v := v' }.readCell c = v := by
    rw [Ppu.readCell_setV, Ppu.readCell_stored hm, if_pos rfl]
  have hcell : vramCell (s.setPpu { s.ppu.stored c v with v := v' }) v' = some c := hc'
  exact ⟨_, (memRead_vramData hb hb7 hcell).trans (congrArg (EStateM.Result.ok · _) hread)⟩

/-! Completion with a cartridge attached (spec/60_exceptions.md R303). -/

/-- With a cartridge attached every operand is read, and the cartridge stays (R58). -/
theorem reads_attached {s : State} (hs : s.attached) (m : Operand) : ∃ v u, Reads s m v u ∧ u.attached := by
  have hp : (s.setPc (s.pc + operandWidth m)).attached := hs
  obtain ⟨v, u, h⟩ := readOperand_attached hp (s.eaOf m)
  have hr : Reads s m v u := (reads_iff s m v u).mpr ((operandByte_run m s).trans h)
  exact ⟨v, u, hr, by rw [reads_frame hr]; exact hs⟩

theorem withOperand_attached {s : State} (hs : s.attached) (m : Operand) (f : Byte → State → State) :
    ∃ t, outcome (withOperand m f) s = .next t := by
  obtain ⟨v, u, hr, -⟩ := reads_attached hs m
  exact ⟨_, outcome_withOperand.mpr ⟨v, u, hr, rfl⟩⟩

theorem storeOperand_attached {s : State} (hs : s.attached) (m : Operand) (r : State → Byte) :
    ∃ t, outcome (storeOperand m r) s = .next t := by
  have hp : (past s (length m)).attached := hs
  obtain ⟨t, h⟩ := writeOperand_attached hp (s.eaOf m) (r (past s (length m)))
  exact ⟨t, outcome_storeOperand.mpr h⟩

theorem readModifyWrite_attached {s : State} (hs : s.attached) (m : Operand) (result : Byte → Byte → Byte)
    {before : Byte → State → State} (hb : ∀ v u, (before v u).cart = u.cart) :
    ∃ t, outcome (readModifyWrite m result before) s = .next t := by
  obtain ⟨v, u, hr, hu⟩ := reads_attached hs m
  have hbu : (before v u).attached := by rw [State.attached, hb]; exact hu
  obtain ⟨w, hw⟩ := writeOperand_attached hbu (s.eaOf m) (result u.p v)
  exact ⟨_, outcome_readModifyWrite.mpr ⟨v, u, w, hr, hw, rfl⟩⟩

theorem implied_completes {i : Instr} {f : State → State} (hi : meaning i = implied f) (s : State) :
    ∃ t, exec i s = .next t := by
  rw [exec_eq_outcome, hi]
  exact ⟨_, outcome_implied f s⟩

/-- An illegal opcode completes under `skip` and under `nop` (spec/60_exceptions.md R302, log entry 3). -/
theorem exec_illegal_completes {s : State} (h : s.params.illegalOpcodePolicy ≠ .halt) (op : Byte) :
    ∃ t, exec (.illegal op) s = .next t := by
  rw [exec_illegal]
  cases hp : s.params.illegalOpcodePolicy with
  | halt => exact absurd hp h
  | skip | nop => exact ⟨_, rfl⟩

/-- Settles O11: every access an instruction makes answers, and nothing else can stop it but the `halt` policy. -/
theorem attachedInstructionsComplete : Obligations.AttachedInstructionsComplete := by
  intro i s hs hi
  cases i with
  | ora m | and m | eor m | bit m | adc m | sbc m | cmp m | cpx m | cpy m | lda m | ldx m | ldy m =>
    exact withOperand_attached hs m _
  | sta m | stx m | sty m => exact storeOperand_attached hs m _
  | asl m | lsr m | rol m | ror m | inc m | dec m => exact readModifyWrite_attached hs m _ fun _ _ => rfl
  | inx | iny | dex | dey | tax | tay | txa | tya | tsx | txs | clc | sec | cli | sei | clv | cld | sed =>
    exact implied_completes rfl s
  | nop => exact ⟨_, exec_nop s⟩
  | bpl d | bmi d | bvc d | bvs d | bcc d | bcs d | bne d | beq d => exact ⟨_, outcome_branch _ _ d s⟩
  | pha => exact ⟨_, exec_pha s⟩
  | php => exact ⟨_, exec_php s⟩
  | pla => exact ⟨_, exec_pla s⟩
  | plp => exact ⟨_, exec_plp s⟩
  | jmp target =>
    cases target with
    | abs a => exact ⟨_, exec_jmp_abs a s⟩
    | ind p =>
      obtain ⟨a, u, hr⟩ := read16_attached hs p (indirectHigh s.params.jmpIndirectPageWrap p)
      exact ⟨_, exec_jmp_ind.mpr ⟨a, u, hr, rfl⟩⟩
  | jsr a => exact ⟨_, exec_jsr a s⟩
  | rts => exact ⟨_, exec_rts s⟩
  | rti => exact ⟨_, exec_rti s⟩
  | brk =>
    obtain ⟨c, hc⟩ := Option.isSome_iff_exists.mp hs
    exact ⟨_, exec_brk hc⟩
  | illegal op => exact exec_illegal_completes (hi ⟨op, rfl⟩) op

/-- A fetched instruction that completes ends its tick, and the cartridge stays attached (spec/30_encoding.md R150). -/
theorem step_next_of_fetch {s u w : State} {i : Instr} (hs : s.attached) (hr : Running s) (hf : fetch s = .ok i u)
    (he : exec i u = .next w) : ∃ t, step s = .next t ∧ t.attached := by
  have hstep : step s = .next (w.setCyc (w.cyc + tickCost i u)) := by rw [step_of_fetch hr hf, he]; rfl
  exact ⟨_, hstep, by rw [State.attached, (stepKeepsCartridge _ _ hstep).1]; exact hs⟩

/-- Settles O9: the fetch answers, and so does the instruction, but an illegal byte under `halt`. -/
theorem attachedStepCompletes : Obligations.AttachedStepCompletes := by
  intro s hs hr
  obtain ⟨i, u, hf⟩ := fetch_attached hs
  have hu : u.attached ∧ u.pc = s.pc ∧ u.params = s.params := by rw [fetch_frame hf]; exact ⟨hs, rfl, rfl⟩
  obtain ⟨hua, hpc, hparams⟩ := hu
  by_cases hh : (∃ op, i = .illegal op) ∧ s.params.illegalOpcodePolicy = .halt
  · obtain ⟨⟨op', rfl⟩, hhalt⟩ := hh
    obtain ⟨op, w, hm, ⟨hill, hi, -⟩ | ⟨hlegal, b, -, hi⟩⟩ := fetch_cases hf
    · cases hi
      refine .inr ⟨hhalt, op', w, hm, (isIllegal_iff op').mp hill, ?_⟩
      rw [step_of_fetch hr hf, exec_illegal, hparams, hhalt, hpc]
      rfl
    · exact absurd hi.symm (instrOf_ne_illegal hlegal _ _ _)
  · obtain ⟨w, he⟩ := attachedInstructionsComplete i u hua fun hi hp => hh ⟨hi, hparams ▸ hp⟩
    exact .inl (step_next_of_fetch hs hr hf he)

/-! The memory an instruction can change (spec/20_memory.md R62, R69). -/

/-- An operand read is one bus read at the operand's address, or none. -/
theorem reads_cases {s u : State} {m : Operand} {v : Byte} (h : Reads s m v u) :
    (∃ a, address s m = some a ∧ memRead (wordOf a) (past s (length m)) = .ok v u) ∨
      (address s m = none ∧ u = past s (length m)) := by
  cases ha : address s m with
  | some a =>
    simp only [Reads, ha] at h
    exact .inl ⟨a, rfl, h⟩
  | none =>
    refine .inr ⟨rfl, ?_⟩
    cases m with
    | acc | imm b => exact h.2
    | _ => cases ha

/-- An operand write is one bus write at the operand's address, or one of `A`. -/
theorem writeOperand_cases {s u t : State} {m : Operand} {v : Byte} (hm : ∀ b, m ≠ .imm b)
    (h : writeOperand (s.eaOf m) v u = .ok () t) :
    (∃ a, address s m = some a ∧ memWrite (wordOf a) v u = .ok () t) ∨ (address s m = none ∧ t = u.setA v) := by
  have hw := (writes_iff hm v u t).mpr h
  cases ha : address s m with
  | some a =>
    simp only [Writes, ha] at hw
    exact .inl ⟨a, rfl, hw⟩
  | none =>
    simp only [Writes, ha] at hw
    exact .inr ⟨rfl, hw⟩

/-- The word of an operand's address is that address. -/
theorem wordOf_address_mem {s : State} {m : Operand} {a : Nat} (h : address s m = some a) : (wordOf a).toNat ∈ (address s m).toList := by
  rw [wordOf_toNat, Nat.mod_eq_of_lt (eaOf_address h).1, h]
  exact List.mem_singleton_self a

/-- What stands between a state and a later one if the accesses in between store to the CPU addresses `st` and read data at `rd`
at most: RAM differs in the bytes stored to, in canonical form, the PPU only if one of the addresses is in its window, and its
memories only if one stored to is. Registers are free. -/
structure Touches (st rd : List Nat) (s t : State) : Prop where
  ramWf : s.ram.wf → t.ram.wf
  ram : s.ram.wf → ∀ b < 0x2000, (∀ a ∈ st, ¬ SameRamByte a b) → t.ram.read (b % 2048) = s.ram.read (b % 2048)
  ppu : (∀ a ∈ st, ¬ InWindow a) → (∀ a ∈ rd, ¬ InWindow a) → t.ppu = s.ppu ∧ t.draws = s.draws
  memories : (∀ a ∈ st, ¬ InWindow a) →
    t.ppu.nt = s.ppu.nt ∧ t.ppu.pt = s.ppu.pt ∧ t.ppu.pal = s.ppu.pal ∧ t.ppu.oam = s.ppu.oam

namespace Touches

variable {st rd : List Nat} {s t u : State} {m : Operand}

/-- A change of registers. -/
theorem of_registers (hr : t.ram = s.ram) (hp : t.ppu = s.ppu) (hd : t.draws = s.draws) : Touches st rd s t where
  ramWf := hr ▸ id
  ram _ _ _ _ := by rw [hr]
  ppu _ _ := ⟨hp, hd⟩
  memories _ := by rw [hp]; exact ⟨rfl, rfl, rfl, rfl⟩

theorem of_setPc (v : Word) : Touches st rd s (s.setPc v) := of_registers rfl rfl rfl

theorem of_past (n : Nat) : Touches st rd s (past s n) := of_setPc _

theorem trans (h : Touches st rd s u) (k : Touches st rd u t) : Touches st rd s t where
  ramWf hw := k.ramWf (h.ramWf hw)
  ram hw b hb hs := (k.ram (h.ramWf hw) b hb hs).trans (h.ram hw b hb hs)
  ppu hs hr := by
    obtain ⟨h1, h2⟩ := h.ppu hs hr
    obtain ⟨k1, k2⟩ := k.ppu hs hr
    exact ⟨k1.trans h1, k2.trans h2⟩
  memories hs := by
    obtain ⟨h1, h2, h3, h4⟩ := h.memories hs
    obtain ⟨k1, k2, k3, k4⟩ := k.memories hs
    exact ⟨k1.trans h1, k2.trans h2, k3.trans h3, k4.trans h4⟩

/-- A byte stored in RAM, and a change of registers. -/
theorem of_ramWrite {a : Nat} {v : Byte} (ha : a < 0x2000) (hmem : a ∈ st) (hr : t.ram = s.ram.write (a % 2048) v)
    (hp : t.ppu = s.ppu) (hd : t.draws = s.draws) : Touches st rd s t where
  ramWf hw := hr ▸ Memory.write_wf hw _ _
  ram hw b hb hs := by
    have hne : b % 2048 ≠ a % 2048 := fun h => hs a hmem ⟨ha, hb, h.symm⟩
    rw [hr, Memory.read_write _ _ _ _ hw, if_neg hne]
  ppu _ _ := ⟨hp, hd⟩
  memories _ := by rw [hp]; exact ⟨rfl, rfl, rfl, rfl⟩

/-- A byte pushed at the stack slot (spec/46_stack_jumps_subroutines.md R280). -/
theorem pushed (h : slot s.sp ∈ st) (v : Byte) : Touches st rd s (s.pushed v) := by
  have hlt := s.sp.isLt
  have hslot : slot s.sp < 0x2000 := by simp only [slot]; omega
  refine of_ramWrite hslot h (v := v) ?_ rfl rfl
  rw [Nat.mod_eq_of_lt (show slot s.sp < 2048 by simp only [slot]; omega)]
  rfl

/-- The three pushes of a trap entry. -/
theorem trapFrame (h : ∀ a ∈ [slot s.sp, slot (s.sp - 1), slot (s.sp - 2)], a ∈ st) (ret : Word) (b : Bool) :
    Touches st rd s (s.trapFrame ret b) := by
  rw [← show s.sp - 1 - 1 = s.sp - 2 from BitVec.sub_sub _ _ _] at h
  simp only [List.forall_mem_cons] at h
  obtain ⟨h0, h1, h2, -⟩ := h
  exact (pushed h0 _).trans ((pushed h1 _).trans ((pushed h2 _).trans (of_registers rfl rfl rfl)))

/-- A read outside the PPU window changes nothing; one in it leaves the PPU's memories. -/
theorem of_memRead {a : Word} {v : Byte} (hmem : a.toNat ∈ rd) (h : memRead a s = .ok v t) : Touches st rd s t := by
  by_cases hin : InWindow a.toNat
  · have hram : t.ram = s.ram := by rw [memRead_frame h]; rfl
    rw [memRead_window hin] at h
    obtain ⟨hn, hp, hl, ho, -⟩ := ppuReadRegister_memories h
    exact {
      ramWf := hram ▸ id
      ram := fun _ _ _ _ => by rw [hram]
      ppu := fun _ hr => absurd hin (hr _ hmem)
      memories := fun _ => ⟨hn, hp, hl, ho⟩ }
  · rw [memRead_quiet (region_ne_ppu hin) h]
    exact of_registers rfl rfl rfl

/-- A write changes one byte of RAM, or the PPU in its window, or nothing. -/
theorem of_memWrite {a : Word} {v : Byte} (hmem : a.toNat ∈ st) (h : memWrite a v s = .ok () t) : Touches st rd s t := by
  cases hreg : region a with
  | ram =>
    have hlt := (region_ram_iff a).mp hreg
    cases (memWrite_lt hlt v s).symm.trans h
    exact of_ramWrite hlt hmem rfl rfl rfl
  | ppu =>
    have hin := (region_ppu_iff a).mp hreg
    rw [memWrite_window hin] at h
    have hram : t.ram = s.ram := by rw [ppuWriteRegister_frame h]; rfl
    exact {
      ramWf := hram ▸ id
      ram := fun _ _ _ _ => by rw [hram]
      ppu := fun hs _ => absurd hin (hs _ hmem)
      memories := fun hs => absurd hin (hs _ hmem) }
  | hole => rw [memWrite_discarded (.inl hreg) h]; exact of_registers rfl rfl rfl
  | cart => rw [memWrite_discarded (.inr hreg) h]; exact of_registers rfl rfl rfl

theorem of_read16 {lo hi v : Word} (hl : lo.toNat ∈ rd) (hh : hi.toNat ∈ rd) (h : read16 lo hi s = .ok v t) :
    Touches st rd s t := by
  obtain ⟨l, u, h1, h⟩ := bind_eq_ok.mp h
  obtain ⟨k, w, h2, h⟩ := bind_eq_ok.mp h
  cases h
  exact (of_memRead hl h1).trans (of_memRead hh h2)

theorem of_reads {v : Byte} (h : Reads s m v u) : Touches st (address s m).toList s u := by
  obtain ⟨a, ha, hr⟩ | ⟨-, rfl⟩ := reads_cases h
  · exact (of_past _).trans (of_memRead (wordOf_address_mem ha) hr)
  · exact of_past _

theorem of_writeOperand {v : Byte} (hm : ∀ b, m ≠ .imm b) (h : writeOperand (s.eaOf m) v u = .ok () t) :
    Touches (address s m).toList rd u t := by
  obtain ⟨a, ha, hw⟩ | ⟨-, rfl⟩ := writeOperand_cases hm h
  · exact of_memWrite (wordOf_address_mem ha) hw
  · exact of_registers rfl rfl rfl

/-! One rule per shape of an instruction. -/

theorem of_withOperand {f : Byte → State → State} (h : outcome (withOperand m f) s = .next t)
    (hf : ∀ v u, Touches st (address s m).toList u (f v u)) : Touches st (address s m).toList s t := by
  obtain ⟨v, u, hr, rfl⟩ := outcome_withOperand.mp h
  exact (of_reads hr).trans (hf v u)

theorem of_storeOperand {r : State → Byte} (hm : ∀ b, m ≠ .imm b) (h : outcome (storeOperand m r) s = .next t) :
    Touches (address s m).toList rd s t :=
  (of_past _).trans (of_writeOperand hm (outcome_storeOperand.mp h))

theorem of_readModifyWrite {result : Byte → Byte → Byte} {before : Byte → State → State} (hm : ∀ b, m ≠ .imm b)
    (h : outcome (readModifyWrite m result before) s = .next t)
    (hb : ∀ v u, Touches (address s m).toList (address s m).toList u (before v u)) :
    Touches (address s m).toList (address s m).toList s t := by
  obtain ⟨v, u, w, hr, hw, rfl⟩ := outcome_readModifyWrite.mp h
  exact (of_reads hr).trans ((hb v u).trans ((of_writeOperand hm hw).trans (of_registers rfl rfl rfl)))

theorem of_implied {i : Instr} {f : State → State} (hi : meaning i = implied f) (h : exec i s = .next t)
    (hf : Touches st rd (past s 1) (f (past s 1))) : Touches st rd s t := by
  rw [exec_eq_outcome, hi, outcome_implied] at h
  cases h
  exact (of_past 1).trans hf

theorem of_branch {b : Nat} {want : Bool} {d : Byte} (h : outcome (branch b want d) s = .next t) : Touches st rd s t := by
  cases (outcome_branch b want d s).symm.trans h
  exact of_registers rfl rfl rfl

theorem of_illegal {op : Byte} (h : exec (.illegal op) s = .next t) : Touches st rd s t := by
  rw [exec_illegal] at h
  split at h <;> cases h <;> exact of_registers rfl rfl rfl

end Touches

/-- An instruction touches the memory that `storedTo` and `readFrom` name, and no other. -/
theorem exec_touches {i : Instr} {s t : State} (hw : WellFormed i = true) (h : exec i s = .next t) :
    Touches (storedTo s i) (readFrom s i) s t := by
  cases i with
  | ora m | and m | eor m | bit m | adc m | sbc m | cmp m | cpx m | cpy m | lda m | ldx m | ldy m =>
    exact .of_withOperand h fun _ _ => .of_registers rfl rfl rfl
  | sta m | stx m | sty m => exact .of_storeOperand (fun b hm => by subst hm; cases hw) h
  | asl m | lsr m | rol m | ror m | inc m | dec m =>
    exact .of_readModifyWrite (fun b hm => by subst hm; cases hw) h fun _ _ => .of_registers rfl rfl rfl
  | inx | iny | dex | dey | tax | tay | txa | tya | tsx | txs | clc | sec | cli | sei | clv | cld | sed =>
    exact .of_implied rfl h (.of_registers rfl rfl rfl)
  | nop => cases (exec_nop s).symm.trans h; exact .of_registers rfl rfl rfl
  | bpl d | bmi d | bvc d | bvs d | bcc d | bcs d | bne d | beq d => exact .of_branch h
  | pha =>
    cases (exec_pha s).symm.trans h
    refine (Touches.of_past 1).trans (.pushed ?_ _)
    exact List.mem_singleton_self _
  | php =>
    cases (exec_php s).symm.trans h
    refine (Touches.of_past 1).trans (.pushed ?_ _)
    exact List.mem_singleton_self _
  | pla => cases (exec_pla s).symm.trans h; exact .of_registers rfl rfl rfl
  | plp => cases (exec_plp s).symm.trans h; exact .of_registers rfl rfl rfl
  | jmp target =>
    cases target with
    | abs a => cases (exec_jmp_abs a s).symm.trans h; exact .of_registers rfl rfl rfl
    | ind p =>
      obtain ⟨a, u, hr, rfl⟩ := exec_jmp_ind.mp h
      exact .trans (.of_read16 (by simp [readFrom]) (by simp [readFrom]) hr) (.of_registers rfl rfl rfl)
  | jsr a =>
    cases (exec_jsr a s).symm.trans h
    refine (Touches.of_setPc a).trans (.trans (.pushed ?_ _) (.pushed ?_ _))
    · exact List.mem_cons_self
    · exact List.mem_cons_of_mem _ List.mem_cons_self
  | rts => cases (exec_rts s).symm.trans h; exact .of_registers rfl rfl rfl
  | rti => cases (exec_rti s).symm.trans h; exact .of_registers rfl rfl rfl
  | brk =>
    obtain ⟨c, -, rfl⟩ := exec_brk_next h
    refine (Touches.of_past 1).trans (.trans (.trapFrame ?_ _ _) (.of_setPc _))
    exact fun _ => id
  | illegal op => exact .of_illegal h

/-- Outside the PPU window and the bytes stored to, an address reads as before. -/
theorem Touches.memRead_eq {st rd : List Nat} {s t : State} (h : Touches st rd s t) (hw : s.ram.wf) (hc : t.cart = s.cart)
    {b : Word} {v : Byte} (hb : ¬ InWindow b.toNat) (hst : ∀ a ∈ st, ¬ SameRamByte a b.toNat)
    (hr : memRead b s = .ok v s) : memRead b t = .ok v t := by
  cases hreg : region b with
  | ppu => exact absurd hreg (region_ne_ppu hb)
  | ram =>
    have hlt := (region_ram_iff b).mp hreg
    rw [memRead_lt hlt] at hr ⊢
    rw [h.ram hw _ hlt hst]
    cases hr
    rfl
  | hole => cases (memRead_hole hreg s).symm.trans hr; exact memRead_hole hreg t
  | cart =>
    cases hk : s.cart with
    | none => cases (cartRead_unattached hreg hk).symm.trans hr
    | some c =>
      cases (memRead_cart hreg hk).symm.trans hr
      exact memRead_cart hreg (hc.trans hk)

/-- Settles O20: the instruction touches no other memory, and the cartridge stays. -/
theorem memoryFrame : Obligations.MemoryFrame := by
  intro i s t hw hs h
  obtain ⟨-, ⟨⟨hram, -⟩, -, -⟩, -⟩ := hs
  have ht := exec_touches hw h
  exact ⟨fun b v hb hst => ht.memRead_eq hram (exec_frame h).cart hb hst, ht.ppu, ht.memories⟩

end Sys2Proof.Machine
end

/-! SUPPORT. The cartridge claims: the mapper on the CPU side, the fields of an image in numbers, and the checks of a load. -/
section

namespace Sys2Proof.Machine

open Sys2Proof.Claims

/-! Mapper 0 on the CPU side (spec/21_cartridge_mapper.md R92, R93). -/

theorem mapper0Prg_one (a : Word) : (mapper0Prg 1 a).toNat = a.toNat % 0x4000 :=
  (BitVec.toNat_and a 0x3FFF).trans (Nat.and_two_pow_sub_one_eq_mod _ 14)

theorem mapper0Prg_two (a : Word) : (mapper0Prg 2 a).toNat = a.toNat % 0x8000 :=
  (BitVec.toNat_and a 0x7FFF).trans (Nat.and_two_pow_sub_one_eq_mod _ 15)

/-- Settles O24: a read of cartridge space answers the byte the mapper's mask selects. -/
theorem prgMirroring : Obligations.PrgMirroring := by
  refine fun s c a hc ha => ⟨fun hb => ?_, fun hb => ?_⟩
  · rw [memRead_cart (region_cart_of_le ha) hc, Cart.read, hb, mapper0Prg_one]
  · rw [memRead_cart (region_cart_of_le ha) hc, Cart.read, hb, mapper0Prg_two]

/-! The fields of an image in numbers (R81, R85, R86). -/

theorem getLsbD_iff (v : Byte) (k : Nat) : v.getLsbD k = true ↔ v.toNat / 2 ^ k % 2 = 1 := by
  rw [BitVec.getLsbD, Nat.testBit_eq_decide_div_mod_eq, decide_eq_true_iff]

theorem toNat_and_highNibble (v : Byte) : (v &&& 0xF0).toNat = v.toNat / 16 * 16 := by
  have hlow : (v.toNat &&& 0xF0) % 2 ^ 4 = v.toNat % 2 ^ 4 &&& 0 := Nat.and_mod_two_pow
  have hhigh : (v.toNat &&& 0xF0) / 2 ^ 4 = v.toNat / 2 ^ 4 &&& 2 ^ 4 - 1 := Nat.and_div_two_pow
  rw [Nat.and_zero] at hlow
  rw [Nat.and_two_pow_sub_one_eq_mod] at hhigh
  have hv := v.isLt
  have hand : (v &&& 0xF0).toNat = v.toNat &&& 0xF0 := BitVec.toNat_and v 0xF0
  omega

/-- The high four bits of one byte, and below them those of another. -/
theorem toNat_highNibbles (hi lo : Byte) :
    ((hi &&& (0xF0 : Byte)) ||| (lo >>> 4)).toNat = hi.toNat / 16 * 16 + lo.toNat / 16 := by
  have hlo : lo.toNat / 16 < 2 ^ 4 := by omega
  have hor := Nat.shiftLeft_add_eq_or_of_lt hlo (hi.toNat / 16)
  rw [Nat.shiftLeft_eq] at hor
  rw [BitVec.toNat_or, toNat_and_highNibble, BitVec.toNat_ushiftRight, Nat.shiftRight_eq_div_pow]
  exact hor.symm

theorem headerMapperId_toNat (image : List Byte) : (headerMapperId image).toNat =
    (imageByte image 7).toNat / 16 * 16 + (imageByte image 6).toNat / 16 :=
  toNat_highNibbles _ _

theorem headerMapperId_eq_zero_iff (image : List Byte) : headerMapperId image = 0 ↔
    (imageByte image 7).toNat / 16 * 16 + (imageByte image 6).toNat / 16 = 0 := by
  rw [← headerMapperId_toNat, ← BitVec.toNat_inj]; rfl

theorem headerSize_le_declaredSize (image : List Byte) : headerSize ≤ declaredSize image := by
  rw [declaredSize, prgStart]; omega

theorem headerMirroring_eq_vertical_iff (image : List Byte) :
    headerMirroring image = .vertical ↔ (imageByte image 6).getLsbD 0 = true := by
  rw [headerMirroring]
  split
  · exact iff_of_true rfl ‹_›
  · exact iff_of_false nofun ‹_›

/-! The checks of a load, in their order (R88), and what it makes of their answer (R89, R96). -/

theorem selectMapper_zero : selectMapper 0 = some .mapper0 := rfl

theorem selectMapper_ne_zero {id : Byte} (h : id ≠ 0) : selectMapper id = none := if_neg h

theorem parseImage_badMagic {image : List Byte} (h : image.take 4 ≠ magic) : parseImage image = .error .invalidHeader :=
  if_pos h

theorem parseImage_truncated {image : List Byte} (hm : image.take 4 = magic)
    (hl : image.length < headerSize ∨ image.length < declaredSize image) : parseImage image = .error .truncatedRom := by
  rw [parseImage, if_neg (not_not_intro hm), if_pos hl]

section
variable {image : List Byte} (hm : image.take 4 = magic) (hl : declaredSize image ≤ image.length)
include hm hl

theorem parseImage_otherMapper (hid : headerMapperId image ≠ 0) :
    parseImage image = .error (.unsupportedMapper (headerMapperId image)) := by
  have := headerSize_le_declaredSize image
  rw [parseImage, if_neg (not_not_intro hm), if_neg (by omega), selectMapper_ne_zero hid]

theorem parseImage_mapper0 (hid : headerMapperId image = 0) : parseImage image =
    if imageByte image 4 = 1 ∨ imageByte image 4 = 2 then .ok (cartOf image) else .error .invalidHeader := by
  have := headerSize_le_declaredSize image
  rw [parseImage, if_neg (not_not_intro hm), if_neg (by omega), hid, selectMapper_zero]

end

theorem attach_of_error {image : List Byte} {e : LoadError} (h : parseImage image = .error e) (s : State) :
    attach image s = .error e := by
  rw [attach, h]

theorem attach_of_ok {image : List Byte} {c : Cart} (h : parseImage image = .ok c) (s : State) :
    attach image s = .ok (s.withCart c) := by
  rw [attach, h]

/-- Settles O55: each check decides the load when those before it pass. -/
theorem loadErrors : Obligations.LoadErrors := by
  intro image s h declared mapper
  have hmapper : (headerMapperId image).toNat = mapper := headerMapperId_toNat image
  refine ⟨fun hm => ?_, fun hm hl => ?_, fun hm _ hl hid => ?_, fun hm _ hl hid h1 h2 => ?_⟩
  · exact attach_of_error (parseImage_badMagic hm) s
  · exact attach_of_error (parseImage_truncated hm hl) s
  · have hbyte : headerMapperId image = byteOf mapper := by rw [← hmapper, byteOf, BitVec.ofNat_toNat, BitVec.setWidth_eq]
    rw [← hbyte]
    exact attach_of_error (parseImage_otherMapper hm hl (mt (headerMapperId_eq_zero_iff image).mp hid)) s
  · have hbanks : ¬ (imageByte image 4 = 1 ∨ imageByte image 4 = 2) := by
      rintro (hb | hb)
      · exact h1 (congrArg BitVec.toNat hb)
      · exact h2 (congrArg BitVec.toNat hb)
    have hparse := parseImage_mapper0 hm hl ((headerMapperId_eq_zero_iff image).mpr hid)
    exact attach_of_error (hparse.trans (if_neg hbanks)) s

/-! What a load attaches (R80, R84, R96). -/

/-- The memory of `n` bytes of an image from byte `start` on. -/
theorem read_ofBytes_slice (image : List Byte) (start : Nat) {n k : Nat} (h : k < n) :
    (Memory.ofBytes 0 ((image.drop start).take n)).read k = imageByte image (start + k) := by
  have hread := Memory.read_ofBytes 0 k ((image.drop start).take n)
  rw [Nat.zero_add] at hread
  rw [hread, imageByte, List.getD_eq_getElem?_getD, List.getD_eq_getElem?_getD, List.getElem?_take_of_lt h, List.getElem?_drop]
  rfl

theorem patternTables_read (c : Cart) {k : Nat} (h : k < chrBankSize) :
    (patternTables c).read k = if c.chrBanks.toNat = 0 then 0 else c.chr.read k := by
  have hz : c.chrBanks = 0 ↔ c.chrBanks.toNat = 0 := BitVec.toNat_inj.symm
  rw [patternTables]
  by_cases h0 : c.chrBanks.toNat = 0
  · rw [if_pos (hz.mpr h0), if_pos h0]; rfl
  · rw [if_neg (mt hz.mp h0), if_neg h0, Memory.read_below c.chr h]

/-- Settles O56: the load attaches the cartridge `cartOf` reads from the image. -/
theorem loadAttaches : Obligations.LoadAttaches := by
  intro image s h start hm hl h7 h6 hbanks
  have hid : headerMapperId image = 0 :=
    (headerMapperId_eq_zero_iff image).mpr (show h 7 / 16 * 16 + h 6 / 16 = 0 by omega)
  have hb : imageByte image 4 = 1 ∨ imageByte image 4 = 2 := hbanks.imp BitVec.eq_of_toNat_eq BitVec.eq_of_toNat_eq
  have hparse := (parseImage_mapper0 hm hl hid).trans (if_pos hb)
  refine ⟨s.withCart (cartOf image), cartOf image, attach_of_ok hparse s, rfl, rfl, rfl, hid, ?_, ?_, ?_, ?_, ?_, ?_⟩
  · rw [← Nat.div_one (h 6)]
    exact (headerMirroring_eq_vertical_iff image).trans (getLsbD_iff _ 0)
  · exact getLsbD_iff _ 1
  · exact getLsbD_iff _ 2
  · exact fun k hk => read_ofBytes_slice image _ hk
  · exact fun k hk => read_ofBytes_slice image _ hk
  · exact fun k hk => patternTables_read (cartOf image) hk

end Sys2Proof.Machine
end

/-! SUPPORT. The PPU window claims: what an access to each register slot answers and leaves, and the cell a VRAM address
selects, in numbers. -/
section

namespace Sys2Proof.Machine

open Sys2Proof.Claims

/-! Which slot an address selects (spec/20_memory.md R55). -/

/-- Addresses with the same low three bits select the same slot. -/
theorem slotOf_congr {a b : Word} (h : a.toNat % 8 = b.toNat % 8) : slotOf a = slotOf b := by
  rw [slotOf_eq, slotOf_eq b, h]

/-! A write of one slot (spec/22_ppu_interface.md R113). -/

/-- The PPU after the byte `v` was written to a register slot; slot 7 has its VRAM transfer besides (`Ppu.stored`). -/
def Ppu.written (u : Ppu) (v : Byte) : Slot → Ppu
  | .control => { u with ioLatch := v, ctrl := v }
  | .mask => { u with ioLatch := v, mask := v }
  | .status => { u with ioLatch := v, w := false }
  | .oamAddress => { u with ioLatch := v, oamAddr := v }
  | .oamData => { u with ioLatch := v, oam := u.oam.write u.oamAddr.toNat v, oamAddr := u.oamAddr + 1 }
  | .scroll | .vramData => { u with ioLatch := v }
  | .vramAddress => { u with ioLatch := v }.writeAddress v

/-- A write of a slot other than slot 7 completes in every state, and changes the PPU alone. -/
theorem memWrite_slot {a : Word} {k : Slot} (ha : InWindow a.toNat) (hk : slotOf a = k) (h7 : k ≠ .vramData) (v : Byte)
    (s : State) : memWrite a v s = .ok () (s.setPpu (s.ppu.written v k)) := by
  rw [memWrite_window ha, ppuWriteRegister, hk]
  cases k with
  | vramData => exact absurd rfl h7
  | control | mask | status | oamAddress | oamData | scroll | vramAddress => rfl

/-! The two writes of slot 6 (R121, R122). -/

theorem Ppu.writeAddress_first {u : Ppu} (h : u.w = false) (v : Byte) :
    u.writeAddress v = { u with t := wordOf (256 * (v.toNat % 64) + u.t.toNat % 256), w := true } := by
  rw [Ppu.writeAddress, if_neg (Bool.eq_false_iff.mp h), firstWrite_eq]

theorem Ppu.writeAddress_second {u : Ppu} (h : u.w = true) (v : Byte) :
    u.writeAddress v = { u with
      t := wordOf (256 * (u.t.toNat / 256) + v.toNat), v := wordOf (256 * (u.t.toNat / 256) + v.toNat), w := false } := by
  rw [Ppu.writeAddress, if_pos h, secondWrite_eq]

/-- Settles O25: the two-write latch decides which half of `t` the byte goes to. -/
theorem vramAddressWrites : Obligations.VramAddressWrites := by
  intro s a v ha h
  have hwrite := memWrite_slot ha (k := .vramAddress) (slotOf_congr (b := 6) h) nofun v s
  refine ⟨fun hw => hwrite.trans ?_, fun hw => hwrite.trans ?_⟩
  · rw [Ppu.written, Ppu.writeAddress_first (u := { s.ppu with ioLatch := v }) hw]
  · rw [Ppu.written, Ppu.writeAddress_second (u := { s.ppu with ioLatch := v }) hw]

/-! A read of slot 2 (R117, R123). -/

theorem memRead_status {a : Word} (ha : InWindow a.toNat) (hk : slotOf a = .status) {s t : State} {r : Byte}
    (h : statusByte s = .ok r t) : memRead a s = .ok r (t.setPpu { t.ppu with w := false, ioLatch := r }) := by
  rw [memRead_window ha, ppuReadRegister, hk]
  exact bind_ok h

theorem statusByte_held {s : State} (h : s.params.ppuStatusSource = .held) : statusByte s = .ok s.ppu.status s := by
  rw [statusByte, h]

theorem statusByte_perRead {s : State} (h : s.params.ppuStatusSource = .perRead) :
    statusByte s = .ok (Config.freeStatus s.draws ++ s.ppu.status.setWidth 5) (s.setDraws (s.draws + 1)) := by
  rw [statusByte, h]

/-- Three bits above the low five of a byte. -/
theorem getLsbD_append_setWidth (d : BitVec 3) (b : Byte) (k : Nat) :
    (d ++ b.setWidth 5 : Byte).getLsbD k = if k < 5 then b.getLsbD k else d.getLsbD (k - 5) := by
  rw [BitVec.getLsbD_append, BitVec.getLsbD_setWidth]
  by_cases hk : k < 5 <;> simp [hk]

/-- Settles O26: the access clears the latch of the two writes, and the source decides the byte a read answers. -/
theorem statusAccess : Obligations.StatusAccess := by
  intro s a v ha h
  have hk : slotOf a = .status := slotOf_congr (b := 2) h
  exact ⟨memWrite_slot ha hk nofun v s, fun hp => memRead_status ha hk (statusByte_held hp), fun hp =>
    ⟨_, getLsbD_append_setWidth _ s.ppu.status, memRead_status ha hk (statusByte_perRead hp)⟩⟩

/-! The VRAM transfer of slot 7 (R124, R125). -/

/-- With no cell at `v` a read of slot 7 is a contract violation (R137). -/
theorem memRead_vramData_none {a : Word} (ha : InWindow a.toNat) (h7 : a.toNat % 8 = 7) {s : State}
    (hc : vramCell s s.ppu.v = none) : memRead a s = .error (.busContractViolation a) s := by
  have hr : readVram a s.ppu.v s = .error (.busContractViolation a) s := by rw [readVram, hc]
  rw [memRead_window ha]
  simp only [ppuReadRegister, slotOf_vramData h7, get_bind]
  exact bind_error hr

/-- With no cell at `v` a write of slot 7 is a contract violation, after the I/O latch took the byte (R113, R137). -/
theorem memWrite_vramData_none {a : Word} (ha : InWindow a.toNat) (h7 : a.toNat % 8 = 7) (v : Byte) {s : State}
    (hc : vramCell s s.ppu.v = none) :
    memWrite a v s = .error (.busContractViolation a) (s.setPpu { s.ppu with ioLatch := v }) := by
  have hc' : vramCell (s.setPpu { s.ppu with ioLatch := v }) s.ppu.v = none := hc
  have hw : writeVram a s.ppu.v v (s.setPpu { s.ppu with ioLatch := v }) =
      .error (.busContractViolation a) (s.setPpu { s.ppu with ioLatch := v }) := by
    rw [writeVram, hc']
  rw [memWrite_window ha]
  simp only [ppuWriteRegister, modifyPpu, slotOf_vramData h7, modify_bind, get_bind]
  exact bind_error hw

/-- A transfer moves `v`, refreshes the I/O latch and writes no other register. -/
theorem Ppu.stored_frame (u : Ppu) (c : VramCell) (b : Byte) : u.stored c b = { u with
    v := wordOf (u.v.toNat + (if u.ctrl.getLsbD 2 then 32 else 1)), ioLatch := b
    nt := (u.stored c b).nt, pt := (u.stored c b).pt, pal := (u.stored c b).pal } := by
  rw [← Ppu.step_eq]
  cases c <;> rfl

/-- Settles O27: the transfer at the cell, or the contract violation where there is none. -/
theorem vramDataPort : Obligations.VramDataPort := by
  intro s a v ha h7 next
  refine ⟨fun c hc => ⟨?_, _, memWrite_vramData ha h7 v hc, rfl, ?_⟩, fun hc =>
    ⟨memRead_vramData_none ha h7 hc, memWrite_vramData_none ha h7 v hc⟩⟩
  · rw [memRead_vramData ha h7 hc, Ppu.advance, Ppu.step_eq]
  · have hframe := s.ppu.stored_frame c v
    exact ⟨congrArg Ppu.v hframe, congrArg Ppu.ioLatch hframe, hframe, fun hm d => Ppu.readCell_stored hm c d v⟩

/-! The slots without a side effect, and the reads of write-only slots (R115, R116, R118, R120, R127). -/

theorem memRead_writeOnly {a : Word} (ha : InWindow a.toNat)
    (hk : slotOf a ∈ [.control, .mask, .oamAddress, .scroll, .vramAddress]) (s : State) :
    memRead a s = .ok s.ppu.ioLatch s := by
  rw [memRead_window ha, ppuReadRegister]
  cases hs : slotOf a with
  | control | mask | oamAddress | scroll | vramAddress => rfl
  | status | oamData | vramData => rw [hs] at hk; exact absurd hk (by decide)

/-- Settles O28: the write and the read of one slot. -/
theorem plainSlots : Obligations.PlainSlots := by
  refine fun s a v ha => ⟨fun h => ?_, fun h => ?_, fun h => ?_, fun h => ?_, fun h => ?_⟩
  · exact memWrite_slot ha (k := .control) (slotOf_congr (b := 0) h) nofun v s
  · exact memWrite_slot ha (k := .mask) (slotOf_congr (b := 1) h) nofun v s
  · exact memWrite_slot ha (k := .oamAddress) (slotOf_congr (b := 3) h) nofun v s
  · exact memWrite_slot ha (k := .scroll) (slotOf_congr (b := 5) h) nofun v s
  · refine memRead_writeOnly ha ?_ s
    have hk : slotOf a = slotOf (wordOf (a.toNat % 8)) := slotOf_congr (by rw [wordOf_toNat]; omega)
    have hslots : ∀ n ∈ [0, 1, 3, 5, 6],
        slotOf (wordOf n) ∈ [.control, .mask, .oamAddress, .scroll, .vramAddress] := by decide
    exact hk ▸ hslots _ h

/-! OAM data, slot 4 (R119). -/

theorem memRead_oamData {a : Word} (ha : InWindow a.toNat) (hk : slotOf a = .oamData) (s : State) :
    memRead a s = .ok (s.ppu.oam.read s.ppu.oamAddr.toNat)
      (s.setPpu { s.ppu with ioLatch := s.ppu.oam.read s.ppu.oamAddr.toNat }) := by
  rw [memRead_window ha, ppuReadRegister, hk]
  rfl

/-- Settles O29: the access of the OAM byte at `oamaddr`. -/
theorem oamData : Obligations.OamData := by
  intro s a v ha h
  have hk : slotOf a = .oamData := slotOf_congr (b := 4) h
  refine ⟨memRead_oamData ha hk s, _, memWrite_slot ha hk nofun v s, ?_, fun hm => stored_write (stored_nil _) hm _ _⟩
  rw [← byte_add_one]
  rfl

/-! Which cell a VRAM address selects (R130 to R134, R137). -/

/-- The reduction to 14 bits (R130). -/
theorem vramAddress_toNat (addr : Word) : (addr &&& 0x3FFF).toNat = addr.toNat % 0x4000 :=
  and_low_toNat addr 14 rfl (by decide)

/-- The four mirrors of the palette (R134). -/
theorem palIndex_eq (a : Word) : palIndex a =
    if a.toNat % 32 ∈ [0x10, 0x14, 0x18, 0x1C] then a.toNat % 32 - 0x10 else a.toNat % 32 := by
  have h : (a &&& 0x1F).toNat = a.toNat % 32 := and_low_toNat a 5 rfl (by decide)
  simp only [palIndex, h, List.mem_cons, List.not_mem_nil, or_false]

/-- One bit of a word is one binary digit of its number. -/
theorem bit_toNat (a : Word) (k : Nat) : ((a >>> k) &&& 1).toNat = a.toNat / 2 ^ k % 2 := by
  rw [← Nat.shiftRight_eq_div_pow, ← BitVec.toNat_ushiftRight]
  exact and_low_toNat (a >>> k) 1 rfl (by decide)

/-- The table of a window, by its number (R133). -/
theorem ntTable_eq (convention : MirrorConvention) (m : Mirroring) (a : Word) : ntTable convention m a =
    match convention, m with
    | .document, .horizontal | .nesHardware, .vertical => a.toNat / 0x400 % 4 % 2
    | .document, .vertical | .nesHardware, .horizontal => a.toNat / 0x400 % 4 / 2 := by
  have h10 : ((a >>> 10) &&& 1).toNat = a.toNat / 0x400 % 4 % 2 := by rw [bit_toNat]; omega
  have h11 : ((a >>> 11) &&& 1).toNat = a.toNat / 0x400 % 4 / 2 := by rw [bit_toNat]; omega
  cases convention <;> cases m
  · exact h10
  · exact h11
  · exact h11
  · exact h10

/-- The three ranges of R130, by the number of the reduced address. -/
theorem vramCell_eq (s : State) (addr : Word) : vramCell s addr =
    if addr.toNat % 0x4000 < 0x2000 then some (.pattern (addr.toNat % 0x4000))
    else if addr.toNat % 0x4000 < 0x3F00 then
      s.cart.map fun c => .nametable (addr.toNat % 0x4000 % 0x400 +
        1024 * ntTable s.params.ntMirrorConvention c.mirroring (addr &&& 0x3FFF))
    else some (.palette (palIndex (addr &&& 0x3FFF))) := by
  have hoff : ((addr &&& 0x3FFF) &&& 0x3FF).toNat = (addr &&& 0x3FFF).toNat % 0x400 := and_low_toNat _ 10 rfl (by decide)
  rw [← vramAddress_toNat, ← hoff]
  cases hc : s.cart with
  | none => simp only [vramCell, hc]; rfl
  | some c => simp only [vramCell, hc, Nat.add_comm, Nat.mul_comm]; rfl

/-- Settles O30: the range of the reduced address, then the index in its memory. -/
theorem vramResolution : Obligations.VramResolution := by
  intro s addr a window
  have h14 : (addr &&& 0x3FFF).toNat = a := vramAddress_toNat addr
  have hcell := vramCell_eq s addr
  refine ⟨fun h => ?_, fun h1 h2 => ?_, fun h => ?_⟩
  · rw [Nat.div_add_mod a 0x1000]
    exact hcell.trans (if_pos h)
  · rw [if_neg (Nat.not_lt.mpr h1), if_pos h2] at hcell
    refine ⟨fun hc => by rw [hcell, hc]; rfl, fun c hc => ?_⟩
    rw [hc] at hcell
    have hn := ntTable_eq s.params.ntMirrorConvention c.mirroring (addr &&& 0x3FFF)
    rw [h14] at hn
    exact hcell.trans (congrArg (fun n => some (VramCell.nametable (a % 0x400 + 1024 * n))) hn)
  · rw [if_neg (by omega), if_neg (by omega), palIndex_eq, h14] at hcell
    exact hcell

end Sys2Proof.Machine
end

/-! SUPPORT. The decoder and the encoder: each byte string the decoder reads is an opcode byte and the operand bytes of its cell,
and the two tables of the spec, R153 and R157, agree on it (spec/30_encoding.md R151, R155). -/
section

namespace Sys2Proof.Machine

open Sys2Proof.Claims

/-! What the decoder reads. -/

/-- The decoder reads an opcode byte and the first of `b1`, `b2`, as many as the opcode calls for. -/
theorem decode_instrOf (op b1 b2 : Byte) (rest : List Byte) :
    decode (op :: ([b1, b2].take (operandCount op) ++ rest)) = .ok (instrOf op b1 b2, rest) := by
  simp only [decode, operandCount, instrOf]
  cases dispatch op <;> rfl

/-- The decoder reads nothing else. -/
theorem exists_of_decode_eq_ok {bs rest : List Byte} {i : Instr} (h : decode bs = .ok (i, rest)) :
    ∃ op b1 b2, bs = op :: ([b1, b2].take (operandCount op) ++ rest) ∧ i = instrOf op b1 b2 := by
  cases bs with
  | nil => cases h
  | cons op tail =>
    simp only [decode] at h
    split at h
    case h_1 hn => cases h; exact ⟨op, 0, 0, by rw [hn]; rfl, rfl⟩
    case h_2 b1 _ hn => cases h; exact ⟨op, b1, 0, by rw [hn]; rfl, rfl⟩
    case h_3 b1 b2 _ hn => cases h; exact ⟨op, b1, b2, by rw [hn]; rfl, rfl⟩
    case h_4 => cases h

/-! The instructions of the opcode map (R153), and their bytes by the other table (R157). -/

theorem loByte_join (hi lo : Byte) : loByte (join hi lo) = lo :=
  BitVec.eq_of_toNat_eq (by rw [loByte_toNat, join_toNat]; omega)

theorem hiByte_join (hi lo : Byte) : hiByte (join hi lo) = hi :=
  BitVec.eq_of_toNat_eq (by rw [hiByte_toNat, join_toNat]; omega)

theorem join_hiByte_loByte (a : Word) : join (hiByte a) (loByte a) = a :=
  BitVec.eq_of_toNat_eq (by rw [join_toNat, hiByte_toNat, loByte_toNat]; omega)

/-- The byte `op` stands for `i` in both tables: the cell of `op` (R153) builds `i` from operand bytes, and `op` and those bytes
are the encoding (R157) of whatever the cell builds. -/
structure CellOf (op : Byte) (i : Instr) : Prop where
  builds : ∃ b1 b2, instrOf op b1 b2 = i
  wellFormed : ∀ b1 b2, WellFormed (instrOf op b1 b2) = true
  encodes : ∀ b1 b2, encode (instrOf op b1 b2) = op :: [b1, b2].take (operandCount op)

/-- The cell of the mnemonic `c` in the column of a form (R153). -/
def formCell (c : Operand → Instr) : Form → Entry
  | .acc => .acc c
  | .imm => .imm c
  | .zp => .zp c
  | .zpx => .zpx c
  | .zpy => .zpy c
  | .abs => .abs c
  | .absx => .absx c
  | .absy => .absy c
  | .indx => .indx c
  | .indy => .indy c

/-- A cell of a form builds an operand of that form, whose bytes are those it was built from (R155). -/
theorem formCell_build (c : Operand → Instr) (f : Form) (op b1 b2 : Byte) :
    ∃ m, (formCell c f).build op b1 b2 = c m ∧ m.form = f ∧ m.bytes = [b1, b2].take (formCell c f).operandBytes := by
  have hword : [loByte (join b2 b1), hiByte (join b2 b1)] = [b1, b2] := by rw [loByte_join, hiByte_join]
  cases f with
  | abs | absx | absy => exact ⟨_, rfl, rfl, hword⟩
  | _ => exact ⟨_, rfl, rfl, rfl⟩

/-- Every operand is built by the cell of its form. -/
theorem exists_formCell_build (c : Operand → Instr) (m : Operand) (op : Byte) :
    ∃ b1 b2, (formCell c m.form).build op b1 b2 = c m := by
  cases m with
  | acc => exact ⟨0, 0, rfl⟩
  | imm b | zp b | zpx b | zpy b | indx b | indy b => exact ⟨b, 0, rfl⟩
  | abs a | absx a | absy a =>
    refine ⟨loByte a, hiByte a, ?_⟩
    simp only [Operand.form, formCell, Entry.build, join_hiByte_loByte]

/-- A mnemonic whose opcode and forms are a matter of the operand's form, and whose operand bytes are the operand's. -/
theorem cellOf_operand {c : Operand → Instr} {m : Operand} {op : Byte} (hw : WellFormed (c m) = true)
    (hop : opcodeOf (c m) = some op) (hd : dispatch op = formCell c m.form)
    (hform : ∀ m', m'.form = m.form → WellFormed (c m') = WellFormed (c m) ∧ opcodeOf (c m') = opcodeOf (c m))
    (hbytes : ∀ m', operandBytesOf (c m') = m'.bytes) : CellOf op (c m) := by
  have hbuild : ∀ b1 b2, ∃ m', instrOf op b1 b2 = c m' ∧ m'.form = m.form ∧ m'.bytes = [b1, b2].take (operandCount op) := by
    intro b1 b2
    rw [instrOf, operandCount, hd]
    exact formCell_build c m.form op b1 b2
  refine ⟨?_, fun b1 b2 => ?_, fun b1 b2 => ?_⟩
  · simp only [instrOf, hd]
    exact exists_formCell_build c m op
  all_goals
    obtain ⟨m', hi, hf, hb⟩ := hbuild b1 b2
    obtain ⟨hwf, hopc⟩ := hform m' hf
  · rw [hi, hwf, hw]
  · simp only [encode, hi, hopc, hop, hbytes, hb]

/-- An instruction whose operand is an address itself (JMP, JSR). -/
theorem cellOf_word {c : Word → Instr} {op : Byte} (hd : dispatch op = .word c) (hw : ∀ a, WellFormed (c a) = true)
    (he : ∀ a, encode (c a) = [op, loByte a, hiByte a]) (a : Word) : CellOf op (c a) := by
  refine ⟨⟨loByte a, hiByte a, ?_⟩, fun b1 b2 => ?_, fun b1 b2 => ?_⟩
  · simp only [instrOf, hd, Entry.build, join_hiByte_loByte]
  · simp only [instrOf, hd, Entry.build, hw]
  · simp only [instrOf, operandCount, hd, Entry.build, he, loByte_join, hiByte_join]
    rfl

theorem eq_ill_of_isIllegal {e : Entry} (h : e.isIllegal = true) : e = .ill := by
  cases e with
  | ill => rfl
  | _ => cases h

theorem instrOf_of_mem_illegalOpcodes {op : Byte} (h : op.toNat ∈ illegalOpcodes) (b1 b2 : Byte) :
    instrOf op b1 b2 = .illegal op := by
  rw [instrOf, eq_ill_of_isIllegal ((isIllegal_iff op).mpr h)]
  rfl

theorem wellFormed_illegal_iff (op : Byte) : WellFormed (.illegal op) = true ↔ op.toNat ∈ illegalOpcodes :=
  List.contains_iff_mem

theorem cellOf_illegal {op : Byte} (hw : WellFormed (.illegal op) = true) : CellOf op (.illegal op) := by
  have hl := (wellFormed_illegal_iff op).mp hw
  have hn := Laws.Encoding.illegal_count op ((isIllegal_iff op).mpr hl)
  refine ⟨⟨0, 0, instrOf_of_mem_illegalOpcodes hl 0 0⟩, fun b1 b2 => ?_, fun b1 b2 => ?_⟩ <;>
    rw [instrOf_of_mem_illegalOpcodes hl]
  · exact hw
  · rw [hn]; rfl

/-- The tables R153 and R157 agree on the opcode byte of every instruction. -/
theorem cellOf_opcodeOf {i : Instr} {op : Byte} (hw : WellFormed i = true) (hop : opcodeOf i = some op) : CellOf op i := by
  cases i with
  | adc m | and m | asl m | bit m | cmp m | cpx m | cpy m | dec m | eor m | inc m
  | lda m | ldx m | ldy m | lsr m | ora m | rol m | ror m | sbc m | sta m | stx m | sty m =>
    refine cellOf_operand hw hop (by cases m <;> cases hop <;> rfl) (fun m' hm => ?_) fun _ => rfl
    simp only [WellFormed, Instr.formOk, Instr.operand?, Instr.forms, Instr.opcodeOk, opcodeOf, hm, and_self]
  | bcc d | bcs d | beq d | bmi d | bne d | bpl d | bvc d | bvs d =>
    cases hop; exact ⟨⟨d, 0, rfl⟩, fun _ _ => rfl, fun _ _ => rfl⟩
  | jmp target =>
    cases target with
    | abs a => cases hop; exact cellOf_word (c := fun a => .jmp (.abs a)) rfl (fun _ => rfl) (fun _ => rfl) a
    | ind a => cases hop; exact cellOf_word (c := fun a => .jmp (.ind a)) rfl (fun _ => rfl) (fun _ => rfl) a
  | jsr a => cases hop; exact cellOf_word rfl (fun _ => rfl) (fun _ => rfl) a
  | illegal op' => cases hop; exact cellOf_illegal hw
  | _ => cases hop; exact ⟨⟨0, 0, rfl⟩, fun _ _ => rfl, fun _ _ => rfl⟩

/-- Every byte is the opcode of an instruction (R154, R159). -/
theorem opcodeOf_instrOf_zero : ∀ op : Byte, WellFormed (instrOf op 0 0) = true ∧ opcodeOf (instrOf op 0 0) = some op := by
  decide

/-- What any cell builds is well-formed, and its bytes are those it was built from. -/
theorem cellOf_instrOf_zero (op : Byte) : CellOf op (instrOf op 0 0) := by
  obtain ⟨hw, hop⟩ := opcodeOf_instrOf_zero op
  exact cellOf_opcodeOf hw hop

theorem exists_opcodeOf {i : Instr} (h : WellFormed i = true) : ∃ op, opcodeOf i = some op := by
  obtain ⟨op, he, -⟩ := Laws.Encoding.statement i h
  cases ho : opcodeOf i with
  | some op => exact ⟨op, rfl⟩
  | none => rw [encode, ho] at he; cases he

/-- Settles O1: the cell of the opcode byte builds the instruction from the operand bytes its encoding has. -/
theorem decodeEncodeRoundTrip : Obligations.DecodeEncodeRoundTrip := by
  intro i rest h
  obtain ⟨op, hop⟩ := exists_opcodeOf h
  obtain ⟨⟨b1, b2, rfl⟩, -, he⟩ := cellOf_opcodeOf h hop
  rw [he]
  exact decode_instrOf op b1 b2 rest

/-- Settles O2: the decoder reads the bytes a cell builds an instruction from, and those are its encoding. -/
theorem decodedIsEncoded : Obligations.DecodedIsEncoded := by
  intro bs rest i h
  obtain ⟨op, b1, b2, rfl, rfl⟩ := exists_of_decode_eq_ok h
  obtain ⟨-, hw, he⟩ := cellOf_instrOf_zero op
  exact ⟨hw b1 b2, by rw [he]; rfl⟩

/-- Settles O3: the decoder run on the bytes. -/
theorem specBytesDecode : Obligations.SpecBytesDecode := ⟨rfl, rfl, rfl, rfl, rfl, rfl, rfl, rfl⟩

/-- The instruction of a byte is that byte's illegal one exactly when R154 lists the byte. -/
theorem instrOf_eq_illegal_iff (op b1 b2 : Byte) : instrOf op b1 b2 = .illegal op ↔ op.toNat ∈ illegalOpcodes := by
  refine ⟨fun h => ?_, fun h => instrOf_of_mem_illegalOpcodes h b1 b2⟩
  cases hd : (dispatch op).isIllegal with
  | true => exact (isIllegal_iff op).mp hd
  | false => exact absurd h (instrOf_ne_illegal hd b1 b2 op)

/-- Settles O4: the cells of the map with no instruction are the bytes listed, and two bytes are enough for any cell. -/
theorem everyByteDispatches : Obligations.EveryByteDispatches := by
  refine ⟨isIllegal_iff, fun op b1 b2 => ?_, rfl, by decide⟩
  have h := decode_instrOf op b1 b2 ([b1, b2].drop (operandCount op))
  rw [List.take_append_drop] at h
  exact ⟨_, _, h, instrOf_eq_illegal_iff op b1 b2⟩

/-! The tick around the instruction fetched. -/

/-- The tick of an illegal byte is the illegal instruction's execution: it costs nothing (R301, R345). -/
theorem charge_illegal (op : Byte) (s : State) (o : Host.Outcome State Fault Refusal) : charge (.illegal op) s o = o := by
  cases o <;> rfl

/-- Settles O5: the step runs what the fetch answers, and a fault of the fetch is the step's. -/
theorem stepRunsDecodedInstruction : Obligations.StepRunsDecodedInstruction := by
  refine ⟨fun s u op bs i hr hf hl hd => ?_, fun s w op hr hm hl => ?_, fun s w f hr hm => ?_, fun s u op bs f hr hf => ?_,
    fun s f hs => ?_⟩
  · rw [step_of_fetch hr (fetch_of_fetches hf hl hd)]
    exact ⟨fun t ht => by rw [ht]; rfl, fun f hf => by rw [hf]; rfl⟩
  · rw [step_of_fetch hr (fetch_of_illegal hm hl), charge_illegal]
  · exact step_of_fetch_error hr (fetch_error_opcode hm)
  · exact step_of_fetch_error hr (fetch_error_operand hf)
  · exact step_of_stopped hs

end Sys2Proof.Machine
end

/-! SUPPORT. The addressing-mode claims: where a resolver points, what an operand read or write can change, and the branches
(spec/40_addressing_modes.md, spec/45_branches_flags_nop.md). -/
section

namespace Sys2Proof.Machine

open Sys2Proof.Claims

/-! The resolvers (R173 to R186). -/

/-- Every resolver moves `PC` by the length of an instruction with its operand (R151, R186). -/
theorem resolve_past (m : Operand) (s : State) : resolve m s = .ok (s.eaOf m) (past s (length m)) := by
  rw [resolve_run, past_length]

theorem word_add_one (w : Word) : w + 1 = wordOf (w.toNat + 1) := eq_wordOf (word_add_toNat w 1)

/-- An immediate operand stands at the address after the opcode (R174). -/
theorem eaOf_imm (s : State) (b : Byte) : s.eaOf (.imm b) = .fetched (wordOf (s.pc.toNat + 1)) b :=
  congrArg (Ea.fetched · b) (word_add_one s.pc)

/-- Settles O32: a memory form points where `address` says, and the two others name `A` and the byte after the opcode. -/
theorem effectiveAddresses : Obligations.EffectiveAddresses := by
  refine fun s m => ⟨fun a ha => ⟨(eaOf_address ha).1, resolve_address ha⟩, resolve_past .acc s, fun b => ?_⟩
  rw [resolve_past, eaOf_imm]
  rfl

/-! Operand access (R171, R172). -/

/-- An operand's address below 65536 is its own word, so the bus decodes it by its number (spec/20_memory.md R50). -/
theorem region_address_ne_ppu {s : State} {m : Operand} {a : Nat} (ha : address s m = some a) (hin : ¬ InWindow a) :
    region (wordOf a) ≠ .ppu :=
  region_ne_ppu (by rwa [wordOf_toNat, Nat.mod_eq_of_lt (eaOf_address ha).1])

/-- An operand read outside the PPU window moves `PC` alone (spec/20_memory.md R62). -/
theorem reads_quiet {s u : State} {m : Operand} {v : Byte} (h : Reads s m v u)
    (hq : ∀ a, address s m = some a → ¬ InWindow a) : u = past s (length m) := by
  obtain ⟨a, ha, hr⟩ | ⟨-, hu⟩ := reads_cases h
  · exact memRead_quiet (region_address_ne_ppu ha (hq a ha)) hr
  · exact hu

theorem writes_some {s : State} {m : Operand} {a : Nat} (ha : address s m = some a) (r : Byte) (u w : State) :
    Writes s m r u w ↔ memWrite (wordOf a) r u = .ok () w := by
  simp only [Writes, ha]

theorem writes_none {s : State} {m : Operand} (ha : address s m = none) (r : Byte) (u w : State) :
    Writes s m r u w ↔ w = u.setA r := by
  simp only [Writes, ha]

/-- With a cartridge attached every operand is written (spec/20_memory.md R58). -/
theorem writes_attached {u : State} (hu : u.attached) (s : State) (m : Operand) (r : Byte) : ∃ w, Writes s m r u w := by
  cases ha : address s m with
  | some a =>
    obtain ⟨w, hw⟩ := memWrite_attached hu (wordOf a) r
    exact ⟨w, (writes_some ha r u w).mpr hw⟩
  | none => exact ⟨_, (writes_none ha r u _).mpr rfl⟩

/-- An operand write changes `A`, RAM and the PPU at most. -/
theorem writes_frame {s u w : State} {m : Operand} {r : Byte} (h : Writes s m r u w) :
    w = ((u.setA w.a).setRam w.ram).setPpu w.ppu := by
  cases ha : address s m with
  | some a => exact writeOperand_frame (ea := .addr (wordOf a)) ((writes_some ha r u w).mp h)
  | none => exact writeOperand_frame (ea := .acc) (by rw [(writes_none ha r u w).mp h]; rfl)

/-- An operand write to memory leaves `A`, and outside the PPU window the PPU (spec/20_memory.md R62). -/
theorem writes_memory {s u w : State} {m : Operand} {r : Byte} {a : Nat} (ha : address s m = some a)
    (h : Writes s m r u w) : w.a = u.a ∧ (¬ InWindow a → w.ppu = u.ppu) := by
  have hw := (writes_some ha r u w).mp h
  constructor
  · rw [memWrite_frame hw]
    rfl
  · intro hin
    rw [memWrite_quiet (region_address_ne_ppu ha hin) hw]
    rfl

/-- Settles O33: an operand access is a bus access at the operand's address, which the bus's own rules bound, or none. -/
theorem operandAccess : Obligations.OperandAccess := by
  refine fun s m => ⟨fun hs => ?_, fun r u hu => writes_attached hu s m r, fun v u h => ⟨reads_frame h, reads_quiet h⟩,
    fun r u w h => ⟨writes_frame h, fun a ha => writes_memory ha h⟩⟩
  obtain ⟨v, u, hr, -⟩ := reads_attached hs m
  exact ⟨v, u, hr⟩

/-! The branches (R185, spec/45_branches_flags_nop.md R250). -/

/-- A branch goes to its target or past its two bytes. -/
theorem outcome_branch_cases (i : Nat) (want : Bool) (d : Byte) (s : State) :
    outcome (branch i want d) s = .next (if flag s.p i = want then s.setPc (branchTarget s.pc d) else past s 2) := by
  rw [outcome_branch, past_two]
  split <;> rfl

/-- Settles O45: each is a branch on its flag. -/
theorem branches : Obligations.Branches := fun s d =>
  ⟨⟨rfl, rfl, rfl, rfl, rfl, rfl, rfl, rfl⟩,
    outcome_branch_cases bitN false d s, outcome_branch_cases bitN true d s,
    outcome_branch_cases bitV false d s, outcome_branch_cases bitV true d s,
    outcome_branch_cases bitC false d s, outcome_branch_cases bitC true d s,
    outcome_branch_cases bitZ false d s, outcome_branch_cases bitZ true d s⟩

end Sys2Proof.Machine
end

/-! SUPPORT. The logical claims (spec/41_logical.md), with what every instruction that takes an `Operand` shares: its encodings
(spec/30_encoding.md R157) and the registers its operand read keeps. -/
section

namespace Sys2Proof.Machine

open Sys2Proof.Claims

/-! The encodings of an instruction with an `Operand`. -/

/-- An instruction with an operand is well-formed exactly in the forms R157 gives it. -/
theorem wellFormed_iff_mem_forms {i : Instr} {m : Operand} (h : i.operand? = some m) :
    WellFormed i = true ↔ m.form ∈ i.forms := by
  have hop : i.opcodeOk = true := by
    cases i with
    | illegal => cases h
    | _ => rfl
  rw [WellFormed, hop, Bool.and_true, Instr.formOk, h]
  exact List.contains_iff_mem

/-- The operand bytes of an instruction are those of the operand it carries. -/
theorem operandBytesOf_eq_bytes {i : Instr} {m : Operand} (h : i.operand? = some m) : operandBytesOf i = m.bytes := by
  cases i <;> cases h <;> rfl

/-- In a row of R157 without repeated forms, a form's column holds the byte listed with it. -/
theorem column_eq_some {f : Form} {op : Byte} {rows : List (Form × Byte)} (hd : (rows.map Prod.fst).Nodup)
    (h : (f, op) ∈ rows) : column f rows = some op := by
  induction rows with
  | nil => cases h
  | cons row rest ih =>
    rw [List.map_cons, List.nodup_cons] at hd
    obtain ⟨hnot, hd⟩ := hd
    cases h with
    | head => exact if_pos rfl
    | tail _ hr =>
      have hne : f ≠ row.1 := fun he => hnot (he ▸ List.mem_map_of_mem hr)
      exact (if_neg hne).trans (ih hd hr)

/-- A mnemonic whose forms and opcode bytes are a row of R157 has exactly the encodings of that row. -/
theorem encodings_of_row {c : Operand → Instr} {rows : List (Form × Byte)} (hc : ∀ m, (c m).operand? = some m)
    (hforms : ∀ m, (c m).forms = rows.map Prod.fst) (hrow : ∀ m, opcodeOf (c m) = column m.form rows)
    (hd : (rows.map Prod.fst).Nodup) : Encodings c rows := by
  refine fun m => ⟨?_, fun op h => ?_⟩
  · rw [wellFormed_iff_mem_forms (hc m), hforms]
  · simp only [encode, hrow, column_eq_some hd h, operandBytesOf_eq_bytes (hc m)]

/-! Completion after the operand read (spec/40_addressing_modes.md R171). -/

/-- An operand read keeps `A`. -/
theorem reads_a {s u : State} {m : Operand} {v : Byte} (h : Reads s m v u) : u.a = s.a := by
  rw [reads_frame h]; rfl

/-- An operand read keeps the status byte. -/
theorem reads_p {s u : State} {m : Operand} {v : Byte} (h : Reads s m v u) : u.p = s.p := by
  rw [reads_frame h]; rfl

/-- An instruction that, its operand read, loads `r` into `A` changes `A`, `Z` and `N` alone (spec/10_state.md R29). -/
theorem completes_loadA {i : Instr} {s u : State} {m : Operand} {v r : Byte} (h : Reads s m v u)
    (hx : exec i s = .next (u.loadA r)) :
    Completes i s fun t => t = (u.setA r).setP t.p ∧ ZeroNegative t.a t.p ∧ SameBut [bitZ, bitN] s.p t.p := by
  obtain ⟨hzn, hkept⟩ := setZN_spec r u.p
  exact ⟨_, hx, rfl, hzn, reads_p h ▸ hkept⟩

/-- Settles O34: each is a row of R157, and after its operand read loads its result into `A`. -/
theorem logicalOperations : Obligations.LogicalOperations := by
  refine ⟨?_, fun s u m v h => ?_⟩
  · refine ⟨?_, ?_, ?_⟩ <;>
      exact encodings_of_row (fun _ => rfl) (fun _ => rfl) (fun _ => rfl) (by decide)
  · rw [← reads_a h]
    exact ⟨completes_loadA h (exec_ora.mpr ⟨v, u, h, rfl⟩), completes_loadA h (exec_and.mpr ⟨v, u, h, rfl⟩),
      completes_loadA h (exec_eor.mpr ⟨v, u, h, rfl⟩)⟩

/-- Settles O35: BIT is a row of R157, and after its operand read writes the flags `bitFlags` computes and nothing else. -/
theorem bitTest : Obligations.BitTest := by
  refine ⟨encodings_of_row (fun _ => rfl) (fun _ => rfl) (fun _ => rfl) (by decide), fun s u m v h => ?_⟩
  obtain ⟨hN, hV, hZ, hkept⟩ := bitFlags_spec s.a v s.p
  have hx : exec (.bit m) s = .next (u.setP (bitFlags s.a v s.p)) :=
    exec_bit.mpr ⟨v, u, h, by rw [reads_a h, reads_p h]⟩
  exact ⟨_, hx, rfl, hN, hV, hZ, hkept⟩

end Sys2Proof.Machine
end

/-! SUPPORT. The arithmetic claims (spec/42_arithmetic.md): `AddCore` in both its uses, and `CompareCore`. -/
section

namespace Sys2Proof.Machine

open Sys2Proof.Claims

/-! The sum of `AddCore` (R200). -/

/-- The carry is one bit. -/
theorem carry_le_one (p : Byte) : carry p ≤ 1 := by
  rw [carry]; split <;> decide

/-- The result of `AddCore` is the sum with the carry modulo 256 (R200). -/
theorem addResult_eq (a m p : Byte) : addResult a m p = byteOf (a.toNat + m.toNat + carry p) := by
  rw [addResult, addSum, flag_toNat, byteOf]

/-! `AddCore` on the one's complement, which SBC adds (R202). -/

/-- The one's complement of a byte, unsigned. -/
theorem toNat_xor_ff (v : Byte) : (v ^^^ 0xFF).toNat = 255 - v.toNat := by
  have h : v ^^^ 0xFF = ~~~v := BitVec.xor_allOnes
  rw [h, BitVec.toNat_not]

/-- The one's complement of a byte, signed. -/
theorem toInt_xor_ff (v : Byte) : (v ^^^ 0xFF).toInt = -1 - v.toInt := by
  have hv := v.isLt
  rw [BitVec.toInt_eq_toNat_cond, BitVec.toInt_eq_toNat_cond, toNat_xor_ff]
  omega

/-- `AddCore` on the one's complement subtracts with the borrow, modulo 256 (R202). -/
theorem addResult_complement (a v p : Byte) :
    ((addResult a (v ^^^ 0xFF) p).toNat : Int) = ((a.toNat : Int) - v.toNat - (1 - carry p : Nat)) % 256 := by
  have hc := carry_le_one p
  have hv := v.isLt
  rw [addResult_eq, byteOf, BitVec.toNat_ofNat, toNat_xor_ff]
  omega

/-- The flags of `AddCore` on the one's complement, in terms of the difference with the borrow (R202). -/
theorem addFlags_complement (a v p : Byte) :
    let borrow := 1 - carry p
    let signed := a.toInt - v.toInt - (borrow : Int)
    flag (addFlags a (v ^^^ 0xFF) p) bitC = decide (v.toNat + borrow ≤ a.toNat) ∧
    flag (addFlags a (v ^^^ 0xFF) p) bitV = decide (signed < -128 ∨ 127 < signed) := by
  obtain ⟨hC, hV, -, -⟩ := addFlags_spec a (v ^^^ 0xFF) p
  have hc := carry_le_one p
  have hv := v.isLt
  rw [hC, hV, toNat_xor_ff, toInt_xor_ff]
  constructor
  · exact decide_eq_decide.mpr (by omega)
  · exact decide_eq_decide.mpr (by omega)

/-! The registers an operand read keeps (spec/40_addressing_modes.md R171), and the claims. -/

/-- An operand read keeps `X`. -/
theorem reads_x {s u : State} {m : Operand} {v : Byte} (h : Reads s m v u) : u.x = s.x := by
  rw [reads_frame h]; rfl

/-- An operand read keeps `Y`. -/
theorem reads_y {s u : State} {m : Operand} {v : Byte} (h : Reads s m v u) : u.y = s.y := by
  rw [reads_frame h]; rfl

/-- Settles O36: ADC is a row of R157, and after its operand read is `AddCore` of the operand. -/
theorem addWithCarry : Obligations.AddWithCarry := by
  refine ⟨encodings_of_row (fun _ => rfl) (fun _ => rfl) (fun _ => rfl) (by decide), fun s u m v h => ?_⟩
  rw [← reads_a h, ← reads_p h]
  obtain ⟨hC, hV, hZN, hkept⟩ := addFlags_spec u.a v u.p
  exact ⟨u.addCore v, exec_adc.mpr ⟨v, u, h, rfl⟩, by rw [← addResult_eq]; rfl, hC, hV, hZN, hkept⟩

/-- Settles O37: SBC is a row of R157, and after its operand read is `AddCore` of the operand's one's complement. -/
theorem subtractWithBorrow : Obligations.SubtractWithBorrow := by
  refine ⟨encodings_of_row (fun _ => rfl) (fun _ => rfl) (fun _ => rfl) (by decide), fun s u m v h => ?_⟩
  rw [← reads_a h, ← reads_p h]
  obtain ⟨-, -, hZN, hkept⟩ := addFlags_spec u.a (v ^^^ 0xFF) u.p
  obtain ⟨hC, hV⟩ := addFlags_complement u.a v u.p
  exact ⟨u.addCore (v ^^^ 0xFF), exec_sbc.mpr ⟨v, u, h, rfl⟩, rfl, addResult_complement u.a v u.p, hC, hV, hZN, hkept⟩

/-- Settles O38: each is a row of R157, and after its operand read writes the flags `compareFlags` computes and nothing
else. -/
theorem compares : Obligations.Compares := by
  refine ⟨?_, fun s u m v h => ?_⟩
  · refine ⟨?_, ?_, ?_⟩ <;>
      exact encodings_of_row (fun _ => rfl) (fun _ => rfl) (fun _ => rfl) (by decide)
  · rw [← reads_a h, ← reads_x h, ← reads_y h, ← reads_p h]
    exact ⟨⟨_, exec_cmp.mpr ⟨v, u, h, rfl⟩, rfl, compareFlags_spec u.a v u.p⟩,
      ⟨_, exec_cpx.mpr ⟨v, u, h, rfl⟩, rfl, compareFlags_spec u.x v u.p⟩,
      ⟨_, exec_cpy.mpr ⟨v, u, h, rfl⟩, rfl, compareFlags_spec u.y v u.p⟩⟩

end Sys2Proof.Machine
end

/-! SUPPORT. The shift and rotate claims (spec/43_shifts.md): the four results in numbers, and the completion the four
instructions share. -/
section

namespace Sys2Proof.Machine

open Sys2Proof.Claims

/-! The results in numbers (R210 to R213). -/

/-- Shifted left, a byte is doubled modulo 256. -/
theorem aslResult_toNat (v : Byte) : (aslResult v).toNat = 2 * v.toNat % 256 := by
  rw [aslResult, BitVec.toNat_shiftLeft, Nat.shiftLeft_eq]
  omega

/-- Shifted right, a byte is halved. -/
theorem lsrResult_toNat (v : Byte) : (lsrResult v).toNat = v.toNat / 2 := by
  rw [lsrResult, BitVec.toNat_ushiftRight, Nat.shiftRight_eq_div_pow]

/-- Rotated left, the double takes the incoming carry in bit 0, which the shift leaves clear. -/
theorem rolResult_toNat (p v : Byte) : (rolResult (flag p bitC) v).toNat = (2 * v.toNat + carry p) % 256 := by
  have hshift : (v <<< 1).toNat = 2 ^ 1 * (v.toNat % 128) := (aslResult_toNat v).trans (by omega)
  rw [rolResult, BitVec.toNat_or, hshift, carry]
  cases flag p bitC with
  | false => exact (Nat.or_zero _).trans (by simp; omega)
  | true => exact (Nat.two_pow_add_eq_or_of_lt (by decide) _).symm.trans (by simp; omega)

/-- Rotated right, the half takes the incoming carry in bit 7, which the shift leaves clear. -/
theorem rorResult_toNat (p v : Byte) : (rorResult (flag p bitC) v).toNat = v.toNat / 2 + 128 * carry p := by
  have hv := v.isLt
  rw [rorResult, BitVec.toNat_or, show (v >>> 1).toNat = v.toNat / 2 from lsrResult_toNat v, carry]
  cases flag p bitC with
  | false => exact Nat.or_zero _
  | true => exact (Nat.or_comm _ _).trans ((Nat.two_pow_add_eq_or_of_lt (i := 7) (by omega) 1).symm.trans (by simp; omega))

/-! Completion after the operand read and the operand write (spec/40_addressing_modes.md R171, R172). -/

/-- An operand write keeps the status byte. -/
theorem writes_p {s u w : State} {m : Operand} {r : Byte} (h : Writes s m r u w) : w.p = u.p := by
  rw [writes_frame h]; rfl

/-- The four instructions have no immediate form (R214). -/
theorem ne_imm_of_mem_shiftForms {m : Operand} (h : m.form ∈ shiftForms) (b : Byte) : m ≠ .imm b := by
  rintro rfl
  exact absurd (show Form.imm ∈ shiftForms from h) (by decide)

/-- The status byte after the outgoing bit `out` is written to `C`, then `Z` and `N` from the result `r`. -/
theorem setZN_putBit_carry (r p : Byte) (out : Bool) :
    flag (setZN r (putBit p bitC out)) bitC = out ∧ ZeroNegative r (setZN r (putBit p bitC out)) ∧
      SameBut [bitC, bitZ, bitN] p (setZN r (putBit p bitC out)) := by
  obtain ⟨hzn, hkept⟩ := setZN_spec r (putBit p bitC out)
  refine ⟨?_, hzn, sameBut_trans (sameBut_putBit p (by decide) out) hkept⟩
  rw [hkept bitC (by decide), flag_putBit p (by decide), if_pos rfl]

/-- The outgoing bit is written to `C` before the result is written, but the operand write does not look at it. -/
theorem writeOperand_putFlag {s u w : State} {m : Operand} {r : Byte} (hm : m.form ∈ shiftForms) (h : Writes s m r u w)
    (out : Bool) : writeOperand (s.eaOf m) r (u.putFlag bitC out) = .ok () (w.putFlag bitC out) := by
  rw [State.putFlag, State.putFlag, writes_p h]
  exact writeOperand_setP ((writes_iff (ne_imm_of_mem_shiftForms hm) r u w).mp h) _

/-- An instruction that, its result `r` written, writes `C`, `Z` and `N` changes nothing else. -/
theorem completes_shift {i : Instr} {s u w : State} {m : Operand} {r : Byte} {out : Bool} (hwrite : Writes s m r u w)
    (hx : exec i s = .next ((w.putFlag bitC out).putZN r)) :
    Completes i s fun t => t = w.setP t.p ∧ flag t.p bitC = out ∧ ZeroNegative r t.p ∧
      SameBut [bitC, bitZ, bitN] u.p t.p := by
  rw [← writes_p hwrite]
  exact ⟨_, hx, rfl, setZN_putBit_carry r w.p out⟩

/-- Settles O41: each is a row of R157, and after its operand read writes the bit shifted out to `C`, the result to the
operand's place, and `Z` and `N`; that result is the byte whose number the statement gives. -/
theorem shiftsAndRotates : Obligations.ShiftsAndRotates := by
  refine ⟨?_, fun s u w m v r hm hread hwrite => ?_⟩
  · refine ⟨?_, ?_, ?_, ?_⟩ <;>
      exact encodings_of_row (fun _ => rfl) (fun _ => rfl) (fun _ => rfl) (by decide)
  · rw [← reads_p hread]
    have hput := writeOperand_putFlag hm hwrite
    refine ⟨fun hr => ?_, fun hr => ?_, fun hr => ?_, fun hr => ?_⟩
    · obtain rfl : r = aslResult v := BitVec.eq_of_toNat_eq (hr.trans (aslResult_toNat v).symm)
      exact completes_shift hwrite (exec_asl.mpr ⟨v, u, _, hread, hput _, rfl⟩)
    · obtain rfl : r = lsrResult v := BitVec.eq_of_toNat_eq (hr.trans (lsrResult_toNat v).symm)
      exact completes_shift hwrite (exec_lsr.mpr ⟨v, u, _, hread, hput _, rfl⟩)
    · obtain rfl : r = rolResult (flag u.p bitC) v := BitVec.eq_of_toNat_eq (hr.trans (rolResult_toNat u.p v).symm)
      exact completes_shift hwrite (exec_rol.mpr ⟨v, u, _, hread, hput _, rfl⟩)
    · obtain rfl : r = rorResult (flag u.p bitC) v := BitVec.eq_of_toNat_eq (hr.trans (rorResult_toNat u.p v).symm)
      exact completes_shift hwrite (exec_ror.mpr ⟨v, u, _, hread, hput _, rfl⟩)

end Sys2Proof.Machine
end

/-! SUPPORT. The load, store, transfer and increment claims (spec/44_incdec_load_store_transfer.md). Every one of these
instructions but the stores and TXS ends in `SetZN` of its result, which is said once. -/
section

namespace Sys2Proof.Machine

open Sys2Proof.Claims

/-- An instruction that ends in `SetZN(r)` leaves, of the status byte it started from, all but `Z` and `N`
(spec/10_state.md R29). -/
theorem completes_putZN {i : Instr} {s q : State} {r : Byte} (hp : q.p = s.p) (hx : exec i s = .next (q.putZN r)) :
    Completes i s fun t => t = q.setP t.p ∧ ZeroNegative r t.p ∧ SameBut [bitZ, bitN] s.p t.p := by
  rw [← hp]
  exact ⟨_, hx, rfl, setZN_spec r q.p⟩

/-- An operand write to memory is the bus write at the operand's address (spec/40_addressing_modes.md R172). -/
theorem writeOperand_address {s : State} {m : Operand} {a : Nat} (ha : address s m = some a) (r : Byte) (u : State) :
    writeOperand (s.eaOf m) r u = memWrite (wordOf a) r u := by
  rw [(eaOf_address ha).2]
  rfl

/-- INC and DEC have the forms of the shifts but the accumulator (R220), so no immediate form. -/
theorem ne_imm_of_mem_stepForms {m : Operand} (h : m.form ∈ stepForms) : ∀ b, m ≠ .imm b :=
  ne_imm_of_mem_shiftForms (List.mem_of_mem_tail (l := shiftForms) h)

/-- Settles O39: each is a row of R157, and after its operand read loads the operand into its register. -/
theorem loads : Obligations.Loads := by
  refine ⟨?_, fun s u m v h => ?_⟩
  · refine ⟨?_, ?_, ?_⟩ <;>
      exact encodings_of_row (fun _ => rfl) (fun _ => rfl) (fun _ => rfl) (by decide)
  · have hp : u.p = s.p := reads_p h
    exact ⟨completes_putZN hp (exec_lda.mpr ⟨v, u, h, rfl⟩), completes_putZN hp (exec_ldx.mpr ⟨v, u, h, rfl⟩),
      completes_putZN hp (exec_ldy.mpr ⟨v, u, h, rfl⟩)⟩

/-- Settles O40: each is a row of R157, and its operand write is the one bus write at the operand's address. -/
theorem stores : Obligations.Stores := by
  refine ⟨?_, fun s t m a ha => ?_⟩
  · refine ⟨?_, ?_, ?_⟩ <;>
      exact encodings_of_row (fun _ => rfl) (fun _ => rfl) (fun _ => rfl) (by decide)
  · simp only [← writeOperand_address ha]
    exact ⟨exec_sta.mpr, exec_stx.mpr, exec_sty.mpr⟩

/-- Settles O42: each is a row of R157, and after its operand read writes the byte's successor or predecessor, then `Z` and
`N`; that result is the byte whose number the statement gives. -/
theorem memoryIncrements : Obligations.MemoryIncrements := by
  refine ⟨?_, fun s u w m v r hm hread hwrite => ?_⟩
  · refine ⟨?_, ?_⟩ <;>
      exact encodings_of_row (fun _ => rfl) (fun _ => rfl) (fun _ => rfl) (by decide)
  · have hp : w.p = s.p := (writes_p hwrite).trans (reads_p hread)
    have hput := (writes_iff (ne_imm_of_mem_stepForms hm) r u w).mp hwrite
    refine ⟨fun hr => ?_, fun hr => ?_⟩
    · obtain rfl : r = v + 1 := (eq_byteOf hr).trans (byte_add_one v).symm
      exact completes_putZN hp (exec_inc.mpr ⟨v, u, w, hread, hput, rfl⟩)
    · obtain rfl : r = v - 1 := (eq_byteOf hr).trans (byte_sub_one v).symm
      exact completes_putZN hp (exec_dec.mpr ⟨v, u, w, hread, hput, rfl⟩)

/-- Settles O43: each loads its register with that register's successor or predecessor. -/
theorem registerIncrements : Obligations.RegisterIncrements := by
  refine ⟨⟨rfl, rfl, rfl, rfl⟩, fun s => ?_⟩
  rw [← byte_add_one, ← byte_add_one, ← byte_sub_one, ← byte_sub_one]
  exact ⟨⟨_, exec_inx s, rfl, setZN_spec (s.x + 1) s.p⟩, ⟨_, exec_iny s, rfl, setZN_spec (s.y + 1) s.p⟩,
    ⟨_, exec_dex s, rfl, setZN_spec (s.x - 1) s.p⟩, ⟨_, exec_dey s, rfl, setZN_spec (s.y - 1) s.p⟩⟩

/-- Settles O44: each but TXS loads its destination with the source; TXS copies it and ends there. -/
theorem transfers : Obligations.Transfers := by
  refine ⟨⟨rfl, rfl, rfl, rfl, rfl, rfl⟩, fun s => ?_⟩
  exact ⟨completes_putZN rfl (exec_tax s), completes_putZN rfl (exec_tay s), completes_putZN rfl (exec_txa s),
    completes_putZN rfl (exec_tya s), completes_putZN rfl (exec_tsx s), _, exec_txs s, rfl⟩

end Sys2Proof.Machine
end

/-! SUPPORT. The flag instructions and NOP (spec/45_branches_flags_nop.md R260 to R267): what writing one flag does is said
once. -/
section

namespace Sys2Proof.Machine

open Sys2Proof.Claims

/-- An instruction that, `PC` moved past its one byte, writes `b` to the flag `f` changes nothing else. -/
theorem completes_putFlag {i : Instr} {s : State} {f : Nat} {b : Bool} (hf : f < 8)
    (hx : exec i s = .next ((past s 1).putFlag f b)) :
    Completes i s fun t => t = (past s 1).setP t.p ∧ flag t.p f = b ∧ SameBut [f] s.p t.p := by
  have hwritten : flag (putBit s.p f b) f = b := by rw [flag_putBit s.p hf, if_pos rfl]
  exact ⟨_, hx, rfl, hwritten, sameBut_putBit s.p hf b⟩

/-- Settles O46: each writes its one flag, and NOP none. -/
theorem flagOperations : Obligations.FlagOperations := by
  refine ⟨⟨rfl, rfl, rfl, rfl, rfl, rfl, rfl, rfl⟩, fun s => ?_⟩
  have hC : bitC < 8 := by decide
  have hI : bitI < 8 := by decide
  have hD : bitD < 8 := by decide
  have hV : bitV < 8 := by decide
  exact ⟨completes_putFlag hC (exec_clc s), completes_putFlag hC (exec_sec s), completes_putFlag hI (exec_cli s),
    completes_putFlag hI (exec_sei s), completes_putFlag hV (exec_clv s), completes_putFlag hD (exec_cld s),
    completes_putFlag hD (exec_sed s), exec_nop s⟩

end Sys2Proof.Machine
end

/-! SUPPORT. The stack, jump, subroutine and trap claims (spec/46_stack_jumps_subroutines.md): stack pointers and pushed bytes in
numbers, and what a pull finds after a push. -/
section

namespace Sys2Proof.Machine

open Sys2Proof.Claims

/-! What is pushed (R280, R288, R292). -/

/-- A push changes RAM and lowers the stack pointer by one. -/
theorem State.pushed_eq (s : State) (v : Byte) :
    s.pushed v = (s.setSp (byteOf (s.sp.toNat + 255))).setRam (s.pushed v).ram := by
  rw [← byte_sub_one]; rfl

/-- A pushed word changes RAM and lowers the stack pointer by two. -/
theorem State.pushed_pushed_eq (s : State) (v w : Byte) :
    (s.pushed v).pushed w = (s.setSp (byteOf (s.sp.toNat + 254))).setRam ((s.pushed v).pushed w).ram := by
  rw [← byte_sub_two]; rfl

/-- A trap frame changes RAM and the status byte, and lowers the stack pointer by three. -/
theorem State.trapFrame_eq (s : State) (ret : Word) (b : Bool) : s.trapFrame ret b =
    ((s.setSp (byteOf (s.sp.toNat + 253))).setP (s.trapFrame ret b).p).setRam (s.trapFrame ret b).ram := by
  rw [← byte_sub_three]; rfl

/-- The three bytes of a trap frame in numbers, `r` being the return address. -/
theorem stored_trapFrame_byteOf {s : State} (hr : s.ram.wf) {ret : Word} {r : Nat} (hret : ret.toNat = r) (b : Bool) :
    Stored s.ram (s.trapFrame ret b).ram
      [(slot s.sp, byteOf (r / 256)), (slot (byteOf (s.sp.toNat + 255)), byteOf r),
        (slot (byteOf (s.sp.toNat + 254)), packP s.p b)] := by
  rw [← byte_sub_one, ← byte_sub_two, ← hret, ← hiByte_eq, ← loByte_eq]
  exact stored_trapFrame hr ret b

/-- What a trap entry leaves in the status byte and on the stack (R292, spec/60_exceptions.md R307). -/
theorem trapFrame_spec {s : State} (hr : s.ram.wf) {ret : Word} {r : Nat} (hret : ret.toNat = r) (b : Bool) :
    flag (s.trapFrame ret b).p bitI = true ∧ SameBut [bitI] s.p (s.trapFrame ret b).p ∧
    ∃ v, StatusByte b s.p v ∧ Stored s.ram (s.trapFrame ret b).ram
      [(slot s.sp, byteOf (r / 256)), (slot (byteOf (s.sp.toNat + 255)), byteOf r), (slot (byteOf (s.sp.toNat + 254)), v)] := by
  have hI : flag (putBit s.p bitI true) bitI = true := by rw [flag_putBit s.p (by decide), if_pos rfl]
  exact ⟨hI, sameBut_putBit s.p (by decide) true, packP s.p b, packP_spec s.p b, stored_trapFrame_byteOf hr hret b⟩

/-- Settles O47: each pushes one byte at the slot `SP` selects. -/
theorem pushes : Obligations.Pushes := by
  refine ⟨⟨rfl, rfl⟩, fun s hr => ?_⟩
  have hpush (v : Byte) : (past s 1).pushed v =
      ((past s 1).setSp (byteOf (s.sp.toNat + 255))).setRam ((past s 1).pushed v).ram ∧
      Stored s.ram ((past s 1).pushed v).ram [(slot s.sp, v)] :=
    ⟨(past s 1).pushed_eq v, stored_pushed (s := past s 1) hr v⟩
  obtain ⟨heq, hstored⟩ := hpush (packP s.p true)
  exact ⟨⟨_, exec_pha s, hpush s.a⟩, ⟨_, exec_php s, heq, packP s.p true, packP_spec s.p true, hstored⟩⟩

/-- Settles O48: each pulls the byte one slot up. -/
theorem pulls : Obligations.Pulls := by
  refine ⟨⟨rfl, rfl⟩, fun s => ?_⟩
  rw [← byte_add_one]
  exact ⟨completes_putZN rfl (exec_pla s), _, exec_plp s, rfl, unpackP_spec _⟩

/-! Jumps and subroutines. -/

/-- A word's operand bytes, low byte first, in numbers (spec/30_encoding.md R155). -/
theorem operandBytes_word (a : Word) : [loByte a, hiByte a] = [byteOf a.toNat, byteOf (a.toNat / 256)] := by
  rw [loByte_eq, hiByte_eq]

/-- Two bytes read one after the other, the second in the state the first left. -/
theorem read16_of_reads {a b : Word} {lo hi : Byte} {s u w : State} (hlo : memRead a s = .ok lo u)
    (hhi : memRead b u = .ok hi w) : read16 a b s = .ok (wordOfBytes hi lo) w := by
  rw [read16, bind_ok hlo, bind_ok hhi, pure_run, join_eq]

/-- Settles O49: the absolute form goes to its operand, the indirect one to the word of the two pointer reads. -/
theorem jumps : Obligations.Jumps := by
  refine fun s a => ⟨⟨?_, ?_⟩, exec_jmp_abs a s, fun lo hi u w hlo hhi => ?_⟩
  · exact congrArg (0x4C :: ·) (operandBytes_word a)
  · exact congrArg (0x6C :: ·) (operandBytes_word a)
  · rw [← indirectHigh_eq] at hhi
    exact exec_jmp_ind.mpr ⟨_, w, read16_of_reads hlo hhi, rfl⟩

/-- Settles O50: JSR pushes the address of its last byte, RTS goes past the address it pulls. -/
theorem subroutines : Obligations.Subroutines := by
  refine ⟨fun a => congrArg (0x20 :: ·) (operandBytes_word a), rfl, fun s => ⟨fun a hr => ?_, ?_⟩⟩
  · refine ⟨_, exec_jsr a s, (s.setPc a).pushed_pushed_eq _ _, ?_⟩
    have hret : (s.pc + 2).toNat = (s.pc.toNat + 2) % 65536 := word_add_toNat s.pc 2
    rw [← byte_sub_one, ← hret, ← hiByte_eq, ← loByte_eq]
    exact stored_pushedWord (s := s.setPc a) hr (s.pc + 2)
  · rw [← byte_add_one, ← byte_add_two, ← join_eq, ← word_add_one]
    exact exec_rts s

/-! BRK and RTI. -/

/-- A read of a vector that answers found an attached cartridge (spec/20_memory.md R58). -/
theorem memRead_cart_eq_ok {a : Word} (ha : region a = .cart) {s t : State} {v : Byte} (h : memRead a s = .ok v t) :
    ∃ c, s.cart = some c ∧ v = c.read a := by
  cases hc : s.cart with
  | none => rw [cartRead_unattached ha hc] at h; cases h
  | some c => rw [memRead_cart ha hc] at h; cases h; exact ⟨c, rfl, rfl⟩

/-- A vector whose two bytes are read holds the word at both addresses of the attached cartridge. -/
theorem vector_eq_ok {vector : Word} (h0 : region vector = .cart) (h1 : region (vector + 1) = .cart) {s : State} {lo hi : Byte}
    (hlo : memRead vector s = .ok lo s) (hhi : memRead (vector + 1) s = .ok hi s) :
    ∃ c, s.cart = some c ∧ join (c.read (vector + 1)) (c.read vector) = wordOfBytes hi lo := by
  obtain ⟨c, hc, rfl⟩ := memRead_cart_eq_ok h0 hlo
  obtain ⟨c', hc', rfl⟩ := memRead_cart_eq_ok h1 hhi
  obtain rfl : c = c' := Option.some.inj (hc.symm.trans hc')
  exact ⟨c, hc, join_eq _ _⟩

/-- Settles O51: BRK builds the trap frame and goes to the word of its vector, where there is one. -/
theorem softwareTrap : Obligations.SoftwareTrap := by
  refine ⟨rfl, fun s => ⟨fun lo hi hr hlo hhi => ?_, exec_brk_unattached⟩⟩
  obtain ⟨c, hc, hword⟩ := vector_eq_ok region_brkVector.1 region_brkVector.2 hlo hhi
  rw [← hword]
  have hret : (s.pc + 2).toNat = (s.pc.toNat + 2) % 65536 := word_add_toNat s.pc 2
  refine ⟨_, exec_brk hc, ?_, trapFrame_spec (s := past s 1) hr hret true⟩
  exact congrArg (State.setPc · _) ((past s 1).trapFrame_eq (s.pc + 2) true)

/-- Settles O52: RTI pulls the status byte, then the address. -/
theorem returnFromTrap_restores : Obligations.ReturnFromTrap := by
  refine ⟨rfl, fun s => ?_⟩
  rw [← byte_add_one, ← byte_add_two, ← byte_add_three, ← join_eq]
  exact ⟨_, exec_rti s, rfl, unpackP_spec _⟩

/-! What is pushed comes back (R281, R289, R290). -/

theorem byte_sub_add_one (b : Byte) : b - 1 + 1 = b := BitVec.sub_add_cancel b 1

/-- A pull after a push finds the byte pushed. -/
theorem read_pushed {s : State} (hr : s.ram.wf) (v : Byte) : (s.pushed v).ram.read (slot s.sp) = v := by
  rw [stored_pushed hr v, lookup_cell, if_pos rfl]; rfl

/-- The slots of two stack pointers are two bytes of RAM. -/
theorem slot_ne {b c : Byte} (h : b ≠ c) : slot b ≠ slot c := fun he =>
  h (BitVec.eq_of_toNat_eq (Nat.add_left_cancel he))

theorem byte_sub_one_ne (b : Byte) : b - 1 ≠ b := by bv_omega

theorem byte_sub_two_ne (b : Byte) : b - 1 - 1 ≠ b := by bv_omega

/-- The two bytes of a pushed word, where RTS pulls them. -/
theorem read_pushedWord {s : State} (hr : s.ram.wf) (w : Word) :
    ((s.pushed (hiByte w)).pushed (loByte w)).ram.read (slot s.sp) = hiByte w ∧
    ((s.pushed (hiByte w)).pushed (loByte w)).ram.read (slot (s.sp - 1)) = loByte w := by
  have h := stored_pushedWord hr w
  refine ⟨?_, ?_⟩
  · rw [h, lookup_cell, if_pos rfl]; rfl
  · rw [h, lookup_cell, if_neg (slot_ne (byte_sub_one_ne s.sp)), lookup_cell, if_pos rfl]; rfl

/-- The three bytes of a trap frame, where RTI pulls them. -/
theorem read_trapFrame {s : State} (hr : s.ram.wf) (ret : Word) (b : Bool) :
    (s.trapFrame ret b).ram.read (slot s.sp) = hiByte ret ∧
    (s.trapFrame ret b).ram.read (slot (s.sp - 1)) = loByte ret ∧
    (s.trapFrame ret b).ram.read (slot (s.sp - 1 - 1)) = packP s.p b := by
  have h := stored_trapFrame hr ret b
  refine ⟨?_, ?_, ?_⟩
  · rw [h, lookup_cell, if_pos rfl]; rfl
  · rw [h, lookup_cell, if_neg (slot_ne (byte_sub_one_ne s.sp)), lookup_cell, if_pos rfl]; rfl
  · rw [h, lookup_cell, if_neg (slot_ne (byte_sub_two_ne s.sp)), lookup_cell,
      if_neg (slot_ne (byte_sub_one_ne (s.sp - 1))), lookup_cell, if_pos rfl]; rfl

/-- RTS after the two pushes of `w` goes past it, the stack pointer as before them. -/
theorem exec_rts_pushedWord {s : State} (hr : s.ram.wf) (w : Word) :
    ∃ t, exec .rts ((s.pushed (hiByte w)).pushed (loByte w)) = .next t ∧ t.pc = w + 1 ∧ t.sp = s.sp ∧ t.p = s.p := by
  obtain ⟨hhi, hlo⟩ := read_pushedWord hr w
  have h1 : ((s.pushed (hiByte w)).pushed (loByte w)).sp + 1 = s.sp - 1 := byte_sub_add_one (s.sp - 1)
  have h2 : s.sp - 1 + 1 = s.sp := byte_sub_add_one s.sp
  have h := exec_rts ((s.pushed (hiByte w)).pushed (loByte w))
  rw [h1, h2, hhi, hlo, join_hiByte_loByte] at h
  exact ⟨_, h, rfl, rfl, rfl⟩

/-- RTI from a state with a trap frame's stack goes to its return address, stack pointer and status as before the trap. -/
theorem exec_rti_trapFrame {s : State} (hr : s.ram.wf) (hp : statusLegal s.p) (ret : Word) (b : Bool) (pc : Word) :
    ∃ t, exec .rti ((s.trapFrame ret b).setPc pc) = .next t ∧ t.pc = ret ∧ t.sp = s.sp ∧ t.p = s.p := by
  obtain ⟨hhi, hlo, hstatus⟩ := read_trapFrame hr ret b
  have h1 : ((s.trapFrame ret b).setPc pc).sp + 1 = s.sp - 1 - 1 := byte_sub_add_one (s.sp - 1 - 1)
  have h2 : s.sp - 1 - 1 + 1 = s.sp - 1 := byte_sub_add_one (s.sp - 1)
  have h3 : s.sp - 1 + 1 = s.sp := byte_sub_add_one s.sp
  have h := exec_rti ((s.trapFrame ret b).setPc pc)
  rw [h1, h2, h3, State.setPc_ram, hhi, hlo, hstatus, join_hiByte_loByte, unpackP_packP hp] at h
  exact ⟨_, h, rfl, rfl, rfl⟩

/-- Settles O53: each pull finds, at the slot above, the byte of its push. -/
theorem stackRoundTrips : Obligations.StackRoundTrips := by
  intro s t hr hp
  refine ⟨fun h => ?_, fun h => ?_, fun a h => ?_, fun h => ?_⟩
  · cases (exec_pha s).symm.trans h
    have hsp : ((past s 1).pushed s.a).sp + 1 = s.sp := byte_sub_add_one s.sp
    refine ⟨_, exec_pla _, ?_, hsp⟩
    rw [hsp]
    exact read_pushed (s := past s 1) hr s.a
  · cases (exec_php s).symm.trans h
    have hsp : ((past s 1).pushed (packP s.p true)).sp + 1 = s.sp := byte_sub_add_one s.sp
    have hread : ((past s 1).pushed (packP s.p true)).ram.read (slot s.sp) = packP s.p true :=
      read_pushed (s := past s 1) hr _
    refine ⟨_, exec_plp _, ?_, hsp⟩
    rw [hsp, hread]
    exact unpackP_packP hp true
  · cases (exec_jsr a s).symm.trans h
    obtain ⟨w, hx, hpc, hsp, hw⟩ := exec_rts_pushedWord (s := s.setPc a) hr (s.pc + 2)
    refine ⟨w, hx, hpc.trans (eq_wordOf ?_), hsp, hw⟩
    rw [word_add_toNat, word_add_toNat]
    exact Nat.mod_add_mod _ _ _
  · obtain ⟨c, -, rfl⟩ := exec_brk_next h
    obtain ⟨w, hx, hpc, hsp, hw⟩ :=
      exec_rti_trapFrame (s := past s 1) hr hp (s.pc + 2) true (join (c.read 0xFFFF) (c.read 0xFFFE))
    exact ⟨w, hx, hpc.trans (eq_wordOf (word_add_toNat s.pc 2)), hsp, hw⟩

end Sys2Proof.Machine
end

/-! SUPPORT. The claims about the host's operations (spec/70_reset_and_hazards.md section 1, spec/60_exceptions.md R302, R307), about
the illegal opcodes and about the default cycle table. -/
section

namespace Sys2Proof.Machine

open Sys2Proof.Claims

/-! Reset (R331, R332). -/

/-- With no cartridge a reset faults at its vector and has changed nothing. -/
theorem resetCpu_unattached {s : State} (hc : s.cart = none) :
    resetCpu s = .error (.busContractViolation resetVector) s :=
  bind_error (bind_error (cartRead_unattached region_resetVector.1 hc))

theorem hostReset_attached {s : State} (hs : s.attached) : ∃ t, hostReset s = .next t := by
  obtain ⟨c, hc⟩ := Option.isSome_iff_exists.mp hs
  exact ⟨_, outcome_ok (resetCpu_run hc)⟩

/-- A reset that completes read two vector bytes and made its assignments. -/
theorem hostReset_eq_next {s t : State} (h : hostReset s = .next t) :
    ∃ target u, read16 resetVector (resetVector + 1) s = .ok target u ∧
      t = ((((u.setPc target).setSp resetSp).setP resetP).setCyc 0).setReport none := by
  obtain ⟨target, u, hu, hk⟩ := bind_eq_ok.mp (outcome_eq_next.mp h)
  cases hk
  exact ⟨target, u, hu, rfl⟩

/-- Settles O54: the two vector reads, then the assignments. -/
theorem resetOperation : Obligations.ResetOperation := by
  refine fun s => ⟨fun lo hi hlo hhi => ?_, hostReset_attached, fun hc => ?_⟩
  · exact outcome_ok (bind_ok (read16_of_reads hlo hhi))
  · exact ⟨outcome_error (resetCpu_unattached hc), leaves_error (resetCpu_unattached hc)⟩

/-- Settles O14: the launch values, and that they are well-formed, are those of the definition. -/
theorem resetState : Obligations.ResetState := by
  exact ⟨by decide, rfl, rfl, rfl, rfl, rfl, rfl, rfl, rfl, rfl, rfl, rfl, rfl, rfl⟩

/-! The optional interrupts (spec/60_exceptions.md R307). -/

/-- An interrupt entry in closed form, for a vector in the cartridge space of an attached cartridge. -/
theorem interruptEntry_run {vector : Word} {s : State} {c : Cart} (hc : s.cart = some c) (h0 : region vector = .cart)
    (h1 : region (vector + 1) = .cart) : interruptEntry vector s =
    .ok () (((s.trapFrame s.pc false).setPc (join (c.read (vector + 1)) (c.read vector))).setCyc (s.cyc + 7)) := by
  rw [interruptEntry, get_bind, bind_ok (enterTrap_run false hc h0 h1)]
  rfl

/-- With no cartridge an interrupt entry faults at its vector, the trap frame built. -/
theorem interruptEntry_unattached {vector : Word} {s : State} (hc : s.cart = none) (h0 : region vector = .cart) :
    interruptEntry vector s = .error (.busContractViolation vector) (s.trapFrame s.pc false) := by
  rw [interruptEntry, get_bind, bind_error (enterTrap_unattached false hc h0)]

/-- A trap frame, then the jump and the count of an interrupt entry: what changes. -/
theorem State.trapFrame_entered_eq (s : State) (w : Word) (n : Nat) : ((s.trapFrame s.pc false).setPc w).setCyc n =
    ((((s.setPc w).setSp (byteOf (s.sp.toNat + 253))).setP (s.trapFrame s.pc false).p).setRam
      (s.trapFrame s.pc false).ram).setCyc n := by
  rw [← byte_sub_three]; rfl

/-- Settles O57: an entry that is taken builds the trap frame, and one that is not changes nothing. -/
theorem optionalInterrupts : Obligations.OptionalInterrupts := by
  intro s lo hi hr Pushed Entered Failed
  have hpushed : Pushed (s.trapFrame s.pc false) := trapFrame_spec hr rfl false
  have htaken (hin : s.params.hwInterruptInputs = true) (hs : Running s) : s.takesInterrupts = true :=
    (takesInterrupts_of_running hs).trans hin
  have hentered {vector : Word} (h0 : region vector = .cart) (h1 : region (vector + 1) = .cart)
      (hlo : memRead vector s = .ok lo s) (hhi : memRead (vector + 1) s = .ok hi s) :
      ∃ t, interruptEntry vector s = .ok () t ∧ Entered t := by
    obtain ⟨c, hc, hword⟩ := vector_eq_ok h0 h1 hlo hhi
    exact ⟨_, interruptEntry_run hc h0 h1, by rw [hword]; exact s.trapFrame_entered_eq _ _, hpushed⟩
  have hfailed {x : Exec Unit} {vector : Word} (hx : x s = interruptEntry vector s) (h0 : region vector = .cart)
      (hc : s.cart = none) : outcome x s = .fault (.busContractViolation vector) ∧ Failed vector (leaves x s) := by
    rw [interruptEntry_unattached hc h0] at hx
    exact ⟨outcome_error hx, _, leaves_error hx, s.trapFrame_eq _ _, hpushed⟩
  refine ⟨fun hin hs hI hlo hhi => ?_, fun _ hI => outcome_ok (irqEntry_ignored (.inr hI)), fun hin hs hlo hhi => ?_,
    fun hin hs hc => ⟨fun hI => ?_, ?_⟩, fun ⟨f, hf⟩ => irq_nmi_of_stopped hf, fun hin => ?_⟩
  · obtain ⟨t, ht, hE⟩ := hentered region_brkVector.1 region_brkVector.2 hlo hhi
    exact ⟨t, outcome_ok ((irqEntry_taken (htaken hin hs) hI).trans ht), hE⟩
  · obtain ⟨t, ht, hE⟩ := hentered region_nmiVector.1 region_nmiVector.2 hlo hhi
    exact ⟨t, outcome_ok ((nmiEntry_taken (htaken hin hs)).trans ht), hE⟩
  · exact hfailed (irqEntry_taken (htaken hin hs) hI) region_brkVector.1 hc
  · exact hfailed (nmiEntry_taken (htaken hin hs)) region_nmiVector.1 hc
  · have hno : s.takesInterrupts = false := by rw [State.takesInterrupts, hin, Bool.false_and]
    exact ⟨outcome_ok (irqEntry_ignored (.inl hno)), outcome_ok (nmiEntry_ignored hno)⟩

/-! The stopped machine (R302, R303). -/

/-- `t` is `s` but for the cartridge and the pattern tables an attachment loads. -/
def SameButCartridge (s t : State) : Prop := t = (s.setCart t.cart).setPpu { s.ppu with pt := t.ppu.pt }

theorem SameButCartridge.refl (s : State) : SameButCartridge s s := rfl

theorem SameButCartridge.trans {s t u : State} (h : SameButCartridge s t) (k : SameButCartridge t u) : SameButCartridge s u := by
  have hk : (t.setCart u.cart).setPpu { t.ppu with pt := u.ppu.pt } =
      (s.setCart u.cart).setPpu { s.ppu with pt := u.ppu.pt } := by
    rw [h]; rfl
  exact Eq.trans k hk

theorem sameButCartridge_withCart (s : State) (c : Cart) : SameButCartridge s (s.withCart c) := rfl

/-- An attachment does not start a stopped machine. -/
theorem SameButCartridge.stopped {s t : State} {f : Fault} (h : SameButCartridge s t) (hs : Stopped s f) : Stopped t f :=
  stopped_congr hs (by rw [h]; rfl) (by rw [h]; rfl)

/-- Whatever the host does to a stopped machine but reset, at most a cartridge is attached. -/
theorem happen_of_stopped {s : State} {f : Fault} (h : Stopped s f) (e : HostEvent) : SameButCartridge s (happen s e) := by
  obtain ⟨hirq, hnmi⟩ := irq_nmi_of_stopped h
  cases e with
  | tick => rw [happen, step_of_stopped h, tickLeaves_of_stopped h]; exact .refl s
  | irq => rw [happen, hirq]; exact .refl s
  | nmi => rw [happen, hnmi]; exact .refl s
  | attach image =>
    cases ha : attach image s with
    | error e => simp only [happen, ha]; exact .refl s
    | ok t =>
      obtain ⟨c, -, rfl⟩ := attach_eq_ok ha
      simp only [happen, ha]
      exact sameButCartridge_withCart s c

/-- So through any sequence of events. -/
theorem foldl_happen_of_stopped {s : State} {f : Fault} (h : Stopped s f) (events : List HostEvent) :
    SameButCartridge s (events.foldl happen s) := by
  induction events generalizing s with
  | nil => exact .refl s
  | cons e rest ih =>
    have he := happen_of_stopped h e
    exact he.trans (ih (he.stopped h))

/-- A reset that completes has cleared the recorded fault. -/
theorem running_of_hostReset {s t : State} (h : hostReset s = .next t) : Running t := by
  obtain ⟨target, u, -, rfl⟩ := hostReset_eq_next h
  exact running_of_report rfl

theorem hostReset_attached_running {s : State} (hs : s.attached) : ∃ t, hostReset s = .next t ∧ Running t := by
  obtain ⟨t, ht⟩ := hostReset_attached hs
  exact ⟨t, ht, running_of_hostReset ht⟩

/-- Settles O60: every event keeps the machine stopped by the same fault, and a completed reset clears it. -/
theorem stoppedUntilReset : Obligations.StoppedUntilReset := by
  refine fun s f h => ⟨fun events => ?_, fun t => running_of_hostReset, hostReset_attached_running, fun image u hu => ?_⟩
  · have hsame := foldl_happen_of_stopped h events
    have hstop := hsame.stopped h
    exact ⟨hstop, step_of_stopped hstop, hsame⟩
  · obtain ⟨c, -, rfl⟩ := attach_eq_ok hu
    exact hostReset_attached_running rfl

/-! The host's operations keep the state well-formed. -/

/-- The image that loads is one of mapper 0 with one or two PRG banks (spec/21_cartridge_mapper.md R88, R90, R91). -/
theorem parseImage_eq_ok {image : List Byte} {c : Cart} (h : parseImage image = .ok c) :
    c = cartOf image ∧ headerMapperId image = 0 ∧ (imageByte image 4 = 1 ∨ imageByte image 4 = 2) := by
  unfold parseImage at h
  split at h
  · cases h
  split at h
  · cases h
  split at h
  · cases h
  rename_i hsel
  split at h
  · cases h
    refine ⟨rfl, Classical.byContradiction fun hid => ?_, ‹_›⟩
    rw [selectMapper_ne_zero hid] at hsel
    cases hsel
  · cases h

/-- A slice of an image is a canonical memory of the slice's size. -/
theorem Memory.ofBytes_take_wf (bs : List Byte) (n : Nat) :
    (Memory.ofBytes 0 (bs.take n)).wf ∧ (Memory.ofBytes 0 (bs.take n)).within n :=
  ⟨Memory.ofBytes_wf _ _, Memory.ofBytes_within _ _ (List.length_take_le n bs)⟩

theorem cartOf_wf {image : List Byte} (hid : headerMapperId image = 0) (hb : imageByte image 4 = 1 ∨ imageByte image 4 = 2) :
    (cartOf image).wf := by
  obtain ⟨hp, hp'⟩ := Memory.ofBytes_take_wf (image.drop (prgStart image)) (prgSize image)
  obtain ⟨hc, hc'⟩ := Memory.ofBytes_take_wf (image.drop (prgStart image + prgSize image)) (chrSize image)
  exact ⟨hid, hb, hp, hp', hc, hc'⟩

/-- The pattern tables an attachment loads are canonical and of their size (spec/21_cartridge_mapper.md R96). -/
theorem patternTables_wf {c : Cart} (hc : c.chr.wf) : (patternTables c).wf ∧ (patternTables c).within 8192 := by
  rw [patternTables]
  split
  · exact ⟨⟨List.Pairwise.nil, nofun⟩, nofun⟩
  · exact ⟨Memory.below_wf hc _, Memory.below_within _ _⟩

theorem State.withCart_wf {s : State} (hs : s.wf) {c : Cart} (hc : c.wf) : (s.withCart c).wf := by
  obtain ⟨hp, ⟨hram, ⟨hnt, -, hrest⟩, -⟩, ht⟩ := hs
  obtain ⟨-, -, -, -, hchr, -⟩ := id hc
  refine ⟨hp, ⟨hram, ⟨hnt, patternTables_wf hchr, hrest⟩, ?_⟩, ht⟩
  rintro _ ⟨⟩
  exact hc

theorem interruptEntry_wf {vector : Word} {s t : State} (h0 : region vector = .cart) (h1 : region (vector + 1) = .cart)
    (hs : s.wf) (h : interruptEntry vector s = .ok () t) : t.wf := by
  obtain ⟨c, -, rfl⟩ := interruptEntry_eq_ok h0 h1 h
  exact (Frame.trapFrame (i := .brk) rfl List.mem_cons_self s.pc false).wf hs

/-- Settles O15: each operation changes registers, builds a trap frame, or attaches a cartridge read from an image. -/
theorem hostOperationsKeepInvariant : Obligations.HostOperationsKeepInvariant := by
  refine fun s t hs => ⟨fun h => ?_, fun h => ?_, fun h => ?_, fun image h => ?_⟩
  · obtain ⟨target, u, hu, rfl⟩ := hostReset_eq_next h
    obtain ⟨-, hm, ht⟩ := read16_wf hu hs
    exact ⟨(by decide : statusLegal resetP), hm, ht⟩
  · obtain rfl | h := irq_eq_next h
    · exact hs
    · exact interruptEntry_wf region_brkVector.1 region_brkVector.2 hs h
  · obtain rfl | h := nmi_eq_next h
    · exact hs
    · exact interruptEntry_wf region_nmiVector.1 region_nmiVector.2 hs h
  · obtain ⟨c, hparse, rfl⟩ := attach_eq_ok h
    obtain ⟨rfl, hid, hb⟩ := parseImage_eq_ok hparse
    exact State.withCart_wf hs (cartOf_wf hid hb)

/-! Illegal opcodes and the cycle table. -/

/-- Settles O12: the three policies. -/
theorem illegalOpcodes_byPolicy : Obligations.IllegalOpcodes := by
  refine fun s op => ⟨fun h => ?_, fun h => ?_, fun h => ?_⟩ <;> rw [exec_illegal, h]
  all_goals rw [past_one]; rfl

/-- Settles O7: the table at the opcode byte of each mnemonic in each of its forms, an illegal byte having no class. -/
theorem cycleTableByClass : Obligations.CycleTableByClass := by
  intro i op hw hop hl
  cases i with
  | adc m | and m | asl m | bit m | cmp m | cpx m | cpy m | dec m | eor m | inc m
  | lda m | ldx m | ldy m | lsr m | ora m | rol m | ror m | sbc m | sta m | stx m | sty m =>
    cases m <;> cases hop <;> rfl
  | jmp target => cases target <;> cases hop <;> rfl
  | illegal => cases hop; exact absurd ((wellFormed_illegal_iff op).mp hw) hl
  | _ => cases hop; rfl

end Sys2Proof.Machine
end

/-! SUPPORT. The fault claims (spec/60_exceptions.md): which accesses can fault, what a faulting instruction and a faulting fetch
leave, and the tick around them. -/
section

namespace Sys2Proof.Machine

open Sys2Proof.Claims

/-! What a fault leaves unchanged (R303). -/

/-- `A`, `X`, `Y`, the counter, the cartridge and the parameters of `s` and `t` are the same. -/
structure Keeps (s t : State) : Prop where
  a : t.a = s.a
  x : t.x = s.x
  y : t.y = s.y
  cyc : t.cyc = s.cyc
  cart : t.cart = s.cart
  params : t.params = s.params

theorem Keeps.refl (s : State) : Keeps s s := ⟨rfl, rfl, rfl, rfl, rfl, rfl⟩

theorem Keeps.trans {s t u : State} (h : Keeps s t) (k : Keeps t u) : Keeps s u :=
  ⟨k.a.trans h.a, k.x.trans h.x, k.y.trans h.y, k.cyc.trans h.cyc, k.cart.trans h.cart, k.params.trans h.params⟩

/-- A read changes the PPU and the draw counter at most. -/
theorem Keeps.of_read {s t : State} (h : t = (s.setPpu t.ppu).setDraws t.draws) : Keeps s t := by
  rw [h]; exact ⟨rfl, rfl, rfl, rfl, rfl, rfl⟩

theorem Keeps.past (s : State) (n : Nat) : Keeps s (past s n) := ⟨rfl, rfl, rfl, rfl, rfl, rfl⟩

theorem Keeps.putFlag (s : State) (i : Nat) (b : Bool) : Keeps s (s.putFlag i b) := ⟨rfl, rfl, rfl, rfl, rfl, rfl⟩

theorem Keeps.latchOpcode (s : State) (pc0 : Word) (op : Byte) : Keeps s (s.latchOpcode pc0 op) :=
  ⟨rfl, rfl, rfl, rfl, rfl, rfl⟩

theorem Keeps.trapFrame (s : State) (ret : Word) (b : Bool) : Keeps s (s.trapFrame ret b) := ⟨rfl, rfl, rfl, rfl, rfl, rfl⟩

/-- From `s`, which has no cartridge, an access in the PPU window or in cartridge space is the fault `f`, and `t` is left. -/
structure Violates (s : State) (f : Fault) (t : State) : Prop where
  fault : ∃ a : Word, f = .busContractViolation a ∧ (InWindow a.toNat ∨ 0x4020 ≤ a.toNat)
  cart_none : s.cart = none
  keeps : Keeps s t

/-- A violation after accesses that answered. -/
theorem Keeps.violates {s t u : State} {f : Fault} (h : Keeps s u) (k : Violates u f t) : Violates s f t :=
  ⟨k.fault, h.cart.symm.trans k.cart_none, h.trans k.keeps⟩

/-- A state that keeps what a violation left is left by it too. -/
theorem Violates.keeps_left {s t u : State} {f : Fault} (h : Violates s f t) (k : Keeps t u) : Violates s f u :=
  ⟨h.fault, h.cart_none, h.keeps.trans k⟩

/-! The accesses that can fault (spec/20_memory.md R58). -/

/-- The regions that need a cartridge. -/
theorem window_or_cartSpace {a : Word} (hram : region a ≠ .ram) (hhole : region a ≠ .hole) :
    InWindow a.toNat ∨ 0x4020 ≤ a.toNat := by
  cases ha : region a with
  | ram => exact absurd ha hram
  | hole => exact absurd ha hhole
  | ppu => exact .inl ((region_ppu_iff a).mp ha)
  | cart => exact .inr ((region_cart_iff a).mp ha)

theorem memRead_violates {a : Word} {s t : State} {f : Fault} (h : memRead a s = .error f t) : Violates s f t := by
  obtain ⟨rfl, hc⟩ := memRead_error h
  obtain rfl := memRead_error_state h
  refine ⟨⟨a, rfl, window_or_cartSpace (fun ha => ?_) (fun ha => ?_)⟩, hc, .refl t⟩
  · rw [memRead_ram ha] at h; cases h
  · rw [memRead_hole ha] at h; cases h

/-- A write that faults has changed the PPU at most: the I/O latch (spec/22_ppu_interface.md R113). -/
theorem memWrite_error_frame {a : Word} {v : Byte} {s t : State} {f : Fault} (h : memWrite a v s = .error f t) :
    t = s.setPpu t.ppu := by
  cases ha : region a with
  | ram => rw [memWrite_ram ha] at h; cases h
  | hole => rw [memWrite_hole ha] at h; cases h
  | cart =>
    obtain ⟨-, hc⟩ := memWrite_error h
    rw [cartWrite_unattached ha v hc] at h
    cases h; rfl
  | ppu =>
    simp only [memWrite, ha, ppuWriteRegister, modifyPpu, modify_bind] at h
    cases hk : slotOf a <;> simp only [hk] at h
    case vramData =>
      simp only [get_bind] at h
      rcases bind_eq_error.mp h with h | ⟨_, _, _, h⟩
      · simp only [writeVram] at h
        split at h <;> cases h
        rfl
      · cases h
    all_goals cases h

theorem memWrite_violates {a : Word} {v : Byte} {s t : State} {f : Fault} (h : memWrite a v s = .error f t) :
    Violates s f t := by
  obtain ⟨rfl, hc⟩ := memWrite_error h
  refine ⟨⟨a, rfl, window_or_cartSpace (fun ha => ?_) (fun ha => ?_)⟩, hc, ?_⟩
  · rw [memWrite_ram ha] at h; cases h
  · rw [memWrite_hole ha] at h; cases h
  · rw [memWrite_error_frame h]; exact ⟨rfl, rfl, rfl, rfl, rfl, rfl⟩

theorem read16_violates {lo hi : Word} {s t : State} {f : Fault} (h : read16 lo hi s = .error f t) : Violates s f t := by
  rcases bind_eq_error.mp h with h | ⟨l, u, hl, h⟩
  · exact memRead_violates h
  rcases bind_eq_error.mp h with h | ⟨_, _, _, h⟩
  · exact (Keeps.of_read (memRead_frame hl)).violates (memRead_violates h)
  · cases h

theorem readOperand_violates {ea : Ea} {s t : State} {f : Fault} (h : readOperand ea s = .error f t) : Violates s f t := by
  cases ea with
  | addr a => exact memRead_violates h
  | acc | fetched a v => cases h

theorem writeOperand_violates {ea : Ea} {v : Byte} {s t : State} {f : Fault} (h : writeOperand ea v s = .error f t) :
    Violates s f t := by
  cases ea with
  | acc => cases h
  | addr a | fetched a w => exact memWrite_violates h

theorem operandByte_violates {m : Operand} {s t : State} {f : Fault} (h : operandByte m s = .error f t) : Violates s f t := by
  rw [operandByte_run, ← past_length] at h
  exact (Keeps.past s _).violates (readOperand_violates h)

/-! The instructions that can fault. -/

theorem withOperand_violates {m : Operand} {g : Byte → State → State} {s t : State} {f : Fault}
    (h : withOperand m g s = .error f t) : Violates s f t := by
  rcases bind_eq_error.mp h with h | ⟨_, _, _, h⟩
  · exact operandByte_violates h
  · cases h

theorem storeOperand_violates {m : Operand} {r : State → Byte} {s t : State} {f : Fault}
    (h : storeOperand m r s = .error f t) : Violates s f t := by
  rw [storeOperand_run, ← past_length] at h
  exact (Keeps.past s _).violates (writeOperand_violates h)

/-- A status byte that differs in the carry alone is the one `putBit` makes. -/
theorem carryWritten_some {s t : State} {b : Bool} (h : CarryWritten s t (some b)) : t = s.putFlag bitC b := by
  obtain ⟨ht, hb, hkept⟩ := h
  have hp : t.p = putBit s.p bitC b := flag_ext fun i => by
    rw [flag_putBit s.p (by decide)]
    split
    · rename_i hi; rw [hi, hb]
    · exact hkept i (by simpa using ‹_›)
  rw [ht, hp]; rfl

/-- Each read-modify-write by its result and by what it writes before the result, the carry or nothing (R210 to R213, R220,
R221). -/
theorem meaning_of_operandModified {i : Instr} {m : Operand} {k : Nat} {v : Byte} {r : Nat} {c : Option Bool}
    (hi : operandModified k v i = some (m, r, c)) :
    ∃ result before, meaning i = readModifyWrite m result before ∧ (∀ v u, Keeps u (before v u)) ∧
      ∀ p, carry p = k → result p v = byteOf r ∧ ∀ u t, CarryWritten u t c → t = before v u := by
  have hv := v.isLt
  cases i with
  | asl m =>
    cases hi
    exact ⟨fun _ => aslResult, fun v u => u.putFlag bitC (v.getLsbD 7), rfl,
      fun _ _ => .putFlag _ _ _, fun p _ =>
      ⟨eq_byteOf (by rw [aslResult_toNat, Nat.mod_mod]), fun _ _ => carryWritten_some⟩⟩
  | lsr m =>
    cases hi
    exact ⟨fun _ => lsrResult, fun v u => u.putFlag bitC (v.getLsbD 0), rfl,
      fun _ _ => .putFlag _ _ _, fun p _ =>
      ⟨eq_byteOf (by rw [lsrResult_toNat]; omega), fun _ _ => carryWritten_some⟩⟩
  | rol m =>
    cases hi
    exact ⟨fun p => rolResult (flag p bitC), fun v u => u.putFlag bitC (v.getLsbD 7), rfl,
      fun _ _ => .putFlag _ _ _, fun p hp =>
      ⟨eq_byteOf (by rw [rolResult_toNat, hp, Nat.mod_mod]), fun _ _ => carryWritten_some⟩⟩
  | ror m =>
    cases hi
    exact ⟨fun p => rorResult (flag p bitC), fun v u => u.putFlag bitC (v.getLsbD 0), rfl,
      fun _ _ => .putFlag _ _ _, fun p hp =>
      ⟨eq_byteOf (by have := carry_le_one p; rw [rorResult_toNat, hp]; omega), fun _ _ => carryWritten_some⟩⟩
  | inc m =>
    cases hi
    exact ⟨fun _ v => v + 1, fun _ u => u, rfl,
      fun _ u => .refl u, fun p _ =>
      ⟨(byte_add_one v).trans (eq_byteOf (by rw [byteOf_toNat, Nat.mod_mod])), fun _ _ h => h⟩⟩
  | dec m =>
    cases hi
    exact ⟨fun _ v => v - 1, fun _ u => u, rfl,
      fun _ u => .refl u, fun p _ =>
      ⟨(byte_sub_one v).trans (eq_byteOf (by rw [byteOf_toNat, Nat.mod_mod])), fun _ _ h => h⟩⟩
  | _ => cases hi

/-- A read-modify-write faults at its operand read, or at its operand write after it. -/
theorem readModifyWrite_eq_error {m : Operand} {result : Byte → Byte → Byte} {before : Byte → State → State} {s t : State}
    {f : Fault} (h : readModifyWrite m result before s = .error f t) : operandByte m s = .error f t ∨
      ∃ v u, operandByte m s = .ok v u ∧ writeOperand (s.eaOf m) (result u.p v) (before v u) = .error f t := by
  rw [operandByte_run]
  have h' := (bind_ok (resolve_run m s)).symm.trans h
  rcases bind_eq_error.mp h' with h1 | ⟨v, u, h1, h2⟩
  · exact .inl h1
  · have hw : (writeOperand (s.eaOf m) (result u.p v) >>= fun _ => modify fun q => q.putZN (result u.p v))
        (before v u) = .error f t := h2
    rcases bind_eq_error.mp hw with h3 | ⟨_, _, _, h3⟩
    · exact .inr ⟨v, u, h1, h3⟩
    · cases h3

theorem readModifyWrite_violates {m : Operand} {result : Byte → Byte → Byte} {before : Byte → State → State} {s t : State}
    {f : Fault} (hb : ∀ v u, Keeps u (before v u)) (h : readModifyWrite m result before s = .error f t) : Violates s f t := by
  rcases readModifyWrite_eq_error h with h | ⟨v, u, hr, hw⟩
  · exact operandByte_violates h
  · have hu : Keeps s u := by
      rw [← reads_iff] at hr
      exact (Keeps.past s (length m)).trans (.of_read (reads_frame hr))
    exact (hu.trans (hb v u)).violates (writeOperand_violates hw)

theorem violates_of_operandModified {i : Instr} {m : Operand} {k : Nat} {v : Byte} {r : Nat} {c : Option Bool} {s t : State}
    {f : Fault} (h : meaning i s = .error f t) (hi : operandModified k v i = some (m, r, c)) : Violates s f t := by
  obtain ⟨result, before, hm, hk, -⟩ := meaning_of_operandModified hi
  rw [hm] at h
  exact readModifyWrite_violates hk h

theorem resolveJump_ind (p : Word) (s : State) : resolveJump (.ind p) s =
    (read16 p (indirectHigh s.params.jmpIndirectPageWrap p) >>= fun target => do
      advance 3
      pure target : Exec Word) s := rfl

/-- JMP indirect faults in the reads of its pointer, before it moves `PC`. -/
theorem meaning_jmp_ind_error {p : Word} {s t : State} {f : Fault} : meaning (.jmp (.ind p)) s = .error f t ↔
    read16 p (indirectHigh s.params.jmpIndirectPageWrap p) s = .error f t := by
  refine ⟨fun h => ?_, fun h => bind_error ((resolveJump_ind p s).trans (bind_error h))⟩
  rcases bind_eq_error.mp h with h | ⟨_, _, _, h⟩
  · rw [resolveJump_ind] at h
    rcases bind_eq_error.mp h with h | ⟨_, _, _, h⟩
    · exact h
    · cases h
  · cases h

/-- BRK with no cartridge faults at its vector, its trap frame built (R292, R303). -/
theorem meaning_brk_unattached {s : State} (hc : s.cart = none) :
    meaning .brk s = .error (.busContractViolation 0xFFFE) ((past s 1).trapFrame (s.pc + 2) true) := by
  rw [past_one, ← word_add_two]
  exact enterTrap_unattached (ret := s.pc + 1 + 1) true (s := s.setPc (s.pc + 1)) hc region_brkVector.1

theorem meaning_illegal_halt {s : State} (h : s.params.illegalOpcodePolicy = .halt) (op : Byte) :
    meaning (.illegal op) s = .error (.unimplementedOpcode op s.pc) s := by
  simp only [meaning, Sem.illegal, h]

/-- An instruction that completes does not fault. -/
theorem meaning_ne_error {i : Instr} {s t : State} {f : Fault} (h : ∃ u, exec i s = .next u) : meaning i s ≠ .error f t := by
  obtain ⟨u, hu⟩ := h
  rw [exec_eq_outcome, outcome_eq_next] at hu
  rw [hu]
  exact nofun

/-- Everything an instruction can do that faults. -/
theorem meaning_eq_error {i : Instr} {s t : State} {f : Fault} (h : meaning i s = .error f t) :
    (∃ op, i = .illegal op ∧ s.params.illegalOpcodePolicy = .halt) ∨ Violates s f t := by
  cases i with
  | ora m | and m | eor m | bit m | adc m | sbc m | cmp m | cpx m | cpy m | lda m | ldx m | ldy m =>
    exact .inr (withOperand_violates h)
  | sta m | stx m | sty m => exact .inr (storeOperand_violates h)
  | asl m | lsr m | rol m | ror m | inc m | dec m =>
    exact .inr (violates_of_operandModified h (k := 0) (v := 0) rfl)
  | inx | iny | dex | dey | tax | tay | txa | tya | tsx | txs | clc | sec | cli | sei | clv | cld | sed =>
    exact absurd h (meaning_ne_error (implied_completes rfl s))
  | nop => exact absurd h (meaning_ne_error ⟨_, exec_nop s⟩)
  | bpl d | bmi d | bvc d | bvs d | bcc d | bcs d | bne d | beq d =>
    exact absurd h (meaning_ne_error ⟨_, outcome_branch _ _ d s⟩)
  | pha => exact absurd h (meaning_ne_error ⟨_, exec_pha s⟩)
  | php => exact absurd h (meaning_ne_error ⟨_, exec_php s⟩)
  | pla => exact absurd h (meaning_ne_error ⟨_, exec_pla s⟩)
  | plp => exact absurd h (meaning_ne_error ⟨_, exec_plp s⟩)
  | jsr a => exact absurd h (meaning_ne_error ⟨_, exec_jsr a s⟩)
  | rts => exact absurd h (meaning_ne_error ⟨_, exec_rts s⟩)
  | rti => exact absurd h (meaning_ne_error ⟨_, exec_rti s⟩)
  | jmp target =>
    cases target with
    | abs a => exact absurd h (meaning_ne_error ⟨_, exec_jmp_abs a s⟩)
    | ind p => exact .inr (read16_violates (meaning_jmp_ind_error.mp h))
  | brk =>
    cases hc : s.cart with
    | some c => exact absurd h (meaning_ne_error ⟨_, exec_brk hc⟩)
    | none =>
      cases (meaning_brk_unattached hc).symm.trans h
      exact .inr ⟨⟨_, rfl, .inr (by decide)⟩, hc, (Keeps.past s 1).trans (.trapFrame _ _ _)⟩
  | illegal op =>
    refine .inl ⟨op, rfl, Classical.byContradiction fun hp => ?_⟩
    exact absurd h (meaning_ne_error (exec_illegal_completes hp op))

/-! The fetch (spec/30_encoding.md R150). -/

theorem fetchOperands_violates {pc0 : Word} {n : Nat} {s t : State} {f : Fault} (h : fetchOperands pc0 n s = .error f t) :
    Violates s f t := by
  match n, h with
  | 0, h => cases h
  | 1, h =>
    rcases bind_eq_error.mp h with h | ⟨_, _, _, h⟩
    · exact memRead_violates h
    · cases h
  | _ + 2, h =>
    rcases bind_eq_error.mp h with h | ⟨b1, u, h1, h⟩
    · exact memRead_violates h
    rcases bind_eq_error.mp h with h | ⟨_, _, _, h⟩
    · exact (Keeps.of_read (memRead_frame h1)).violates (memRead_violates h)
    · cases h

/-- A fetch faults at its opcode byte or at an operand byte. -/
theorem fetch_violates {s t : State} {f : Fault} (h : fetch s = .error f t) : Violates s f t := by
  have h' : (memRead s.pc >>= fun op =>
      if (dispatch op).isIllegal then pure (.illegal op)
      else do
        modify fun s' => s'.latchOpcode s.pc op
        let b ← fetchOperands s.pc (operandCount op)
        pure (instrOf op b.1 b.2) : Exec Instr) s = .error f t := h
  rcases bind_eq_error.mp h' with h1 | ⟨op, u, h1, h2⟩
  · exact memRead_violates h1
  split at h2
  · cases h2
  have h3 : (fetchOperands s.pc (operandCount op) >>= fun b => pure (instrOf op b.1 b.2) : Exec Instr)
      (u.latchOpcode s.pc op) = .error f t := h2
  rcases bind_eq_error.mp h3 with h4 | ⟨_, _, _, h4⟩
  · exact ((Keeps.of_read (memRead_frame h1)).trans (.latchOpcode u s.pc op)).violates (fetchOperands_violates h4)
  · cases h4

/-- A fetch changes neither `PC` nor what a fault keeps. -/
theorem fetch_keeps {s u : State} {i : Instr} (h : fetch s = .ok i u) : Keeps s u ∧ u.pc = s.pc := by
  rw [fetch_frame h]
  exact ⟨⟨rfl, rfl, rfl, rfl, rfl, rfl⟩, rfl⟩

/-! The tick. -/

/-- An illegal byte under `halt` ends the tick after its fetch (R301). -/
theorem aborts_of_illegal {s w : State} {op : Byte} (hr : Running s) (hm : memRead s.pc s = .ok op w)
    (hl : op.toNat ∈ illegalOpcodes) (hp : s.params.illegalOpcodePolicy = .halt) :
    Aborts s (.unimplementedOpcode op s.pc) w := by
  have hf := fetch_of_illegal hm hl
  obtain ⟨hk, hpc⟩ := fetch_keeps hf
  have hx := meaning_illegal_halt (hk.params.symm ▸ hp) op
  rw [hpc] at hx
  exact aborts_of_meaning hr hf hx

/-- The tick of a running machine faults at an illegal byte under `halt`, or at an access that needs a cartridge. -/
theorem step_fault_cases {s : State} {f : Fault} (hr : Running s) (h : step s = .fault f) :
    (∃ op w, memRead s.pc s = .ok op w ∧ op.toNat ∈ illegalOpcodes ∧ s.params.illegalOpcodePolicy = .halt ∧
      f = .unimplementedOpcode op s.pc ∧ Aborts s f w) ∨
    ∃ t, Aborts s f t ∧ Violates s f t := by
  rcases step_eq_fault hr h with ⟨t, hf⟩ | ⟨i, u, t, hf, hm⟩
  · refine .inr ⟨_, aborts_of_fetch hr hf, (fetch_violates hf).keeps_left ?_⟩
    rw [State.afterFailedFetch]
    split
    · exact ⟨rfl, rfl, rfl, rfl, rfl, rfl⟩
    · exact .refl t
  obtain ⟨hk, hpc⟩ := fetch_keeps hf
  rcases meaning_eq_error hm with ⟨op, rfl, hp⟩ | hv
  · obtain ⟨op', w, hread, ⟨hill, hi, -⟩ | ⟨hlegal, b, -, hi⟩⟩ := fetch_cases hf
    · cases hi
      have hl := (isIllegal_iff op).mp hill
      have ha := aborts_of_illegal hr hread hl (hk.params ▸ hp)
      obtain ⟨hstep, -⟩ := id ha
      cases hstep.symm.trans h
      exact .inl ⟨op, w, hread, hl, hk.params ▸ hp, rfl, ha⟩
    · exact absurd hi.symm (instrOf_ne_illegal hlegal _ _ _)
  · exact .inr ⟨t, aborts_of_meaning hr hf hm, hk.violates hv⟩

theorem step_ne_refused (s : State) (r : Refusal) : step s ≠ .refused r := by
  intro h
  obtain ⟨f, hs⟩ | hr := stopped_or_running s
  · rw [step_of_stopped hs] at h; cases h
  cases hf : fetch s with
  | error f u => rw [step_of_fetch_error hr hf] at h; cases h
  | ok i u =>
    rw [step_of_fetch hr hf] at h
    cases he : exec i u with
    | next t => rw [he] at h; cases h
    | fault f => rw [he] at h; cases h
    | refused r' => exact exec_ne_refused i u r' he

/-- Settles O10: a stopped machine reports its fault, and the tick of a running one has two ways to fault. -/
theorem faultsOfATick : Obligations.FaultsOfATick := by
  refine fun s => ⟨fun f h => ?_, step_ne_refused s⟩
  obtain ⟨g, hs⟩ | hr := stopped_or_running s
  · cases (step_of_stopped hs).symm.trans h
    exact .inl hs
  · rcases step_fault_cases hr h with ⟨op, w, hm, hl, hp, hf, -⟩ | ⟨t, -, hv⟩
    · exact .inr (.inl ⟨op, w, hm, hl, hp, hf⟩)
    · obtain ⟨a, hf, ha⟩ := hv.fault
      exact .inr (.inr ⟨a, hf, hv.cart_none, ha⟩)

/-! What a faulting tick leaves (R301, R303). -/

/-- The opcodes whose resolver moves `PC` before the operand byte is read are those of the column "imm" (R157, R174). -/
theorem takesImmediate_iff : ∀ op : Byte, takesImmediate op = true ↔ op ∈ immediateOpcodes := by decide

/-- An immediate operand is one byte. -/
theorem operandCount_of_takesImmediate {op : Byte} (h : takesImmediate op = true) : operandCount op = 1 := by
  rw [takesImmediate] at h
  rw [operandCount]
  split at h
  · rename_i mk hd; rw [hd]; rfl
  · cases h

/-- An opcode with one operand byte lacks it only if no byte follows. -/
theorem eq_nil_of_missingOperand {op : Byte} {bs : List Byte} (hn : operandCount op = 1)
    (h : decode (op :: bs) = .error .missingOperand) : bs = [] := by
  cases bs with
  | nil => rfl
  | cons b rest => simp only [decode, hn] at h; cases h

theorem fetchesBytes_op {bs : List Byte} : ∀ {s u : State} {a : Word}, FetchesBytes s a bs u → u.op = s.op := by
  induction bs with
  | nil => rintro s u a rfl; rfl
  | cons b bs ih =>
    rintro s u a ⟨w, hw, hrest⟩
    rw [ih hrest, memRead_frame hw]; rfl

/-- What a failed operand fetch leaves: `PC` is moved for an immediate operand alone (R174). -/
theorem afterFailedFetch_of_fetchFails {s u : State} {op : Byte} {bs : List Byte} {f : Fault} (h : FetchFails s op bs f u) :
    u.afterFailedFetch s.pc f = if op ∈ immediateOpcodes then u.setPc (wordOf (s.pc.toNat + 2)) else u := by
  obtain ⟨hd, ⟨w, -, hbytes⟩, x, hx⟩ := h
  have hop : u.op = op := fetchesBytes_op hbytes
  obtain ⟨rfl, -⟩ := memRead_error hx
  rw [State.afterFailedFetch, hop]
  by_cases himm : op ∈ immediateOpcodes
  · have ht := (takesImmediate_iff op).mpr himm
    obtain rfl := eq_nil_of_missingOperand (operandCount_of_takesImmediate ht) hd
    rw [if_pos ⟨congrArg _ (word_add_one s.pc).symm, ht⟩, if_pos himm]
    exact congrArg _ (eq_wordOf (word_add_toNat s.pc 2))
  · rw [if_neg fun ⟨_, ht⟩ => himm ((takesImmediate_iff op).mp ht), if_neg himm]

/-- What a fault leaves is stopped by it, and keeps what a fault keeps. -/
theorem left_of_aborts {s t : State} {f : Fault} (h : Aborts s f t) (hk : Keeps s t)
    (hp : (∃ op pc, f = .unimplementedOpcode op pc) → s.params.illegalOpcodePolicy = .halt) :
    ∃ t, tickLeaves s = some t ∧ Stopped t f ∧ t.cyc = s.cyc ∧
      t.a = s.a ∧ t.x = s.x ∧ t.y = s.y ∧ t.cart = s.cart ∧ t.params = s.params := by
  obtain ⟨-, hleft⟩ := h
  have hstopped : Stopped (t.setReport (some f)) f :=
    ⟨rfl, fun hf => (congrArg Params.illegalOpcodePolicy hk.params).trans (hp hf)⟩
  exact ⟨_, hleft, hstopped, hk.cyc, hk.a, hk.x, hk.y, hk.cart, hk.params⟩

/-- Settles O58: the cases of a fault, each with what it leaves. -/
theorem faultingTickLeaves : Obligations.FaultingTickLeaves := by
  refine fun s => ⟨fun t => tickLeaves_of_next, fun f h => ?_, fun f hs => ⟨step_of_stopped hs, tickLeaves_of_stopped hs⟩,
    fun op w hr hm hl hp => ⟨aborts_of_illegal hr hm hl hp, memRead_frame hm, fun hin => memRead_quiet (region_ne_ppu hin) hm⟩,
    fun f w hr hm => ?_, fun op bs f u hr hf => ?_⟩
  · obtain ⟨g, hs⟩ | hr := stopped_or_running s
    · cases (step_of_stopped hs).symm.trans h
      exact ⟨s, tickLeaves_of_stopped hs, hs, rfl, rfl, rfl, rfl, rfl, rfl⟩
    · rcases step_fault_cases hr h with ⟨op, w, hm, -, hp, -, ha⟩ | ⟨t, ha, hv⟩
      · exact left_of_aborts ha (.of_read (memRead_frame hm)) fun _ => hp
      · obtain ⟨a, rfl, -⟩ := hv.fault
        exact left_of_aborts ha hv.keeps nofun
  · have ha := aborts_of_fetch hr (fetch_error_opcode hm)
    obtain rfl := memRead_error_state hm
    obtain ⟨rfl, -⟩ := memRead_error hm
    rw [State.afterFailedFetch, if_neg] at ha
    · exact ha
    · rintro ⟨hpc, -⟩
      exact absurd (Fault.busContractViolation.inj hpc) (by bv_omega)
  · rw [← afterFailedFetch_of_fetchFails hf]
    exact aborts_of_fetch hr (fetch_error_operand hf)

/-! What a tick leaves that faults inside its instruction (R303). -/

theorem meaning_error_of_operandByte {i : Instr} {m : Operand} {k : Nat} {v : Byte} {r : Nat} {c : Option Bool} {s t : State}
    {f : Fault} (hi : operandModified k v i = some (m, r, c)) (h : operandByte m s = .error f t) : meaning i s = .error f t := by
  obtain ⟨result, before, hm, -, -⟩ := meaning_of_operandModified hi
  rw [hm]
  exact readModifyWrite_error_read h

/-- An instruction that reads its operand stops at that read. -/
theorem meaning_error_of_operandRead {i : Instr} {m : Operand} {s t : State} {f : Fault} (hi : operandRead i = some m)
    (h : operandByte m s = .error f t) : meaning i s = .error f t := by
  cases i with
  | ora _ | and _ | eor _ | bit _ | adc _ | sbc _ | cmp _ | cpx _ | cpy _ | lda _ | ldx _ | ldy _ =>
    cases hi; exact withOperand_error h
  | asl _ | lsr _ | rol _ | ror _ | inc _ | dec _ =>  cases hi; exact meaning_error_of_operandByte (k := 0) (v := 0) rfl h
  | _ => cases hi

/-- A store is its operand write. -/
theorem meaning_of_operandStored {i : Instr} {m : Operand} {r : Byte} {s : State} (hi : operandStored s i = some (m, r)) :
    meaning i s = writeOperand (s.eaOf m) r (past s (length m)) := by
  cases i with
  | sta _ | stx _ | sty _ => cases hi; rw [past_length]; exact storeOperand_run _ _ s
  | _ => cases hi

/-- A read-modify-write stops at its operand write, the operand read and the carry written. -/
theorem meaning_error_of_operandModified {i : Instr} {m : Operand} {v : Byte} {r : Nat} {c : Option Bool} {s u t w : State}
    {f : Fault} (hi : operandModified (carry s.p) v i = some (m, r, c)) (hr : Reads s m v u) (hc : CarryWritten u t c)
    (hw : writeOperand (s.eaOf m) (byteOf r) t = .error f w) : meaning i s = .error f w := by
  obtain ⟨result, before, hm, -, hresult⟩ := meaning_of_operandModified hi
  obtain ⟨hbyte, hbefore⟩ := hresult u.p (congrArg carry (reads_p hr))
  rw [← hbyte, hbefore u t hc] at hw
  rw [hm]
  exact readModifyWrite_error_write ((reads_iff s m v u).mp hr) hw

/-- Settles O59: each access that can fault, the state before it and nothing after it. -/
theorem faultingInstructionLeaves : Obligations.FaultingInstructionLeaves := by
  intro s u op bs i hr hf hl hd
  have habort {f : Fault} {t : State} (h : meaning i u = .error f t) : Aborts s f t :=
    aborts_of_meaning hr (fetch_of_fetches hf hl hd) h
  refine ⟨fun m a f w hi ha h => ?_, fun m r a f w hi ha h => ?_, fun m v r a c f x y w hi ha hx hc h => ?_,
    fun p f w hi h => ?_, fun p lo f x w hi hx h => ?_, fun hi hc hram => ?_⟩
  · exact habort (meaning_error_of_operandRead hi (operandByte_error ha h))
  · rw [← writeOperand_address ha] at h
    exact habort ((meaning_of_operandStored hi).trans h)
  · have hread : Reads u m v x := by simp only [Reads, ha]; exact hx
    rw [← writeOperand_address ha] at h
    exact habort (meaning_error_of_operandModified hi hread hc h)
  · subst hi
    obtain rfl := memRead_error_state h
    exact habort (meaning_jmp_ind_error.mpr (bind_error h))
  · subst hi
    rw [← indirectHigh_eq] at h
    obtain rfl := memRead_error_state h
    exact habort (meaning_jmp_ind_error.mpr ((bind_ok hx).trans (bind_error h)))
  · subst hi
    have hret : (u.pc + 2).toNat = (u.pc.toNat + 2) % 65536 := word_add_toNat u.pc 2
    exact ⟨_, habort (meaning_brk_unattached hc), (past u 1).trapFrame_eq _ _, trapFrame_spec (s := past u 1) hram hret true⟩

end Sys2Proof.Machine
end
